-- ==== Sys2Proof/Word.lean ====
section
/-! DEFINITION. The two widths the adapter handles, a byte and a nibble (`00_scope.md` R7, R9), and
the operand enumerations that encodings and state share. -/

namespace Sys2Proof

/-- An 8-bit instruction, data or operand byte (`OPW` = 8, R6, R63). -/
abbrev Byte := BitVec 8

/-- A "4-bit half of a byte" (R9, glossary). -/
abbrev Nibble := BitVec 4

/-- Entry-mode move-target (R17): the cursor or the whole display. -/
inductive EmTarget where
  | cursor
  | display
deriving DecidableEq, Repr

/-- Entry-mode direction (R17). -/
inductive EmDir where
  | inc
  | dec
deriving DecidableEq, Repr

/-- What a shift instruction moves (R58). -/
inductive ShiftWhat where
  | cursor
  | display
deriving DecidableEq, Repr

/-- Which way a shift instruction moves it (R58). -/
inductive ShiftSide where
  | left
  | right
deriving DecidableEq, Repr

/-- The three encodings of `30_encoding.md`: host commands (R50), emitted instruction bytes (R53),
I2C control bytes (R62). -/
inductive Format where
  | hc
  | lcdi
  | i2cb
deriving DecidableEq, Repr

end Sys2Proof
end

