-- ==== Sys2Proof/Config.lean ====
section
/-! DEFINITION. What is fixed when an adapter is constructed (`00_scope.md` R6, `10_state.md` R12),
the literals of the source among it (`93_implementation_defined.md` U14), and the free values (opaque,
no body) for what the spec leaves open. -/

namespace Sys2Proof

/-- `VARIANT` (R6): exactly one of four transports. -/
inductive Variant where
  | ph
  | pf
  | sr
  | i2c
deriving DecidableEq, Repr

/-- "4-bit transports (parallel-half, I2C)" (R9, R125). -/
def Variant.isFour : Variant → Bool
  | .ph => true
  | .pf => false
  | .sr => false
  | .i2c => true

/-- The parameters of the table of R6 and the literals of the source (U14), each a field with its
value there as default. They never change after construction. The two bounds R6 puts on them are
proof fields, so no adapter breaks them. -/
structure Params where
  /-- `T_POWER`, ">= 50 units". -/
  tPower : Nat := 50
  /-- `T_FS1`, `T_FS2`, `T_FS3`: "5, 5, 2 units". -/
  tFs1 : Nat := 5
  tFs2 : Nat := 5
  tFs3 : Nat := 2
  /-- `T_SETTLE`, ">= 2 units". -/
  tSettle : Nat := 2
  /-- `T_PRE`, `T_HIGH`, `T_POST` (D6). -/
  tPre : Nat := 1
  tHigh : Nat := 1
  tPost : Nat := 1
  /-- `T_DATA_SETTLE`, OPEN, default 0 (D15). -/
  tDataSettle : Nat := 0
  /-- `ROW0_BASE`, `ROW1_BASE`. -/
  row0Base : Byte := 0x00
  row1Base : Byte := 0x40
  /-- `COLS_ALLOC`, `COLS_VISIBLE`, `ROWS`. -/
  colsAlloc : Nat := 40
  colsVisible : Nat := 16
  rows : Nat := 2
  /-- `CG_SLOTS`, `CG_BYTES`. -/
  cgSlots : Nat := 8
  cgBytes : Nat := 8
  /-- The eight opcode bases of R53. -/
  opClear : Byte := 0x01
  opHome : Byte := 0x02
  opEntry : Byte := 0x04
  opDctrl : Byte := 0x08
  opShift : Byte := 0x10
  opFset : Byte := 0x20
  opCgram : Byte := 0x40
  opDdram : Byte := 0x80
  /-- The shift of R60: "address = slot<<3". -/
  slotShift : Nat := 3
  /-- `EM_ID`, `EM_S` (D9). -/
  emId : Byte := 0x02
  emS : Byte := 0x01
  /-- `DC_D`, `DC_C`, `DC_B` (D9). -/
  dcD : Byte := 0x04
  dcC : Byte := 0x02
  dcB : Byte := 0x01
  /-- `SH_SC`, `SH_RL` (D9). -/
  shSc : Byte := 0x08
  shRl : Byte := 0x04
  /-- `FS_DL`, `FS_N`, `FS_F` (D9). -/
  fsDl : Byte := 0x10
  fsN : Byte := 0x08
  fsF : Byte := 0x04
  /-- `FS8`, "0x30 = 0x20 or `FS_DL`" (D10). -/
  fs8 : Byte := opFset ||| fsDl
  /-- `FS4_NIB`, the high nibble of "function-set 4-bit" (D10). -/
  fs4Nib : Nibble := opFset.extractLsb' 4 4
  /-- `FS_FINAL` on PH and I2C, and on PF and SR: "0x20 or (`FS_DL` on 8-bit transports) or `FS_N`"
  (D10). -/
  fsFinal4 : Byte := opFset ||| fsN
  fsFinal8 : Byte := opFset ||| fsDl ||| fsN
  /-- `RS_DATA`: the register-select level that means "data" (D22). -/
  rsData : Bool := true
  /-- Whether the observer adopts G9, "clear and home set the counter to DDRAM address 0"
  (`20_memory.md` R40 (e)); by default it does not. -/
  clearHomes : Bool := false
  tPower_bound : 50 ≤ tPower := by decide
  tSettle_bound : 2 ≤ tSettle := by decide
deriving DecidableEq, Repr

/-- The parameters at the defaults of R6. -/
def Params.default : Params := {}

/-- The bit positions of the I2C control byte (R62, U14), with the source's as defaults: "bit0 =
register-select, bit1 = read/write (unused, always write), bit2 = enable, bit3 = backlight, bits4-7 =
data nibble". The eight bits of a byte have each one use. -/
structure CtlLayout where
  rsBit : Nat := 0
  rwBit : Nat := 1
  enBit : Nat := 2
  blBit : Nat := 3
  /-- The lowest bit of the nibble. -/
  nibbleBit : Nat := 4
  inByte : rsBit < 8 ∧ rwBit < 8 ∧ enBit < 8 ∧ blBit < 8 ∧ nibbleBit ≤ 4 := by decide
  apart : [rsBit, rwBit, enBit, blBit, nibbleBit, nibbleBit + 1, nibbleBit + 2,
    nibbleBit + 3].Nodup := by decide
deriving DecidableEq, Repr

/-- The address of the one I2C device: bus handle and device address, both OPEN (R6, R33, D23).
Their widths are not given, so they are numbers. -/
structure I2cDest where
  handle : Nat
  addr : Nat
deriving DecidableEq, Repr

/-- The construction-time choice of transport: a sum with one payload per variant (R12). The
physical port and pin of each signal is out of scope (R4 (b)), so the GPIO payloads are empty here. -/
inductive Wiring where
  | ph
  | pf
  | sr
  | i2c (dest : I2cDest) (blReset : Bool) (layout : CtlLayout)
deriving DecidableEq, Repr

namespace Config

/-- `T_UNIT`, the real duration of one time-unit: OPEN, and no rule depends on it (R6, R158, D14). -/
opaque tUnit : Nat

/-- How many of the three bytes of the n-th open transmit reached the expander, taken modulo 4, when
that transmit never completed: unknown (U19, R136). -/
opaque freeBytesReached : Nat → Nat

/-- The level of a pin that nothing has written (U18, "any value"): read by the external shift
register alone, and only in states no command sequence reaches. -/
opaque freeLevel : Bool

end Config

end Sys2Proof
end

