-- ==== Sys2Proof/Syntax.lean ====
section
/-! DEFINITION. The instruction set as syntax: one constructor per row of `spec/opcode_table.json`. -/

namespace Sys2Proof

/-- Host commands (`HC`, R51), the eight emitted instruction classes (`LCDI`, R53) and the I2C control
byte (`I2CB`, R62), in the table's order. Operand types carry the operand widths of the encodings. -/
inductive Instr where
  -- layer T, transport primitives (R84 to R87)
  | snib (n : Nibble)
  | sbyte (b : Byte)
  | sshb (b : Byte)
  | si2cn (d : Bool) (n : Nibble)
  -- layer B, byte commands (R95 to R97)
  | winstr (b : Byte)
  | wdata (b : Byte)
  | wbuf (data : List Byte)
  -- layer C, display commands (R101 to R121)
  | clear
  | home
  | setcur (row col : Byte)
  | mkchar (slot g0 g1 g2 g3 g4 g5 g6 g7 : Byte)
  | dispon
  | dispoff
  | disptgl
  | curon
  | curoff
  | curtgl
  | blnkon
  | blnkoff
  | blnktgl
  | curinc
  | curdec
  | dspinc
  | dspdec
  | curl
  | curr
  | scrl
  | scrr
  -- layer C, system commands (R125 to R128)
  | init
  | blon
  | bloff
  | bltgl
  -- emitted instruction bytes, as the controller receives them (R54 to R61)
  | lcdClear
  | lcdHome
  | lcdEntry (incBit dispBit : Bool)
  | lcdDctrl (d c b : Bool)
  | lcdShift (dispBit rightBit : Bool)
  | lcdFset (l n f : Bool)
  | lcdSetcg (a : BitVec 6)
  | lcdSetdd (a : BitVec 7)
  -- the I2C control byte, as the expander receives it (R62)
  | i2cCtrl (n : Nibble) (bl en rs : Bool)
deriving DecidableEq, Repr

/-- The encoding an instruction belongs to: the "format" column of the opcode table. -/
def Instr.format : Instr → Format
  | .snib _ | .sbyte _ | .sshb _ | .si2cn _ _ | .winstr _ | .wdata _ | .wbuf _ | .clear | .home
  | .setcur _ _ | .mkchar _ _ _ _ _ _ _ _ _ | .dispon | .dispoff | .disptgl | .curon | .curoff
  | .curtgl | .blnkon | .blnkoff | .blnktgl | .curinc | .curdec | .dspinc | .dspdec | .curl | .curr
  | .scrl | .scrr | .init | .blon | .bloff | .bltgl => .hc
  | .lcdClear | .lcdHome | .lcdEntry _ _ | .lcdDctrl _ _ _ | .lcdShift _ _ | .lcdFset _ _ _
  | .lcdSetcg _ | .lcdSetdd _ => .lcdi
  | .i2cCtrl _ _ _ _ => .i2cb

end Sys2Proof
end

