-- ==== Sys2Proof/WellFormed.lean ====
section
/-! DEFINITION. Which instruction terms stand for encodable instructions. Operand widths are in the
types of `Instr`; the one condition left is the count byte of `WBUF` (R52, D18: 0 to 255). -/

namespace Sys2Proof

/-- `WBUF` carries its length in one byte (R50, R97). -/
def wbufLengthFits (data : List Byte) : Bool := decide (data.length ≤ 255)

/-- Well-formed instructions: every check, by constructor. -/
def Instr.wellFormed : Instr → Bool
  | .wbuf data => wbufLengthFits data
  | .snib _ | .sbyte _ | .sshb _ | .si2cn _ _ | .winstr _ | .wdata _ | .clear | .home
  | .setcur _ _ | .mkchar _ _ _ _ _ _ _ _ _ | .dispon | .dispoff | .disptgl | .curon | .curoff
  | .curtgl | .blnkon | .blnkoff | .blnktgl | .curinc | .curdec | .dspinc | .dspdec | .curl | .curr
  | .scrl | .scrr | .init | .blon | .bloff | .bltgl
  | .lcdClear | .lcdHome | .lcdEntry _ _ | .lcdDctrl _ _ _ | .lcdShift _ _ | .lcdFset _ _ _
  | .lcdSetcg _ | .lcdSetdd _ | .i2cCtrl _ _ _ _ => true

end Sys2Proof
end

