-- ==== Sys2Proof/Decode.lean ====
section
/-! DEFINITION. The decoders of the three encodings of `30_encoding.md`, total and rejecting by name,
and after them the encoder. The host command decoder reads a byte stream (R50 to R52, R65); the other
two read one byte each, by the match and mask of their rows (R53 to R62). -/

namespace Sys2Proof

/-! ### Bit fields -/

/-- `b[7:4]` (R7). -/
def hiNibble (b : Byte) : Nibble := b.extractLsb' 4 4

/-- `b[3:0]` (R7). -/
def loNibble (b : Byte) : Nibble := b.extractLsb' 0 4

/-- `(hi << 4) | lo` (R41, R63). -/
def joinNibbles (hi lo : Nibble) : Byte := hi ++ lo

/-- The mask when the condition holds, else 0: the "c ? m : 0" of R56 to R59 and R62. -/
def bitIf (c : Bool) (m : Byte) : Byte := if c then m else 0

/-! ### Host commands -/

/-- Why the head of the host stream is no command (R133). -/
inductive DecodeError where
  /-- `RF1`: the opcode byte is not in the table of R51. -/
  | reservedOpcode
  /-- `RF7`: the stream ends before the operands the opcode calls for. -/
  | truncated
  /-- `RF5`: reserved operand bits not zero. -/
  | reservedOperandBits
deriving DecidableEq, Repr

/-- What the host decoder answers: an instruction with the rest of the stream, or a reason. -/
inductive Decoded where
  | ok (i : Instr) (rest : List Byte)
  | bad (e : DecodeError)
deriving DecidableEq, Repr

/-- A command with no operand. -/
def take0 (i : Instr) (r : List Byte) : Decoded := .ok i r

/-- A command with one operand byte. -/
def take1 (f : Byte → Instr) : List Byte → Decoded
  | b :: r => .ok (f b) r
  | [] => .bad .truncated

/-- `SNIB`: operand `0000nnnn`; bits 7 to 4 are reserved zero (R65 (b), R84). -/
def takeSnib : List Byte → Decoded
  | b :: r => if hiNibble b = 0 then .ok (.snib (loNibble b)) r else .bad .reservedOperandBits
  | [] => .bad .truncated

/-- `SI2CN`: operand `000dnnnn`; bits 7 to 5 are reserved zero (R65 (b), R87). -/
def takeSi2cn : List Byte → Decoded
  | b :: r =>
    if b.extractLsb' 5 3 = 0 then .ok (.si2cn (b.getLsbD 4) (loNibble b)) r
    else .bad .reservedOperandBits
  | [] => .bad .truncated

/-- `WBUF n, b0..`: the count, then n bytes (R52, R97). -/
def takeWbuf : List Byte → Decoded
  | n :: r =>
    if r.length < n.toNat then .bad .truncated else .ok (.wbuf (r.take n.toNat)) (r.drop n.toNat)
  | [] => .bad .truncated

/-- `SETCUR row, col` (R120). -/
def takeSetcur : List Byte → Decoded
  | row :: col :: r => .ok (.setcur row col) r
  | _ => .bad .truncated

/-- `MKCHAR slot, g0, ..., g7` (R121). -/
def takeMkchar : List Byte → Decoded
  | slot :: g0 :: g1 :: g2 :: g3 :: g4 :: g5 :: g6 :: g7 :: r =>
    .ok (.mkchar slot g0 g1 g2 g3 g4 g5 g6 g7) r
  | _ => .bad .truncated

/-- The host opcode map of R51; every opcode byte not in it is reserved (R65 (a)). -/
def decodeOpcode : Nat → List Byte → Decoded
  | 0x10, r => takeSnib r
  | 0x11, r => take1 .sbyte r
  | 0x12, r => take1 .sshb r
  | 0x13, r => takeSi2cn r
  | 0x20, r => take1 .winstr r
  | 0x21, r => take1 .wdata r
  | 0x22, r => takeWbuf r
  | 0x30, r => take0 .clear r
  | 0x31, r => take0 .home r
  | 0x32, r => takeSetcur r
  | 0x33, r => takeMkchar r
  | 0x40, r => take0 .dispon r
  | 0x41, r => take0 .dispoff r
  | 0x42, r => take0 .disptgl r
  | 0x43, r => take0 .curon r
  | 0x44, r => take0 .curoff r
  | 0x45, r => take0 .curtgl r
  | 0x46, r => take0 .blnkon r
  | 0x47, r => take0 .blnkoff r
  | 0x48, r => take0 .blnktgl r
  | 0x50, r => take0 .curinc r
  | 0x51, r => take0 .curdec r
  | 0x52, r => take0 .dspinc r
  | 0x53, r => take0 .dspdec r
  | 0x54, r => take0 .curl r
  | 0x55, r => take0 .curr r
  | 0x56, r => take0 .scrl r
  | 0x57, r => take0 .scrr r
  | 0x60, r => take0 .init r
  | 0x61, r => take0 .blon r
  | 0x62, r => take0 .bloff r
  | 0x63, r => take0 .bltgl r
  | _, _ => .bad .reservedOpcode

/-- The host command decoder: reads the opcode byte, then exactly the bytes it calls for (R45, R52).
The reasons come in the order `RF1`, `RF7`, `RF5` (R135). An empty stream holds no command: that is
the idle host, which `step` never decodes. -/
def decode : List Byte → Decoded
  | [] => .bad .truncated
  | op :: r => decodeOpcode op.toNat r

/-! ### Emitted instruction bytes -/

/-- Whether a byte has any bit of a mask. -/
def hasBit (b m : Byte) : Bool := decide (b &&& m ≠ 0)

/-- The eight `LCDI` rows under the parameters of an adapter, each by the match and mask of its pattern
(R53), the highest base first (R66 (d)). A byte that matches none is none of the classes the adapter
produces (U6, R66 (b), (c)). -/
def decodeLcdiFor (p : Params) (b : Byte) : Option Instr :=
  if b &&& ~~~0x7F = p.opDdram then some (.lcdSetdd (b.extractLsb' 0 7))
  else if b &&& ~~~0x3F = p.opCgram then some (.lcdSetcg (b.extractLsb' 0 6))
  else if b &&& ~~~(p.fsDl ||| p.fsN ||| p.fsF) = p.opFset then
    some (.lcdFset (hasBit b p.fsDl) (hasBit b p.fsN) (hasBit b p.fsF))
  else if b &&& ~~~(p.shSc ||| p.shRl) = p.opShift then
    some (.lcdShift (hasBit b p.shSc) (hasBit b p.shRl))
  else if b &&& ~~~(p.dcD ||| p.dcC ||| p.dcB) = p.opDctrl then
    some (.lcdDctrl (hasBit b p.dcD) (hasBit b p.dcC) (hasBit b p.dcB))
  else if b &&& ~~~(p.emId ||| p.emS) = p.opEntry then
    some (.lcdEntry (hasBit b p.emId) (hasBit b p.emS))
  else if b = p.opHome then some .lcdHome
  else if b = p.opClear then some .lcdClear
  else none

/-- The decoder of the opcode table, that of the default parameters. -/
def decodeLcdi (b : Byte) : Option Instr := decodeLcdiFor Params.default b

/-! ### The I2C control byte -/

/-- The byte with one bit set. -/
def oneBit (k : Nat) : Byte := BitVec.twoPow 8 k

/-- The nibble of a control byte. -/
def CtlLayout.nibbleOf (l : CtlLayout) (b : Byte) : Nibble := b.extractLsb' l.nibbleBit 4

/-- A control byte under a layout (R62); the read/write bit, "unused, always write", must be 0. -/
def CtlLayout.decode (l : CtlLayout) (b : Byte) : Option Instr :=
  if b.getLsbD l.rwBit then none
  else some (.i2cCtrl (l.nibbleOf b) (b.getLsbD l.blBit) (b.getLsbD l.enBit) (b.getLsbD l.rsBit))

/-- The decoder of the opcode table, `nnnnbe0r`. -/
def decodeCtl (b : Byte) : Option Instr := CtlLayout.decode {} b

/-! ### The encoder -/

/-- The I2C control byte `ctl(n, rs, bl, en)` of R62 under a layout. -/
def CtlLayout.byte (l : CtlLayout) (n : Nibble) (rs bl en : Bool) : Byte :=
  (n.setWidth 8 <<< l.nibbleBit) ||| bitIf bl (oneBit l.blBit) ||| bitIf en (oneBit l.enBit)
    ||| bitIf rs (oneBit l.rsBit)

/-- The bytes of an instruction, from R51 for host commands, the patterns of R53 for emitted
instruction bytes and R62 for the control byte. -/
def encode : Instr → List Byte
  | .snib n => [0x10, n.setWidth 8]
  | .sbyte b => [0x11, b]
  | .sshb b => [0x12, b]
  | .si2cn d n => [0x13, bitIf d 0x10 ||| n.setWidth 8]
  | .winstr b => [0x20, b]
  | .wdata b => [0x21, b]
  | .wbuf data => 0x22 :: BitVec.ofNat 8 data.length :: data
  | .clear => [0x30]
  | .home => [0x31]
  | .setcur row col => [0x32, row, col]
  | .mkchar slot g0 g1 g2 g3 g4 g5 g6 g7 => [0x33, slot, g0, g1, g2, g3, g4, g5, g6, g7]
  | .dispon => [0x40]
  | .dispoff => [0x41]
  | .disptgl => [0x42]
  | .curon => [0x43]
  | .curoff => [0x44]
  | .curtgl => [0x45]
  | .blnkon => [0x46]
  | .blnkoff => [0x47]
  | .blnktgl => [0x48]
  | .curinc => [0x50]
  | .curdec => [0x51]
  | .dspinc => [0x52]
  | .dspdec => [0x53]
  | .curl => [0x54]
  | .curr => [0x55]
  | .scrl => [0x56]
  | .scrr => [0x57]
  | .init => [0x60]
  | .blon => [0x61]
  | .bloff => [0x62]
  | .bltgl => [0x63]
  | .lcdClear => [0x01]
  | .lcdHome => [0x02]
  | .lcdEntry incBit dispBit => [0x04 ||| bitIf incBit 0x02 ||| bitIf dispBit 0x01]
  | .lcdDctrl d c b => [0x08 ||| bitIf d 0x04 ||| bitIf c 0x02 ||| bitIf b 0x01]
  | .lcdShift dispBit rightBit => [0x10 ||| bitIf dispBit 0x08 ||| bitIf rightBit 0x04]
  | .lcdFset l n f => [0x20 ||| bitIf l 0x10 ||| bitIf n 0x08 ||| bitIf f 0x04]
  | .lcdSetcg a => [0x40 ||| a.setWidth 8]
  | .lcdSetdd a => [0x80 ||| a.setWidth 8]
  | .i2cCtrl n bl en rs => [CtlLayout.byte {} n rs bl en]

/-- The length of a host command by its opcode (R52), of the other two formats one byte. -/
def Instr.lengthBytes : Instr → Nat
  | .snib _ | .sbyte _ | .sshb _ | .si2cn _ _ | .winstr _ | .wdata _ => 2
  | .wbuf data => 2 + data.length
  | .setcur _ _ => 3
  | .mkchar _ _ _ _ _ _ _ _ _ => 10
  | .clear | .home | .dispon | .dispoff | .disptgl | .curon | .curoff | .curtgl | .blnkon | .blnkoff
  | .blnktgl | .curinc | .curdec | .dspinc | .dspdec | .curl | .curr | .scrl | .scrr | .init | .blon
  | .bloff | .bltgl | .lcdClear | .lcdHome | .lcdEntry _ _ | .lcdDctrl _ _ _ | .lcdShift _ _
  | .lcdFset _ _ _ | .lcdSetcg _ | .lcdSetdd _ | .i2cCtrl _ _ _ _ => 1

/-! ### Words of the opcode table -/

/-- The longest instruction: `WBUF` with 255 data bytes. -/
def maxInstrBytes : Nat := 257

/-- A table word laid out as a stream: byte k is bits 8k+7..8k, zero above `nbits`. -/
def tableBytes (nbits w : Nat) : List Byte :=
  (List.range maxInstrBytes).map fun k => BitVec.ofNat 8 ((w % 2 ^ nbits) >>> (8 * k))

/-- Which decoder reads a table word. The three formats share byte values, and a bare word does not
say which line it stands on, so the host decoder is asked first; where the opcode byte is reserved
there, the instruction-byte decoder; then the control-byte decoder (notes/assumptions/5). -/
def decodeTableBytes (bs : List Byte) : Option (Instr × Format) :=
  match decode bs with
  | .ok i _ => some (i, .hc)
  | .bad .reservedOpcode =>
    match decodeLcdi (bs.headD 0) with
    | some i => some (i, .lcdi)
    | none => (decodeCtl (bs.headD 0)).map fun i => (i, .i2cb)
  | .bad _ => none

/-- The instruction the decoder reads from an opcode-table word. -/
def decodeTableWord (nbits w : Nat) : Option Instr :=
  (decodeTableBytes (tableBytes nbits w)).map (·.1)

end Sys2Proof
end

