-- ==== Sys2Proof/Machine/State.lean ====
section
/-! DEFINITION. The state of one adapter and of the devices its events drive, as plain data, the
reasons a step can stop, and the state at construction (`10_state.md` R10 to R28). -/

namespace Sys2Proof.Machine

/-! ### Why a step stops -/

/-- A stop with no next state. -/
inductive Fault where
  /-- Raised by `step` in the stuck state: the I2C transmit of the running command never completes,
  so the adapter can make no further step (R136, R137; glossary, "Stuck"). Safe. -/
  | i2cStuck
  /-- Raised by the display-flag commands when a flag they read has never been written; R28: "treat
  a read of an unwritten field as a fault of the model". No command sequence reaches it. Safe. -/
  | readUnwritten
deriving DecidableEq, Repr

/-- A refused command (R132, R133): state and trace unchanged, the whole run refused. -/
inductive Refusal where
  /-- An instruction that has no meaning yet, refused by its arm in `exec`. Safe. -/
  | notModelled (mnemonic : String)
  /-- `RF1`, raised by the host decoder: the opcode byte is not in the table of R51. Safe. -/
  | reservedOpcode
  /-- `RF2`, raised by the four transport primitives on a variant other than their own. Safe. -/
  | wrongVariant
  /-- `RF3`, raised by every layer B and layer C command but `INIT` outside phase Ready. Safe. -/
  | notReady
  /-- `RF4`, raised by `INIT` outside phase Uninitialized. Safe. -/
  | alreadyInitialised
  /-- `RF5`, raised by the host decoder: reserved operand bits not zero. Safe. -/
  | reservedOperandBits
  /-- `RF6`: raised by every host command while another is running, by `step` for bytes presented
  then, and by `step` when a second agent drives the pins or the bus (R133, R141). Safe. -/
  | busy
  /-- `RF7`, raised by the host decoder: the stream ends before the operands. Safe. -/
  | truncated
  /-- Raised when a control byte is presented to an adapter whose variant has no expander
  (R22: "I2C variant" only). Safe. -/
  | noExpander
  /-- Raised by `step` for a control byte whose read/write bit is 1: "unused, always write" (R62),
  never transmitted (R66 (a)). Safe. -/
  | reservedControlBit
deriving DecidableEq, Repr

/-! ### Phase, events, micro-sequence -/

/-- The controller phase (R14). -/
inductive Phase where
  | uninitialized
  | initializing
  | ready
deriving DecidableEq, Repr

/-- The events of the output trace (the table of R20). -/
inductive Event where
  /-- `RS=l` -/
  | rs (l : Bool)
  /-- `E=l` -/
  | e (l : Bool)
  /-- `D4=n` -/
  | d4 (n : Nibble)
  /-- `D8=b` -/
  | d8 (b : Byte)
  /-- `SER=l` -/
  | ser (l : Bool)
  /-- `SCK=l` -/
  | sck (l : Bool)
  /-- `RCK=l` -/
  | rck (l : Bool)
  /-- `DLY n`: a wait of at least n time-units (R158). -/
  | dly (n : Nat)
  /-- `I2C [b0 b1 b2]`: one transmit of three bytes to the device address over the bus handle. -/
  | i2c (dest : I2cDest) (b0 b1 b2 : Byte)
deriving DecidableEq, Repr

/-- One element of a command's micro-sequence (R15): an event, or a write of an adapter field that
stands between events in the listing of R125. -/
inductive Micro where
  | event (ev : Event)
  | setPhase (p : Phase)
  | setFlags (disp cur blink : Bool)
  | setDisp (disp : Bool)
  | setEntry (target : EmTarget) (dir : EmDir)
deriving DecidableEq, Repr

/-! ### Transports: the variant and its payload (R12), pins (R13), external latches (R21, R22) -/

/-- The six pin latches of ParallelHalf. A pin that nothing has written holds no value (R23, R28):
`none` is that state of the spec, and it is what makes a logical item's register-select unknown
(R83). The four data pins are written by one event (R29), so they are one field. -/
structure PhPins where
  rs : Option Bool
  e : Option Bool
  dp : Option Nibble
deriving DecidableEq, Repr

/-- The ten pin latches of ParallelFull. -/
structure PfPins where
  rs : Option Bool
  e : Option Bool
  dp : Option Byte
deriving DecidableEq, Repr

/-- The five pin latches of ShiftRegister, and the external register they drive: shift stages `SRS`
and output latch `SRQ` (R21). -/
structure SrPins where
  rs : Option Bool
  e : Option Bool
  ser : Option Bool
  sck : Option Bool
  rck : Option Bool
  srs : Byte
  srq : Byte
deriving DecidableEq, Repr

/-- The payload of I2CExpander: bus handle and device address, the wiring of the expander's bits
(R22, R62), the backlight bit `s.bl` (R18), and the output port `XP` of the external expander (R22). -/
structure I2cPort where
  dest : I2cDest
  layout : CtlLayout
  bl : Bool
  xp : Byte
deriving DecidableEq, Repr

/-- The active transport: exactly one variant with its own payload (R12). -/
inductive Transport where
  | ph (p : PhPins)
  | pf (p : PfPins)
  | sr (p : SrPins)
  | i2c (p : I2cPort)
deriving DecidableEq, Repr

/-- `VARIANT` of a transport. -/
def Transport.variant : Transport → Variant
  | .ph _ => .ph
  | .pf _ => .pf
  | .sr _ => .sr
  | .i2c _ => .i2c

/-! ### The observer of the controller (R24, R38 to R42) -/

/-- One item of the logical stream, latched by one enable strobe: `(rs, 4, v)` or `(rs, 8, v)` (R38).
`none` is an unknown level (R83). -/
inductive Item where
  | nibble (rs : Option Bool) (v : Option Nibble)
  | byte (rs : Option Bool) (v : Option Byte)
deriving DecidableEq, Repr

/-- One logical byte `(rs, v)` (R41). -/
structure LogicalByte where
  rs : Option Bool
  v : Option Byte
deriving DecidableEq, Repr

/-- Where the observer stands in pairing nibbles into bytes (R24 (b), R41). Before `INIT` the nibble
phase is unknown. While `INIT` runs it stays so (R151), and nothing is concluded from what is sent;
`booting` keeps what R41 needs to read it afterwards: how many of the single nibbles are still to come,
the half waiting for its other half, and the logical bytes heard so far, which act when `INIT` has
completed. From then on the items of a 4-bit transport pair two by two. -/
inductive Pairing where
  | unknown
  | booting (left : Nat) (half : Option (Option Bool × Option Nibble)) (heard : List LogicalByte)
  | paired
  | half (rs : Option Bool) (hi : Option Nibble)
deriving DecidableEq, Repr

/-- What the observer knows of the controller's interface width (R24 (b)): nothing before `INIT` has
completed (R151) and where the controller may read another width than the transport sends (R166);
otherwise that it is the transport's own. -/
inductive Interface where
  | unknown
  | matched
deriving DecidableEq, Repr

/-- `AC_space` (R40). -/
inductive Space where
  | ddram
  | cgram
deriving DecidableEq, Repr

/-- A memory of the controller as far as the observer knows it: address and byte pairs. An address it
does not list is unknown (R40, R42), so there is no value that an entry must differ from. -/
abbrev Memory := List Host.Cell

/-- What the observer model holds (R40). `none` is the spec's "unknown"; a memory lists the bytes it
knows, and an address it does not list is unknown. -/
structure Observer where
  /-- The logical stream so far (R38): history. -/
  items : List Item
  /-- The logical bytes so far (R41): history. -/
  bytes : List LogicalByte
  /-- Nibble phase (R24 (b)). -/
  pairing : Pairing
  /-- Interface width (R24 (b), R151, R166). -/
  iface : Interface
  /-- `AC_space`. -/
  space : Option Space
  /-- `AC`. -/
  ac : Option Nat
  /-- The direction of the last entry-mode instruction received (R40 (c)). -/
  dir : Option EmDir
  /-- Known bytes of DDRAM and CGRAM (R31, R32), in canonical form. -/
  ddram : Memory
  cgram : Memory
deriving DecidableEq, Repr

/-- A byte arriving at a device other than through a running command: an instruction byte at the
controller, a control byte at the expander. -/
inductive DeviceByte where
  | controller (b : Byte)
  | expander (b : Byte)
deriving DecidableEq, Repr

/-! ### The state record -/

/-- The whole state (R10), the external devices, and the model's own input fields (`bus`,
`freeCount`, `hostIn`, `hostWaits`, `shared`, `devIn`, `pending`, `hung`). -/
structure State where
  /-- The parameters of R6, constant. -/
  params : Params
  /-- `VARIANT` with its payload: pins, backlight bit, external latches. -/
  transport : Transport
  /-- `s.phase` (R14). -/
  phase : Phase
  /-- `s.upc` (R15): 0 when no command is running. -/
  upc : Nat
  /-- `s.disp`, `s.cur`, `s.blink` (R16); `none` is "unwritten" (R23, R28). -/
  disp : Option Bool
  cur : Option Bool
  blink : Option Bool
  /-- `s.em_target`, `s.em_dir` (R17); `none` is "unwritten". -/
  emTarget : Option EmTarget
  emDir : Option EmDir
  /-- `s.out` (R20), oldest first. -/
  out : List Event
  /-- The observer of the controller. -/
  obs : Observer
  /-- What is left of the running command's micro-sequence. -/
  pending : List Micro
  /-- The transmit in progress never completes (R136). -/
  hung : Bool
  /-- Input from the platform's I2C engine: `none`, every transmit completes; `some n`, the next n
  complete and the one after them never does (R81, D25). -/
  bus : Option Nat
  /-- How many free values have been taken. -/
  freeCount : Nat
  /-- The host command stream not yet taken (R34, R45). -/
  hostIn : List Byte
  /-- Whether the host keeps its duty to wait for done before it presents the next command (R144 (3));
  if not, what stands in `hostIn` while a command runs is presented (`RF6`). -/
  hostWaits : Bool
  /-- A second agent drives the pins or the bus (R133, R141). -/
  shared : Bool
  /-- Bytes waiting at the devices, replayed before the host's next command. -/
  devIn : List DeviceByte
deriving DecidableEq, Repr

/-! ### Construction -/

/-- The transport at construction: pins unwritten (R23), backlight `BL_RESET`, external latches 0
(notes/assumptions/2). -/
def Transport.construct : Wiring → Transport
  | .ph => .ph ⟨none, none, none⟩
  | .pf => .pf ⟨none, none, none⟩
  | .sr => .sr ⟨none, none, none, none, none, 0, 0⟩
  | .i2c dest blReset layout => .i2c ⟨dest, layout, blReset, 0⟩

/-- The observer at power-on: everything unknown (R40, R151). -/
def Observer.powerOn : Observer :=
  { items := [], bytes := [], pairing := .unknown, iface := .unknown,
    space := none, ac := none, dir := none, ddram := [], cgram := [] }

/-- The state at construction (R23, R26, R150) with parameters `p`, transport `w` and a platform whose
I2C engine behaves as `bus` says. -/
def State.construct (p : Params) (w : Wiring) (bus : Option Nat) : State :=
  { params := p
    transport := Transport.construct w
    phase := .uninitialized
    upc := 0
    disp := none
    cur := none
    blink := none
    emTarget := none
    emDir := none
    out := []
    obs := Observer.powerOn
    pending := []
    hung := false
    bus := bus
    freeCount := 0
    hostIn := []
    hostWaits := true
    shared := false
    devIn := [] }

/-- Reset means construction (R26): default parameters and, where the spec leaves the construction
argument open, the ParallelHalf transport (notes/assumptions/1). -/
def State.reset : State := State.construct Params.default .ph none

end Sys2Proof.Machine
end

