-- ==== Sys2Proof/Machine/Operands.lean ====
section
/-! DEFINITION. The instruction encoder without the two flag-dependent instructions, and the address
arithmetic, 8 bits wide and wrapping (`30_encoding.md` R53 to R63). -/

namespace Sys2Proof.Machine

/-- `enc_clear()` (R54). -/
def encClear (p : Params) : Byte := p.opClear

/-- `enc_home()` (R55). -/
def encHome (p : Params) : Byte := p.opHome

/-- `enc_shift(what, side)` (R58). -/
def encShift (p : Params) (what : ShiftWhat) (side : ShiftSide) : Byte :=
  p.opShift ||| bitIf (decide (what = .display)) p.shSc ||| bitIf (decide (side = .right)) p.shRl

/-- `enc_fset(wide, two, big)` (R59). -/
def encFset (p : Params) (wide two big : Bool) : Byte :=
  p.opFset ||| bitIf wide p.fsDl ||| bitIf two p.fsN ||| bitIf big p.fsF

/-- `FS_FINAL` of a transport (R6, R59). -/
def fsFinal (p : Params) (v : Variant) : Byte := if v.isFour then p.fsFinal4 else p.fsFinal8

/-- `enc_cgram(a)` (R60). -/
def encCgram (p : Params) (a : Byte) : Byte := p.opCgram ||| a

/-- `enc_ddram(a)` (R61). -/
def encDdram (p : Params) (a : Byte) : Byte := p.opDdram ||| a

/-- `((row == 0 ? 0x00 : 0x40) + col) & 0xFF` (R61, R120): the test is `row == 0`. -/
def cursorAddr (p : Params) (row col : Byte) : Byte :=
  (if row = 0 then p.row0Base else p.row1Base) + col

/-- `(slot << 3) & 0xFF` (R60, R121). -/
def glyphAddr (p : Params) (slot : Byte) : Byte := slot <<< p.slotShift

/-- The register-select level of a data byte (`RS_DATA`, R6, R76) or of an instruction byte. -/
def rsLevel (p : Params) (isData : Bool) : Bool := if isData then p.rsData else !p.rsData

end Sys2Proof.Machine
end

