-- ==== Sys2Proof/Machine/Flags.lean ====
section
/-! DEFINITION. The flag computations: the display-control and entry-mode bytes built from the display
flags (`10_state.md` R16) and the entry-mode bits (R17). -/

namespace Sys2Proof.Machine

/-- `enc_dctrl(d, c, b)` (R57). -/
def encDctrl (p : Params) (d c b : Bool) : Byte :=
  p.opDctrl ||| bitIf d p.dcD ||| bitIf c p.dcC ||| bitIf b p.dcB

/-- `enc_entry(target, dir)` (R56). -/
def encEntry (p : Params) (target : EmTarget) (dir : EmDir) : Byte :=
  p.opEntry ||| bitIf (decide (dir = .inc)) p.emId ||| bitIf (decide (target = .display)) p.emS

/-- `DC()` of `42_display_commands.md` section 2, where all three flags are written; a read of an
unwritten flag has no value (R28). -/
def State.dctrlByte (s : State) : Option Byte :=
  match s.disp, s.cur, s.blink with
  | some d, some c, some b => some (encDctrl s.params d c b)
  | _, _, _ => none

end Sys2Proof.Machine
end

