-- ==== Sys2Proof/Machine/Memory.lean ====
section
/-! DEFINITION. Reading and writing one byte of a controller memory as the observer knows it
(`MemWrite` of `00_scope.md` R8, used only by `20_memory.md` R40), and its canonical form. -/

namespace Sys2Proof.Machine

/-- The byte known at an address; `none` where none is known. -/
def Memory.read : Memory → Nat → Option Byte
  | [], _ => none
  | (k, w) :: m, a => if k = a then some w else Memory.read m a

/-- `MemWrite(space, a, 1, v)`, keeping addresses strictly rising. -/
def Memory.write : Memory → Nat → Byte → Memory
  | [], a, v => [(a, v)]
  | (k, w) :: m, a, v =>
    if a < k then (a, v) :: (k, w) :: m
    else if a = k then (a, v) :: m
    else (k, w) :: Memory.write m a v

/-- The canonical form: addresses strictly rising. -/
abbrev Memory.wf (m : Memory) : Prop := m.Pairwise fun x y => x.1 < y.1

end Sys2Proof.Machine
end

