-- ==== Sys2Proof/Machine/Observer.lean ====
section
/-! DEFINITION. The observer model of the controller (`20_memory.md` R38 to R42): pairing items into
logical bytes, and what each logical byte does to the address counter, the entry direction and the
two memories. Where the spec does not say what the controller does, the observer forgets. -/

namespace Sys2Proof.Machine

/-! ### Addresses -/

/-- DDRAM addresses the spec gives a place: the allocated columns of the two rows (R31). -/
def ddramValid (p : Params) (a : Nat) : Bool :=
  (decide (p.row0Base.toNat ≤ a) && decide (a < p.row0Base.toNat + p.colsAlloc))
    || (decide (p.row1Base.toNat ≤ a) && decide (a < p.row1Base.toNat + p.colsAlloc))

/-- CGRAM addresses (R32). -/
def cgramValid (p : Params) (a : Nat) : Bool := decide (a < p.cgSlots * p.cgBytes)

/-- Whether the counter may hold an address of a space (R40 (d), U5). -/
def addrValid (p : Params) : Space → Nat → Bool
  | .ddram, a => ddramValid p a
  | .cgram, a => cgramValid p a

/-- The counter at an address, unknown where the spec gives the address no place. -/
def counterAt (p : Params) (sp : Space) (a : Nat) : Option Nat :=
  if addrValid p sp a then some a else none

/-- The counter after a data byte (R40 (c), (d)). -/
def counterAfter (p : Params) (sp : Space) (dir : Option EmDir) (a : Nat) : Option Nat :=
  match dir with
  | some .inc => counterAt p sp (a + 1)
  | some .dec => if a = 0 then none else counterAt p sp (a - 1)
  | none => none

/-! ### Forgetting -/

/-- Nothing is known of counter, direction and memories. -/
def Observer.forget (o : Observer) : Observer :=
  { o with space := none, ac := none, dir := none, ddram := [], cgram := [] }

/-- An effect the spec calls "any value" (U6), or an instruction the controller may have read in
another interface width (R166): nothing is known from here on, the width neither. -/
def Observer.lose (o : Observer) : Observer := { o.forget with iface := .unknown }

/-! ### Instructions, as the controller receives them -/

/-- Clear: what it does inside the controller is not in the source (R101); the counter is unknown
(R40 (e)) unless G9 is adopted. -/
def Observer.onClear (p : Params) (o : Observer) : Observer :=
  if p.clearHomes then { o.forget with space := some .ddram, ac := counterAt p .ddram 0 } else o.forget

/-- Home: the same remarks (R102, R40 (e)). -/
def Observer.onHome (p : Params) (o : Observer) : Observer :=
  if p.clearHomes then { o.forget with space := some .ddram, ac := counterAt p .ddram 0 } else o.forget

/-- Entry mode: the direction in which the address moves (R40 (c), R56). -/
def Observer.onEntry (incBit : Bool) (o : Observer) : Observer :=
  { o with dir := some (if incBit then .inc else .dec) }

/-- Display control: nothing the observer holds (R42). -/
def Observer.onDctrl (o : Observer) : Observer := o

/-- Shift: a display shift moves the window, which the observer does not hold (R42); where a cursor
move takes the counter is not in the source (R119), so it is unknown. -/
def Observer.onShift (dispBit : Bool) (o : Observer) : Observer :=
  if dispBit then o else { o with ac := none }

/-- Function set: harmless when it names the transport's own width, two lines and the small font;
otherwise the controller's reading is not known (R166, U6). -/
def Observer.onFset (v : Variant) (l n f : Bool) (o : Observer) : Observer :=
  if l = v.isFour then o.lose else if n && !f then o else o.forget

/-- Set CGRAM address (R40 (b)). -/
def Observer.onSetcg (p : Params) (a : BitVec 6) (o : Observer) : Observer :=
  { o with space := some .cgram, ac := counterAt p .cgram a.toNat }

/-- Set DDRAM address (R40 (a)). -/
def Observer.onSetdd (p : Params) (a : BitVec 7) (o : Observer) : Observer :=
  { o with space := some .ddram, ac := counterAt p .ddram a.toNat }

/-- A decoded instruction byte. The last arm is reached by no byte: `decodeLcdiFor` answers only the
eight classes. -/
def Observer.onInstr (p : Params) (v : Variant) (o : Observer) : Instr → Observer
  | .lcdClear => o.onClear p
  | .lcdHome => o.onHome p
  | .lcdEntry incBit _ => o.onEntry incBit
  | .lcdDctrl _ _ _ => o.onDctrl
  | .lcdShift dispBit _ => o.onShift dispBit
  | .lcdFset l n f => o.onFset v l n f
  | .lcdSetcg a => o.onSetcg p a
  | .lcdSetdd a => o.onSetdd p a
  | _ => o.lose

/-! ### Data -/

/-- Write the byte where the counter points (R40 (c)); where that is unknown, every byte the write
may have hit is unknown afterwards. -/
def Observer.store (v : Byte) (o : Observer) : Observer :=
  match o.space, o.ac with
  | some .ddram, some a => { o with ddram := o.ddram.write a v }
  | some .cgram, some a => { o with cgram := o.cgram.write a v }
  | some .ddram, none => { o with ddram := [] }
  | some .cgram, none => { o with cgram := [] }
  | none, _ => { o with ddram := [], cgram := [] }

/-- Move the counter as the entry mode says (R40 (c), (d)); the space does not change. -/
def Observer.advance (p : Params) (o : Observer) : Observer :=
  match o.space, o.ac with
  | some sp, some a => { o with ac := counterAfter p sp o.dir a }
  | _, _ => { o with ac := none }

/-- A data byte: the write, then the move. -/
def Observer.onData (p : Params) (v : Byte) (o : Observer) : Observer := (o.store v).advance p

/-! ### Items and logical bytes -/

/-- What a logical byte does to the controller (R40). A byte whose register-select or value is unknown
may have been any instruction. -/
def Observer.obey (p : Params) (v : Variant) (b : LogicalByte) (o : Observer) : Observer :=
  match b.rs, b.v with
  | some level, some w =>
    if level = p.rsData then o.onData p w
    else
      match decodeLcdiFor p w with
      | some i => o.onInstr p v i
      | none => o.lose
  | _, _ => o.lose

/-- While the interface width is unknown so is the effect of every byte (R151, R166). -/
def Observer.heed (act : Observer → Observer) (o : Observer) : Observer :=
  if o.iface = .unknown then o.forget else act o

/-- Hear a logical byte (R41): it is recorded, and acts, while `INIT` runs not before its end. -/
def Observer.hear (b : LogicalByte) (act : Observer → Observer) (o : Observer) : Observer :=
  match o.pairing with
  | .booting left half heard =>
    { o with bytes := o.bytes ++ [b], pairing := .booting left half (heard ++ [b]) }
  | .unknown => Observer.heed act { o with bytes := o.bytes ++ [b] }
  | .paired => Observer.heed act { o with bytes := o.bytes ++ [b] }
  | .half _ _ => Observer.heed act { o with bytes := o.bytes ++ [b] }

/-- A logical byte from the wire. -/
def Observer.onByte (p : Params) (v : Variant) (b : LogicalByte) (o : Observer) : Observer :=
  o.hear b (Observer.obey p v b)

/-- The register-select of a byte of two halves: known when both agree. -/
def pairRs (hi lo : Option Bool) : Option Bool := if hi = lo then hi else none

/-- The value of a byte of two halves, `(hi << 4) | lo` (R41). -/
def pairValue : Option Nibble → Option Nibble → Option Byte
  | some hi, some lo => some (joinNibbles hi lo)
  | _, _ => none

/-- Take one item of the logical stream (R41): a byte item is one logical byte; a nibble is one of the
single nibbles of `INIT`, a high half, or the low half that completes a byte. Before `INIT` the nibble
phase is unknown (R151). -/
def Observer.takeItem (p : Params) (v : Variant) (o : Observer) : Item → Observer
  | .byte rs w => Observer.onByte p v ⟨rs, w⟩ o
  | .nibble rs n =>
    match o.pairing with
    | .unknown => o.forget
    | .booting (left + 1) half heard => { o with pairing := .booting left half heard }
    | .booting 0 none heard => { o with pairing := .booting 0 (some (rs, n)) heard }
    | .booting 0 (some hi) heard =>
      Observer.onByte p v ⟨pairRs hi.1 rs, pairValue hi.2 n⟩ { o with pairing := .booting 0 none heard }
    | .paired => { o with pairing := .half rs n }
    | .half hiRs hi =>
      Observer.onByte p v ⟨pairRs hiRs rs, pairValue hi n⟩ { o with pairing := .paired }

/-- Record one item and take it. -/
def Observer.onItem (p : Params) (v : Variant) (o : Observer) (it : Item) : Observer :=
  Observer.takeItem p v { o with items := o.items ++ [it] } it

/-- Items in order. -/
def Observer.onItems (p : Params) (v : Variant) (o : Observer) (its : List Item) : Observer :=
  its.foldl (Observer.onItem p v) o

/-- The start of `INIT`: nothing is known of the controller (R151), and on a 4-bit transport four
single nibbles come before the pairs (R41, R125). -/
def Observer.startInit (v : Variant) (o : Observer) : Observer :=
  { o.forget with iface := .unknown, pairing := .booting (if v.isFour then 4 else 0) none [] }

/-- Where the pairing stands once the half that may be waiting is known to be one. -/
def pairingOf : Option (Option Bool × Option Nibble) → Pairing
  | none => .paired
  | some (rs, hi) => .half rs hi

/-- The end of `INIT`: from here on the controller reads the width the transport sends (R41, R151), and
what it heard meanwhile acts, byte by byte. -/
def Observer.endInit (p : Params) (v : Variant) (o : Observer) : Observer :=
  match o.pairing with
  | .booting 0 half heard =>
    heard.foldl (fun o b => o.heed (Observer.obey p v b))
      { o with iface := .matched, pairing := pairingOf half }
  | .booting (_ + 1) _ _ => { o with pairing := .unknown }
  | .unknown => o
  | .paired => o
  | .half _ _ => o

/-- What a write of the phase means to the observer: before `INIT` nothing is known (R151). -/
def Observer.onPhase (p : Params) (v : Variant) (o : Observer) : Phase → Observer
  | .uninitialized => { o.forget with iface := .unknown, pairing := .unknown }
  | .initializing => o.startInit v
  | .ready => o.endInit p v

end Sys2Proof.Machine
end

