-- ==== Sys2Proof/Machine/Ops.lean ====
section
/-! DEFINITION. The shared operations: what one event does to the pins, the external latches and the
observer; running a micro-sequence; the gate every host command passes. There is no operation that
takes or returns from an exception: "The adapter raises no synchronous exception of any kind" (R130)
and no interrupt (R131); its stuck state is what `State.transmit` leaves when the transmit never
completes (R136), and nothing returns from it (R137). -/

namespace Sys2Proof.Machine

/-! ### Events at the pins and external latches -/

/-- One byte at the expander: it replaces `XP` (R22), and where its enable bit goes from 1 to 0 the
controller latches the nibble of the byte that had it 1 (R38). -/
def I2cPort.take (port : I2cPort) (b : Byte) : I2cPort × List Item :=
  ({ port with xp := b },
    if port.xp.getLsbD port.layout.enBit && !b.getLsbD port.layout.enBit then
      [.nibble (some (port.xp.getLsbD port.layout.rsBit)) (some (port.layout.nibbleOf port.xp))]
    else [])

/-- Bytes at the expander, in order (R22). -/
def I2cPort.takeAll : I2cPort → List Byte → I2cPort × List Item
  | port, [] => (port, [])
  | port, b :: bs =>
    let r := port.take b
    let q := r.1.takeAll bs
    (q.1, r.2 ++ q.2)

/-- The bytes of a transmit at the active transport; the other variants have no expander. -/
def Transport.takeBytes (t : Transport) (bs : List Byte) : Transport × List Item :=
  match t with
  | .i2c port => let r := port.takeAll bs; (.i2c r.1, r.2)
  | .ph p => (.ph p, [])
  | .pf p => (.pf p, [])
  | .sr p => (.sr p, [])

/-- Whether writing the enable pin latches: `E=0` that follows an `E=1` (R38). -/
def fallsFrom (before : Option Bool) (l : Bool) : Bool := decide (before = some true) && !l

/-- The clock pulse of R21: `SCK=1` that follows `SCK=0` or the unwritten state shifts `SER` in. -/
def SrPins.clock (p : SrPins) (l : Bool) : SrPins :=
  if l && !decide (p.sck = some true) then
    { p with sck := some l, srs := (p.srs <<< 1) ||| bitIf (p.ser.getD Config.freeLevel) 1 }
  else { p with sck := some l }

/-- The latch pulse of R21: `RCK=1` copies the shift stages to the outputs. -/
def SrPins.latch (p : SrPins) (l : Bool) : SrPins :=
  if l then { p with rck := some l, srq := p.srs } else { p with rck := some l }

/-- One event at the pins (R13, R20, R21, R22), with the items the controller latches (R38). An event
of another variant's pins does not exist here and changes nothing. -/
def Transport.take (t : Transport) (ev : Event) : Transport × List Item :=
  match ev with
  | .rs l =>
    match t with
    | .ph p => (.ph { p with rs := some l }, [])
    | .pf p => (.pf { p with rs := some l }, [])
    | .sr p => (.sr { p with rs := some l }, [])
    | .i2c port => (.i2c port, [])
  | .e l =>
    match t with
    | .ph p => (.ph { p with e := some l }, if fallsFrom p.e l then [.nibble p.rs p.dp] else [])
    | .pf p => (.pf { p with e := some l }, if fallsFrom p.e l then [.byte p.rs p.dp] else [])
    | .sr p => (.sr { p with e := some l }, if fallsFrom p.e l then [.byte p.rs (some p.srq)] else [])
    | .i2c port => (.i2c port, [])
  | .d4 n =>
    match t with
    | .ph p => (.ph { p with dp := some n }, [])
    | .pf p => (.pf p, [])
    | .sr p => (.sr p, [])
    | .i2c port => (.i2c port, [])
  | .d8 b =>
    match t with
    | .pf p => (.pf { p with dp := some b }, [])
    | .ph p => (.ph p, [])
    | .sr p => (.sr p, [])
    | .i2c port => (.i2c port, [])
  | .ser l =>
    match t with
    | .sr p => (.sr { p with ser := some l }, [])
    | .ph p => (.ph p, [])
    | .pf p => (.pf p, [])
    | .i2c port => (.i2c port, [])
  | .sck l =>
    match t with
    | .sr p => (.sr (p.clock l), [])
    | .ph p => (.ph p, [])
    | .pf p => (.pf p, [])
    | .i2c port => (.i2c port, [])
  | .rck l =>
    match t with
    | .sr p => (.sr (p.latch l), [])
    | .ph p => (.ph p, [])
    | .pf p => (.pf p, [])
    | .i2c port => (.i2c port, [])
  | .dly _ => (t, [])
  | .i2c _ b0 b1 b2 => t.takeBytes [b0, b1, b2]

/-! ### Events in the state -/

/-- The devices after the transport has moved to `r.1` and the controller latched `r.2`. -/
def State.latch (s : State) (r : Transport × List Item) : State :=
  { s with transport := r.1, obs := s.obs.onItems s.params s.transport.variant r.2 }

/-- `emit(ev)` (R8): append to the trace; one step of the sequencer adds 1 to `s.upc` (R15). -/
def State.record (s : State) (ev : Event) : State :=
  { s with out := s.out ++ [ev], upc := s.upc + 1 }

/-- The bytes of a transmit that never completed: how many reached the expander is unknown (R136,
U19). -/
def bytesReached (n : Nat) (bs : List Byte) : List Byte := bs.take (Config.freeBytesReached n % 4)

/-- `I2CTransmit` (R81): the platform's engine completes it, or it never does (R136). -/
def State.transmit (s : State) (ev : Event) (bs : List Byte) : State :=
  match s.bus with
  | none => (s.latch (s.transport.takeBytes bs)).record ev
  | some (k + 1) => ({ s with bus := some k }.latch (s.transport.takeBytes bs)).record ev
  | some 0 =>
    ({ s with hung := true, freeCount := s.freeCount + 1 }.latch
      (s.transport.takeBytes (bytesReached s.freeCount bs))).record ev

/-- One event: trace, pins, latches, observer. -/
def State.emit (s : State) (ev : Event) : State :=
  match ev with
  | .i2c _ b0 b1 b2 => s.transmit ev [b0, b1, b2]
  | .rs _ | .e _ | .d4 _ | .d8 _ | .ser _ | .sck _ | .rck _ | .dly _ =>
    (s.latch (s.transport.take ev)).record ev

/-! ### Micro-sequences (R15) -/

/-- One element of a micro-sequence. -/
def State.micro (s : State) : Micro → State
  | .event ev => s.emit ev
  | .setPhase p =>
    { s with phase := p, obs := s.obs.onPhase s.params s.transport.variant p }
  | .setFlags d c b => { s with disp := some d, cur := some c, blink := some b }
  | .setDisp d => { s with disp := some d }
  | .setEntry t d => { s with emTarget := some t, emDir := some d }

def Micro.isEvent : Micro → Bool
  | .event _ => true
  | .setPhase _ | .setFlags _ _ _ | .setDisp _ | .setEntry _ _ => false

/-- "after the last event of the command `s.upc <- 0`" (R15). -/
def State.finish (s : State) : State := { s with upc := 0, pending := [] }

/-- A micro-sequence from start to end, or up to a transmit that never completes; what is left then
stays in `pending`, and is never run. -/
def State.play (s : State) : List Micro → State
  | [] => s
  | m :: ms => if (s.micro m).hung then { s.micro m with pending := ms } else (s.micro m).play ms

/-- A whole command as one step (R15, last sentence). -/
def State.run (s : State) (ms : List Micro) : State :=
  if (s.play ms).hung then s.play ms else (s.play ms).finish

/-- One step of the sequencer: the writes before the next event, that event, and after the last event
the writes that follow it (R15). -/
def State.tickFrom (s : State) : List Micro → State
  | [] => s.finish
  | m :: ms =>
    if (s.micro m).hung then { s.micro m with pending := ms }
    else if m.isEvent then
      if ms.any Micro.isEvent then { s.micro m with pending := ms } else ((s.micro m).play ms).finish
    else (s.micro m).tickFrom ms

/-- One step of the running command. A hung transmit never moves on (R137). -/
def State.tick (s : State) : State := if s.hung then s else s.tickFrom s.pending

/-! ### The gate of host commands (R133 to R135) -/

/-- What a host command requires, by its kind (R134). -/
inductive Gate where
  /-- A transport primitive: every phase, its own variant (R83). -/
  | primitive (v : Variant)
  /-- Layers B and C but `INIT`: phase Ready. -/
  | ready
  /-- `INIT`: phase Uninitialized. -/
  | construction
deriving DecidableEq, Repr

/-- The refusal of a decoded host command, in the order `RF6`, `RF3` or `RF4`, `RF2` (R135). -/
def State.refusal (s : State) (g : Gate) : Option Refusal :=
  if s.upc ≠ 0 then some .busy
  else
    match g with
    | .primitive v => if s.transport.variant = v then none else some .wrongVariant
    | .ready => if s.phase = .ready then none else some .notReady
    | .construction => if s.phase = .uninitialized then none else some .alreadyInitialised

/-- A host command: refused with nothing changed (R132), or done by `go`. -/
def hostCommand (g : Gate) (s : State) (go : Host.Outcome State Fault Refusal) :
    Host.Outcome State Fault Refusal :=
  match s.refusal g with
  | some r => .refused r
  | none => go

/-! ### Transport micro-operations (`40_transport_primitives.md`) -/

/-- `Delay(n)` (R80): `Delay(0)` emits nothing. -/
def delay (n : Nat) : List Micro := if n = 0 then [] else [.event (.dly n)]

/-- `SetRS(r)` (R76). -/
def setRs (p : Params) (isData : Bool) : List Micro := [.event (.rs (rsLevel p isData))]

/-- `EnablePulse()` (R77). -/
def enablePulse (p : Params) : List Micro :=
  delay p.tPre ++ [.event (.e true)] ++ delay p.tHigh ++ [.event (.e false)] ++ delay p.tPost

/-- One bit of `ShiftOut`: the data pin, then a clock pulse (R78). -/
def shiftBit (l : Bool) : List Micro := [.event (.ser l), .event (.sck true), .event (.sck false)]

/-- `ShiftOut(b)` (R78): bit 7 first. -/
def shiftOut (b : Byte) : List Micro :=
  shiftBit (b.getLsbD 7) ++ shiftBit (b.getLsbD 6) ++ shiftBit (b.getLsbD 5) ++ shiftBit (b.getLsbD 4)
    ++ shiftBit (b.getLsbD 3) ++ shiftBit (b.getLsbD 2) ++ shiftBit (b.getLsbD 1)
    ++ shiftBit (b.getLsbD 0)

/-- `LatchPulse()` (R79). -/
def latchPulse : List Micro := [.event (.rck true), .event (.rck false)]

/-- The events of `SNIB` (R84). -/
def snibSeq (p : Params) (n : Nibble) : List Micro := [.event (.d4 n)] ++ enablePulse p

/-- The events of `SBYTE` (R85). -/
def sbyteSeq (p : Params) (b : Byte) : List Micro := [.event (.d8 b)] ++ enablePulse p

/-- The events of `SSHB` (R86). -/
def sshbSeq (p : Params) (b : Byte) : List Micro := shiftOut b ++ latchPulse ++ enablePulse p

/-- The event of `SI2CN` (R87): the control byte with enable low, high, low. -/
def si2cnSeq (p : Params) (port : I2cPort) (isData : Bool) (n : Nibble) : List Micro :=
  [.event (.i2c port.dest (port.layout.byte n (rsLevel p isData) port.bl false)
    (port.layout.byte n (rsLevel p isData) port.bl true)
    (port.layout.byte n (rsLevel p isData) port.bl false))]

/-- `SendByteVia(r, b)` (R82), by `VARIANT`. -/
def sendByteVia (p : Params) (t : Transport) (isData : Bool) (b : Byte) : List Micro :=
  match t with
  | .ph _ => setRs p isData ++ snibSeq p (hiNibble b) ++ snibSeq p (loNibble b)
  | .pf _ => setRs p isData ++ sbyteSeq p b
  | .sr _ => setRs p isData ++ sshbSeq p b
  | .i2c port => si2cnSeq p port isData (hiNibble b) ++ si2cnSeq p port isData (loNibble b)

/-- `SendNibbleVia(r, n)` (R88): "Not defined on PF and SR", where no rule calls it. -/
def sendNibbleVia (p : Params) (t : Transport) (isData : Bool) (n : Nibble) : List Micro :=
  match t with
  | .ph _ => setRs p isData ++ snibSeq p n
  | .i2c port => si2cnSeq p port isData n
  | .pf _ => []
  | .sr _ => []

/-- The steps of `WINSTR b` (R95), as `call WINSTR(b)` runs them. -/
def winstrSeq (p : Params) (t : Transport) (b : Byte) : List Micro :=
  sendByteVia p t false b ++ delay p.tSettle

/-- The steps of `WDATA b` (R96). -/
def wdataSeq (p : Params) (t : Transport) (b : Byte) : List Micro :=
  sendByteVia p t true b ++ delay p.tDataSettle

/-- The steps of `WBUF` (R97): one `WDATA` a byte, in buffer order. -/
def wbufSeq (p : Params) (t : Transport) (data : List Byte) : List Micro :=
  data.flatMap (wdataSeq p t)

/-! ### Sending from a command -/

/-- Run a micro-sequence as the rest of the command. -/
def State.perform (s : State) (ms : List Micro) : Host.Outcome State Fault Refusal := .next (s.run ms)

/-- `call WINSTR(b)` as the rest of the command. -/
def State.sendInstr (s : State) (b : Byte) : Host.Outcome State Fault Refusal :=
  s.perform (winstrSeq s.params s.transport b)

/-- `call WINSTR(DC())`: the flags are read after their update (R100, R103 to R111). -/
def State.sendDctrl (s : State) : Host.Outcome State Fault Refusal :=
  match s.dctrlByte with
  | some b => s.sendInstr b
  | none => .fault .readUnwritten

/-- Write both entry-mode bits and send them (R112 to R115). -/
def State.sendEntry (s : State) (t : EmTarget) (d : EmDir) : Host.Outcome State Fault Refusal :=
  { s with emTarget := some t, emDir := some d }.sendInstr (encEntry s.params t d)

/-- Write the backlight bit; the variants without one are unchanged (R126 to R129). -/
def Transport.setBacklight (f : Bool → Bool) : Transport → Transport
  | .i2c port => .i2c { port with bl := f port.bl }
  | .ph p => .ph p
  | .pf p => .pf p
  | .sr p => .sr p

/-- The device side of an instruction byte: the controller receives it with register-select =
instruction, and the observer hears it as it hears a byte of the wire. -/
def State.receive (s : State) (b : Byte) (act : Observer → Observer) : State :=
  { s with obs := s.obs.hear ⟨some (rsLevel s.params false), some b⟩ act }

end Sys2Proof.Machine
end

