-- ==== Sys2Proof/Machine/ByteCommands.lean ====
section
/-! DEFINITION. The byte commands of layer B (`41_byte_commands.md` R95 to R97, R99): the adapter's
only stores. -/

namespace Sys2Proof.Machine

/-- `WINSTR b` (R95): b is not inspected. -/
def execWinstr (b : Byte) (s : State) : Host.Outcome State Fault Refusal :=
  hostCommand .ready s (s.sendInstr b)

/-- `WDATA b` (R96). -/
def execWdata (b : Byte) (s : State) : Host.Outcome State Fault Refusal :=
  hostCommand .ready s (s.perform (wdataSeq s.params s.transport b))

/-- `WBUF n, b0, ..., b(n-1)` (R97). -/
def execWbuf (data : List Byte) (s : State) : Host.Outcome State Fault Refusal :=
  hostCommand .ready s (s.perform (wbufSeq s.params s.transport data))

end Sys2Proof.Machine
end

