-- ==== Sys2Proof/Machine/Display.lean ====
section
/-! DEFINITION. Clear, home, shifts and the addressing commands (`42_display_commands.md` R101, R102,
R116 to R121). None writes a field of the adapter but pins and trace. -/

namespace Sys2Proof.Machine

/-- `CLEAR` (R101). -/
def execClear (s : State) : Host.Outcome State Fault Refusal :=
  hostCommand .ready s (s.sendInstr (encClear s.params))

/-- `HOME` (R102). -/
def execHome (s : State) : Host.Outcome State Fault Refusal :=
  hostCommand .ready s (s.sendInstr (encHome s.params))

/-- `CURL` (R116). -/
def execCurl (s : State) : Host.Outcome State Fault Refusal :=
  hostCommand .ready s (s.sendInstr (encShift s.params .cursor .left))

/-- `CURR` (R117). -/
def execCurr (s : State) : Host.Outcome State Fault Refusal :=
  hostCommand .ready s (s.sendInstr (encShift s.params .cursor .right))

/-- `SCRL` (R118). -/
def execScrl (s : State) : Host.Outcome State Fault Refusal :=
  hostCommand .ready s (s.sendInstr (encShift s.params .display .left))

/-- `SCRR` (R119). -/
def execScrr (s : State) : Host.Outcome State Fault Refusal :=
  hostCommand .ready s (s.sendInstr (encShift s.params .display .right))

/-- `SETCUR row, col` (R120). -/
def execSetcur (row col : Byte) (s : State) : Host.Outcome State Fault Refusal :=
  hostCommand .ready s (s.sendInstr (encDdram s.params (cursorAddr s.params row col)))

/-- `MKCHAR slot, g0, ..., g7` (R121): the set-CGRAM-address instruction, then exactly eight data
bytes, and no set-DDRAM-address afterwards. -/
def execMkchar (slot g0 g1 g2 g3 g4 g5 g6 g7 : Byte) (s : State) :
    Host.Outcome State Fault Refusal :=
  hostCommand .ready s
    (s.perform (winstrSeq s.params s.transport (encCgram s.params (glyphAddr s.params slot))
      ++ wbufSeq s.params s.transport [g0, g1, g2, g3, g4, g5, g6, g7]))

end Sys2Proof.Machine
end

