-- ==== Sys2Proof/Machine/DisplayFlags.lean ====
section
/-! DEFINITION. The nine display-flag commands (`42_display_commands.md` R103 to R111): update one
flag, then re-send the whole display-control instruction. -/

namespace Sys2Proof.Machine

/-- `DISPON` (R103). -/
def execDispon (s : State) : Host.Outcome State Fault Refusal :=
  hostCommand .ready s { s with disp := some true }.sendDctrl

/-- `DISPOFF` (R104). -/
def execDispoff (s : State) : Host.Outcome State Fault Refusal :=
  hostCommand .ready s { s with disp := some false }.sendDctrl

/-- `DISPTGL` (R105). -/
def execDisptgl (s : State) : Host.Outcome State Fault Refusal :=
  hostCommand .ready s { s with disp := s.disp.map not }.sendDctrl

/-- `CURON` (R106). -/
def execCuron (s : State) : Host.Outcome State Fault Refusal :=
  hostCommand .ready s { s with cur := some true }.sendDctrl

/-- `CUROFF` (R107). -/
def execCuroff (s : State) : Host.Outcome State Fault Refusal :=
  hostCommand .ready s { s with cur := some false }.sendDctrl

/-- `CURTGL` (R108). -/
def execCurtgl (s : State) : Host.Outcome State Fault Refusal :=
  hostCommand .ready s { s with cur := s.cur.map not }.sendDctrl

/-- `BLNKON` (R109). -/
def execBlnkon (s : State) : Host.Outcome State Fault Refusal :=
  hostCommand .ready s { s with blink := some true }.sendDctrl

/-- `BLNKOFF` (R110). -/
def execBlnkoff (s : State) : Host.Outcome State Fault Refusal :=
  hostCommand .ready s { s with blink := some false }.sendDctrl

/-- `BLNKTGL` (R111). -/
def execBlnktgl (s : State) : Host.Outcome State Fault Refusal :=
  hostCommand .ready s { s with blink := s.blink.map not }.sendDctrl

end Sys2Proof.Machine
end

