-- ==== Sys2Proof/Machine/Emitted.lean ====
section
/-! DEFINITION. The emitted instruction bytes and the I2C control byte, as the devices receive them:
the observer's side of each `LCDI` row (`20_memory.md` R40) and the expander's side of the `I2CB` row
(`10_state.md` R22, `20_memory.md` R38). They change no field of the adapter's own. -/

namespace Sys2Proof.Machine

/-- `LCD.CLEAR` (R54, R40 (e)). -/
def execLcdClear (s : State) : Host.Outcome State Fault Refusal :=
  .next (s.receive (encClear s.params) (Observer.onClear s.params))

/-- `LCD.HOME` (R55, R40 (e)). -/
def execLcdHome (s : State) : Host.Outcome State Fault Refusal :=
  .next (s.receive (encHome s.params) (Observer.onHome s.params))

/-- `LCD.ENTRY` (R56, R40 (c)). -/
def execLcdEntry (incBit dispBit : Bool) (s : State) : Host.Outcome State Fault Refusal :=
  .next (s.receive (s.params.opEntry ||| bitIf incBit s.params.emId ||| bitIf dispBit s.params.emS)
    (Observer.onEntry incBit))

/-- `LCD.DCTRL` (R57, R42). -/
def execLcdDctrl (d c b : Bool) (s : State) : Host.Outcome State Fault Refusal :=
  .next (s.receive (encDctrl s.params d c b)
    Observer.onDctrl)

/-- `LCD.SHIFT` (R58, R119). -/
def execLcdShift (dispBit rightBit : Bool) (s : State) : Host.Outcome State Fault Refusal :=
  .next (s.receive (s.params.opShift ||| bitIf dispBit s.params.shSc ||| bitIf rightBit s.params.shRl)
    (Observer.onShift dispBit))

/-- `LCD.FSET` (R59, R166). -/
def execLcdFset (l n f : Bool) (s : State) : Host.Outcome State Fault Refusal :=
  .next (s.receive (encFset s.params l n f)
    (Observer.onFset s.transport.variant l n f))

/-- `LCD.SETCG` (R60, R40 (b)). -/
def execLcdSetcg (a : BitVec 6) (s : State) : Host.Outcome State Fault Refusal :=
  .next (s.receive (encCgram s.params (a.setWidth 8)) (Observer.onSetcg s.params a))

/-- `LCD.SETDD` (R61, R40 (a)). -/
def execLcdSetdd (a : BitVec 7) (s : State) : Host.Outcome State Fault Refusal :=
  .next (s.receive (encDdram s.params (a.setWidth 8)) (Observer.onSetdd s.params a))

/-- `I2C.CTRL` (R62): the byte replaces `XP` (R22), and a fall of its enable bit latches a nibble
(R38). Only the I2C variant has an expander. -/
def execI2cCtrl (n : Nibble) (bl en rs : Bool) (s : State) : Host.Outcome State Fault Refusal :=
  match s.transport with
  | .i2c port => .next (s.latch (s.transport.takeBytes [port.layout.byte n rs bl en]))
  | .ph _ => .refused .noExpander
  | .pf _ => .refused .noExpander
  | .sr _ => .refused .noExpander

end Sys2Proof.Machine
end

