-- ==== Sys2Proof/Machine/EntryMode.lean ====
section
/-! DEFINITION. The four entry-mode commands (`42_display_commands.md` R112 to R115). The two display
commands keep the source's observed assignment, opposite to their names (`90_conflicts.md` C7). -/

namespace Sys2Proof.Machine

/-- `CURINC` (R112). -/
def execCurinc (s : State) : Host.Outcome State Fault Refusal :=
  hostCommand .ready s (s.sendEntry .cursor .inc)

/-- `CURDEC` (R113). -/
def execCurdec (s : State) : Host.Outcome State Fault Refusal :=
  hostCommand .ready s (s.sendEntry .cursor .dec)

/-- `DSPINC` (R114): sends the decrement value. -/
def execDspinc (s : State) : Host.Outcome State Fault Refusal :=
  hostCommand .ready s (s.sendEntry .display .dec)

/-- `DSPDEC` (R115): sends the increment value. -/
def execDspdec (s : State) : Host.Outcome State Fault Refusal :=
  hostCommand .ready s (s.sendEntry .display .inc)

end Sys2Proof.Machine
end

