-- ==== Sys2Proof/Machine/Primitives.lean ====
section
/-! DEFINITION. The four transport primitives as host commands (`40_transport_primitives.md` R83 to
R87). Each belongs to one variant, is accepted in every phase, and is followed by no settle delay. -/

namespace Sys2Proof.Machine

/-- `SNIB n` (R84). -/
def execSnib (n : Nibble) (s : State) : Host.Outcome State Fault Refusal :=
  hostCommand (.primitive .ph) s (s.perform (snibSeq s.params n))

/-- `SBYTE b` (R85). -/
def execSbyte (b : Byte) (s : State) : Host.Outcome State Fault Refusal :=
  hostCommand (.primitive .pf) s (s.perform (sbyteSeq s.params b))

/-- `SSHB b` (R86). -/
def execSshb (b : Byte) (s : State) : Host.Outcome State Fault Refusal :=
  hostCommand (.primitive .sr) s (s.perform (sshbSeq s.params b))

/-- `SI2CN d, n` (R87); the expander variant alone holds the port the frame is built for. -/
def execSi2cn (d : Bool) (n : Nibble) (s : State) : Host.Outcome State Fault Refusal :=
  hostCommand (.primitive .i2c) s
    (match s.transport with
     | .i2c port => s.perform (si2cnSeq s.params port d n)
     | .ph _ => .refused .wrongVariant
     | .pf _ => .refused .wrongVariant
     | .sr _ => .refused .wrongVariant)

end Sys2Proof.Machine
end

