-- ==== Sys2Proof/Machine/System.lean ====
section
/-! DEFINITION. Initialisation and the backlight commands (`43_system_commands.md` R125 to R129). -/

namespace Sys2Proof.Machine

/-- One "function-set 8-bit" of lines 3 to 5 of R125: a lone nibble on the 4-bit transports, a byte on
the others, and its own delay instead of the settle delay. -/
def initFs8 (p : Params) (t : Transport) (wait : Nat) : List Micro :=
  (if t.variant.isFour then sendNibbleVia p t false (hiNibble (p.fs8))
   else sendByteVia p t false (p.fs8))
    ++ delay wait

/-- Line 6 of R125: the "function-set 4-bit" nibble, 4-bit transports only. -/
def initFs4 (p : Params) (t : Transport) : List Micro :=
  if t.variant.isFour then sendNibbleVia p t false (p.fs4Nib) ++ delay p.tSettle else []

/-- The listing of R125, in its order (R154). -/
def initSeq (p : Params) (t : Transport) : List Micro :=
  [.setPhase .initializing]
    ++ delay p.tPower
    ++ initFs8 p t p.tFs1 ++ initFs8 p t p.tFs2 ++ initFs8 p t p.tFs3
    ++ initFs4 p t
    ++ winstrSeq p t (fsFinal p t.variant)
    ++ [.setFlags false false false]
    ++ winstrSeq p t (encDctrl p false false false)
    ++ winstrSeq p t (encClear p)
    ++ [.setEntry .cursor .inc]
    ++ winstrSeq p t (encEntry p .cursor .inc)
    ++ [.setDisp true]
    ++ winstrSeq p t (encDctrl p true false false)
    ++ [.setPhase .ready]

/-- `INIT` (R125). -/
def execInit (s : State) : Host.Outcome State Fault Refusal :=
  hostCommand .construction s (s.perform (initSeq s.params s.transport))

/-- `BLON` (R126): state only, no event. -/
def execBlon (s : State) : Host.Outcome State Fault Refusal :=
  hostCommand .ready s ({ s with transport := s.transport.setBacklight fun _ => true }.perform [])

/-- `BLOFF` (R127). -/
def execBloff (s : State) : Host.Outcome State Fault Refusal :=
  hostCommand .ready s ({ s with transport := s.transport.setBacklight fun _ => false }.perform [])

/-- `BLTGL` (R128). -/
def execBltgl (s : State) : Host.Outcome State Fault Refusal :=
  hostCommand .ready s ({ s with transport := s.transport.setBacklight not }.perform [])

end Sys2Proof.Machine
end

