-- ==== Sys2Proof/Machine/Dispatch.lean ====
section
/-! DEFINITION. Dispatch: one arm per instruction. -/

namespace Sys2Proof.Machine

def exec (i : Instr) (s : State) : Host.Outcome State Fault Refusal :=
  match i with
  | .snib n => Sys2Proof.Machine.execSnib n s
  | .sbyte b => Sys2Proof.Machine.execSbyte b s
  | .sshb b => Sys2Proof.Machine.execSshb b s
  | .si2cn d n => Sys2Proof.Machine.execSi2cn d n s
  | .winstr b => Sys2Proof.Machine.execWinstr b s
  | .wdata b => Sys2Proof.Machine.execWdata b s
  | .wbuf data => Sys2Proof.Machine.execWbuf data s
  | .clear => Sys2Proof.Machine.execClear s
  | .home => Sys2Proof.Machine.execHome s
  | .setcur row col => Sys2Proof.Machine.execSetcur row col s
  | .mkchar slot g0 g1 g2 g3 g4 g5 g6 g7 => Sys2Proof.Machine.execMkchar slot g0 g1 g2 g3 g4 g5 g6 g7 s
  | .dispon => Sys2Proof.Machine.execDispon s
  | .dispoff => Sys2Proof.Machine.execDispoff s
  | .disptgl => Sys2Proof.Machine.execDisptgl s
  | .curon => Sys2Proof.Machine.execCuron s
  | .curoff => Sys2Proof.Machine.execCuroff s
  | .curtgl => Sys2Proof.Machine.execCurtgl s
  | .blnkon => Sys2Proof.Machine.execBlnkon s
  | .blnkoff => Sys2Proof.Machine.execBlnkoff s
  | .blnktgl => Sys2Proof.Machine.execBlnktgl s
  | .curinc => Sys2Proof.Machine.execCurinc s
  | .curdec => Sys2Proof.Machine.execCurdec s
  | .dspinc => Sys2Proof.Machine.execDspinc s
  | .dspdec => Sys2Proof.Machine.execDspdec s
  | .curl => Sys2Proof.Machine.execCurl s
  | .curr => Sys2Proof.Machine.execCurr s
  | .scrl => Sys2Proof.Machine.execScrl s
  | .scrr => Sys2Proof.Machine.execScrr s
  | .init => Sys2Proof.Machine.execInit s
  | .blon => Sys2Proof.Machine.execBlon s
  | .bloff => Sys2Proof.Machine.execBloff s
  | .bltgl => Sys2Proof.Machine.execBltgl s
  | .lcdClear => Sys2Proof.Machine.execLcdClear s
  | .lcdHome => Sys2Proof.Machine.execLcdHome s
  | .lcdEntry incBit dispBit => Sys2Proof.Machine.execLcdEntry incBit dispBit s
  | .lcdDctrl d c b => Sys2Proof.Machine.execLcdDctrl d c b s
  | .lcdShift dispBit rightBit => Sys2Proof.Machine.execLcdShift dispBit rightBit s
  | .lcdFset l n f => Sys2Proof.Machine.execLcdFset l n f s
  | .lcdSetcg a => Sys2Proof.Machine.execLcdSetcg a s
  | .lcdSetdd a => Sys2Proof.Machine.execLcdSetdd a s
  | .i2cCtrl n bl en rs => Sys2Proof.Machine.execI2cCtrl n bl en rs s

end Sys2Proof.Machine
end

