-- ==== Sys2Proof/Machine/Fetch.lean ====
section
/-! DEFINITION. Taking the next instruction's bytes: from a device's input, or from the host command
stream (`20_memory.md` R45, `60_exceptions.md` R133), and presenting bytes there. -/

namespace Sys2Proof.Machine

/-- The refusal a decode error stands for (R133). -/
def refusalOf : DecodeError → Refusal
  | .reservedOpcode => .reservedOpcode
  | .truncated => .truncated
  | .reservedOperandBits => .reservedOperandBits

/-- `RF6` at the port and on the wires (R133, R135): a second agent drives the pins or the bus, or bytes
are presented while a command runs. It comes before every other refusal, so the bytes are not looked
at. -/
def State.intrusion (s : State) : Option Refusal :=
  if s.shared = true ∨ (s.upc ≠ 0 ∧ s.hostWaits = false ∧ s.hostIn ≠ []) then some .busy else none

/-- The layout by which the expander's byte is read: its own, where there is one. -/
def Transport.layout : Transport → CtlLayout
  | .i2c port => port.layout
  | .ph _ => {}
  | .pf _ => {}
  | .sr _ => {}

/-- A byte waiting at a device. An instruction byte of no class the adapter produces has an effect
the spec calls "any value" (U6); a control byte that reads is never transmitted (R66 (a)). -/
def stepDevice (d : DeviceByte) (s : State) : Host.Outcome State Fault Refusal :=
  match d with
  | .controller b =>
    match decodeLcdiFor s.params b with
    | some i => exec i s
    | none => .next (s.receive b Observer.lose)
  | .expander b =>
    match s.transport.layout.decode b with
    | some i => exec i s
    | none => .refused .reservedControlBit

/-- The outcome of a command whose stream goes on: a host that does not wait for done presents the
next bytes while this one runs, which is refused (`RF6`); a command with no event is never running. -/
def pressed (s : State) (r : Host.Outcome State Fault Refusal) : Host.Outcome State Fault Refusal :=
  match r with
  | .next t =>
    if s.hostWaits = false ∧ s.hostIn ≠ [] ∧ s.out.length < t.out.length then .refused .busy
    else .next t
  | .fault f => .fault f
  | .refused x => .refused x

/-- The host port when no command is running (R34, R45): with no byte presented the adapter waits
(R144: "the host may wait any length of time between commands"); otherwise it takes exactly the
bytes of one command. -/
def stepHost (s : State) : Host.Outcome State Fault Refusal :=
  match s.hostIn with
  | [] => .next s
  | _ :: _ =>
    match decode s.hostIn with
    | .ok i rest => pressed { s with hostIn := rest } (exec i { s with hostIn := rest })
    | .bad e => .refused (refusalOf e)

/-- What a step does where nothing intrudes: the stuck state has no step (R136); while a command runs
the sequencer emits its next event (R15); else a byte waiting at a device, else the host's next
command. -/
def stepAlone (s : State) : Host.Outcome State Fault Refusal :=
  if s.hung then .fault .i2cStuck
  else if s.upc ≠ 0 then .next s.tick
  else
    match s.devIn with
    | d :: ds => stepDevice d { s with devIn := ds }
    | [] => stepHost s

/-- Present one instruction's bytes on the line its format belongs to. -/
def State.present (s : State) (f : Format) (bs : List Byte) : State :=
  match f with
  | .hc => { s with hostIn := bs ++ s.hostIn, devIn := [] }
  | .lcdi => { s with devIn := bs.map .controller ++ s.devIn }
  | .i2cb => { s with devIn := bs.map .expander ++ s.devIn }

end Sys2Proof.Machine
end

