-- ==== Sys2Proof/Machine/Step.lean ====
section
/-! DEFINITION. One step of the machine, and presenting one instruction to it. -/

namespace Sys2Proof.Machine

/-- One step: refused where `RF6` applies, else what the machine does alone. -/
def step (s : State) : Host.Outcome State Fault Refusal :=
  match s.intrusion with
  | some r => .refused r
  | none => stepAlone s

/-- `s` with the instruction of an opcode-table word presented so that the very next step takes it:
no command is running, nothing intrudes, and its bytes, and no more, are next on its own line
(notes/assumptions/6). A word that decodes to nothing is presented on the host port. -/
def State.withFetchWord (s : State) (nbits w : Nat) : State :=
  let idle := { s with upc := 0, pending := [], hung := false, hostWaits := true, shared := false }
  match decodeTableBytes (tableBytes nbits w) with
  | some (i, f) => idle.present f ((tableBytes nbits w).take i.lengthBytes)
  | none => idle.present .hc (tableBytes nbits w)

end Sys2Proof.Machine
end

