-- ==== Sys2Proof/Safety.lean ====
section
/-! DEFINITION. What counts as a safe run, in the terms of the spec: finished, stuck and refused runs
(R132, R155), the host's duties (R144), and what an observer of the trace may read from it
(`20_memory.md` R38, `70_reset_and_hazards.md` R160). -/

namespace Sys2Proof.Machine

/-! ### Runs -/

/-- No command is running and none waits: "finished when the last command is done and `s.upc = 0`"
(R155). -/
abbrev State.Finished (s : State) : Prop :=
  s.upc = 0 ∧ s.hung = false ∧ s.hostIn = [] ∧ s.devIn = []

/-- The stuck state (R136). -/
abbrev State.Stuck (s : State) : Prop := s.hung = true

/-- A run that is never stuck, faulting or refused within k steps. -/
def SafeFor (k : Nat) (s : State) : Prop := ∃ t, Sys2Proof.core.run k s = .next t

/-- Ready for the host's next command (R45). -/
abbrev State.Idle (s : State) : Prop := s.upc = 0 ∧ s.hung = false

/-- Every display flag and entry-mode bit has been written (R28). -/
abbrev State.FlagsWritten (s : State) : Prop :=
  s.disp.isSome ∧ s.cur.isSome ∧ s.blink.isSome ∧ s.emTarget.isSome ∧ s.emDir.isSome

/-! ### The host's duties (R144) -/

/-- Duty (5): row 0 or 1, col inside the row, slot 0 to 7. -/
def instrInRange (p : Params) : Instr → Bool
  | .setcur row col => decide (row.toNat < p.rows) && decide (col.toNat < p.colsAlloc)
  | .mkchar slot _ _ _ _ _ _ _ _ => decide (slot.toNat < p.cgSlots)
  | _ => true

/-- Duty (7): no raw instruction byte and no lone nibble. -/
def instrFacade : Instr → Bool
  | .winstr _ | .snib _ | .sbyte _ | .sshb _ | .si2cn _ _ => false
  | _ => true

/-- Positions the display shows when it has not been scrolled (R31). -/
def visible (p : Params) (a : Nat) : Bool :=
  (decide (p.row0Base.toNat ≤ a) && decide (a < p.row0Base.toNat + p.colsVisible))
    || (decide (p.row1Base.toNat ≤ a) && decide (a < p.row1Base.toNat + p.colsVisible))

/-! ### Reading a trace -/

/-- Replay a trace from a transport: the pins and latches at its end, and the logical stream
`LS` (R38). -/
def replay (t : Transport) : List Event → Transport × List Item
  | [] => (t, [])
  | ev :: evs =>
    let r := t.take ev
    let q := replay r.1 evs
    (q.1, r.2 ++ q.2)

/-- The transport as constructed, with the backlight bit it holds now: where a replay starts. -/
def Transport.blank : Transport → Transport
  | .ph _ => .ph ⟨none, none, none⟩
  | .pf _ => .pf ⟨none, none, none⟩
  | .sr _ => .sr ⟨none, none, none, none, none, 0, 0⟩
  | .i2c port => .i2c { port with xp := 0 }

/-! ### The wire frames of R64, as lists of events -/

/-- `Delay(n)` (R80). -/
def waitTrace (n : Nat) : List Event := if n = 0 then [] else [.dly n]

/-- `DLY T_PRE`, `E=1`, `DLY T_HIGH`, `E=0`, `DLY T_POST` (R64, R77). -/
def pulseTrace (p : Params) : List Event :=
  waitTrace p.tPre ++ [.e true] ++ waitTrace p.tHigh ++ [.e false] ++ waitTrace p.tPost

/-- "eight times (`SER=bit`, `SCK=1`, `SCK=0`) from bit 7 to bit 0" (R64, R78). -/
def shiftTrace (b : Byte) : List Event :=
  [7, 6, 5, 4, 3, 2, 1, 0].flatMap fun i => [.ser (b.getLsbD i), .sck true, .sck false]

/-- "one transaction of three control bytes `ctl(n,rs,bl,0)`, `ctl(n,rs,bl,1)`, `ctl(n,rs,bl,0)`"
(R64, R87). -/
def frameTrace (port : I2cPort) (level : Bool) (n : Nibble) : Event :=
  .i2c port.dest (port.layout.byte n level port.bl false) (port.layout.byte n level port.bl true)
    (port.layout.byte n level port.bl false)

/-- One byte on the active transport, sent with the register-select level given (R64, R82). -/
def byteTrace (p : Params) (t : Transport) (level : Bool) (b : Byte) : List Event :=
  match t with
  | .ph _ => [.rs level, .d4 (hiNibble b)] ++ pulseTrace p ++ [.d4 (loNibble b)] ++ pulseTrace p
  | .pf _ => [.rs level, .d8 b] ++ pulseTrace p
  | .sr _ => [.rs level] ++ shiftTrace b ++ [.rck true, .rck false] ++ pulseTrace p
  | .i2c port => [frameTrace port level (hiNibble b), frameTrace port level (loNibble b)]

/-- One lone nibble on a 4-bit transport (R88). -/
def nibbleTrace (p : Params) (t : Transport) (level : Bool) (n : Nibble) : List Event :=
  match t with
  | .ph _ => [.rs level, .d4 n] ++ pulseTrace p
  | .i2c port => [frameTrace port level n]
  | .pf _ => []
  | .sr _ => []

/-- How many transmits an event is. -/
def Event.transmits : Event → Nat
  | .i2c _ _ _ _ => 1
  | .rs _ | .e _ | .d4 _ | .d8 _ | .ser _ | .sck _ | .rck _ | .dly _ => 0

/-- The transmits in a trace. -/
def transmitsIn : List Event → Nat
  | [] => 0
  | ev :: evs => ev.transmits + transmitsIn evs

/-- The pins and latches after a byte has been sent. -/
def afterByte (t : Transport) (level : Bool) (b : Byte) : Transport :=
  match t with
  | .ph _ => .ph ⟨some level, some false, some (loNibble b)⟩
  | .pf _ => .pf ⟨some level, some false, some b⟩
  | .sr _ => .sr ⟨some level, some false, some (b.getLsbD 0), some false, some false, b, b⟩
  | .i2c port => .i2c { port with xp := port.layout.byte (loNibble b) level port.bl false }

/-- The items the controller latches for a byte (R89). -/
def byteItems (v : Variant) (level : Bool) (b : Byte) : List Item :=
  if v.isFour then
    [.nibble (some level) (some (hiNibble b)), .nibble (some level) (some (loNibble b))]
  else [.byte (some level) (some b)]

/-- The observer after one byte has arrived as that byte: its items, then the logical byte (R41). -/
def Observer.arrive (p : Params) (v : Variant) (level : Bool) (b : Byte) (o : Observer) : Observer :=
  Observer.onByte p v ⟨some level, some b⟩ { o with items := o.items ++ byteItems v level b }

/-- The platform's engine after k transmits of the I2C variant; the others do not transmit. -/
def busAfter (t : Transport) (bus : Option Nat) (k : Nat) : Option Nat :=
  match t with
  | .i2c _ => bus.map (· - k)
  | .ph _ => bus
  | .pf _ => bus
  | .sr _ => bus

/-- The time-units a trace requests, a lower bound on real time (R158, R160). -/
def requestedDelay : List Event → Nat
  | [] => 0
  | .dly n :: evs => n + requestedDelay evs
  | _ :: evs => requestedDelay evs

/-- No half-done pulse: the enable line is low or has never been driven, and on SR so is the shift
clock (what boot leaves, R153, and every finished command leaves). -/
def Transport.linesIdle : Transport → Bool
  | .ph p => !decide (p.e = some true)
  | .pf p => !decide (p.e = some true)
  | .sr p => !decide (p.e = some true) && !decide (p.sck = some true)
  | .i2c port => !port.xp.getLsbD port.layout.enBit

/-- The platform completes at least k more transmits, where the variant transmits at all (R81). -/
def State.busServes (s : State) (k : Nat) : Bool :=
  match s.transport, s.bus with
  | .i2c _, some n => decide (k ≤ n)
  | .i2c _, none => true
  | .ph _, _ => true
  | .pf _, _ => true
  | .sr _, _ => true

/-- The observer knows which half of a byte comes next (R24 (b)): not before `INIT` has completed
(R151). -/
def Pairing.known : Pairing → Bool
  | .unknown => false
  | .booting _ _ _ => false
  | .paired => true
  | .half _ _ => true

/-- The observer is between bytes and reads the width the transport sends, so a byte sent now arrives
as that byte (R36 (b), R41). -/
def State.inStep (s : State) : Bool := decide (s.obs.pairing = .paired ∧ s.obs.iface = .matched)

/-- `s.bl`, where the variant has it (R18). -/
def backlightBit : Transport → Option Bool
  | .i2c port => some port.bl
  | .ph _ => none
  | .pf _ => none
  | .sr _ => none

/-- The device of the I2C variant (R33), where there is one. -/
def Transport.dest : Transport → Option I2cDest
  | .i2c port => some port.dest
  | .ph _ => none
  | .pf _ => none
  | .sr _ => none

/-! ### Which controller line each output reaches (R39) -/

/-- The level of the controller's data line DBi: `DPi` on PF, `DP(i-4)` on PH, `SRQ[i]` on SR, bit
i-4 of the nibble of `XP` on I2C; `none` where the line is not wired or its pin is unwritten. -/
def Transport.dataLine (t : Transport) (i : Nat) : Option Bool :=
  match t with
  | .ph p => if 4 ≤ i then p.dp.map fun n => n.getLsbD (i - 4) else none
  | .pf p => p.dp.map fun b => b.getLsbD i
  | .sr p => some (p.srq.getLsbD i)
  | .i2c port => if 4 ≤ i then some ((port.layout.nibbleOf port.xp).getLsbD (i - 4)) else none

/-- The register-select line. -/
def Transport.rsLine : Transport → Option Bool
  | .ph p => p.rs
  | .pf p => p.rs
  | .sr p => p.rs
  | .i2c port => some (port.xp.getLsbD port.layout.rsBit)

/-- The enable line. -/
def Transport.enableLine : Transport → Option Bool
  | .ph p => p.e
  | .pf p => p.e
  | .sr p => p.e
  | .i2c port => some (port.xp.getLsbD port.layout.enBit)

/-- The read/write line: the read/write bit of the expander; the GPIO variants have no pin for it, the
board holds it at write (R153 (4)). -/
def Transport.rwLine : Transport → Option Bool
  | .i2c port => some (port.xp.getLsbD port.layout.rwBit)
  | .ph _ => none
  | .pf _ => none
  | .sr _ => none

/-- The backlight switch: the backlight bit of the expander, so the light follows the last byte that
reached it and not `s.bl` (R126, R168). -/
def Transport.lightLine : Transport → Option Bool
  | .i2c port => some (port.xp.getLsbD port.layout.blBit)
  | .ph _ => none
  | .pf _ => none
  | .sr _ => none

/-- An item shows the levels of the controller's lines. -/
def Item.onLines (t : Transport) : Item → Prop
  | .byte rs v => rs = t.rsLine ∧ ∀ w i, v = some w → i < 8 → t.dataLine i = some (w.getLsbD i)
  | .nibble rs v =>
    rs = t.rsLine ∧ ∀ w i, v = some w → i < 4 → t.dataLine (4 + i) = some (w.getLsbD i)

/-! ### Kinds of command -/

/-- The host commands of layers B and C but `INIT` (R51): those the phase gate holds to Ready. -/
def needsReady : Instr → Bool
  | .winstr _ | .wdata _ | .wbuf _ | .clear | .home | .setcur _ _ | .mkchar _ _ _ _ _ _ _ _ _
  | .dispon | .dispoff | .disptgl | .curon | .curoff | .curtgl | .blnkon | .blnkoff | .blnktgl
  | .curinc | .curdec | .dspinc | .dspdec | .curl | .curr | .scrl | .scrr | .blon | .bloff
  | .bltgl => true
  | .snib _ | .sbyte _ | .sshb _ | .si2cn _ _ | .init | .lcdClear | .lcdHome | .lcdEntry _ _
  | .lcdDctrl _ _ _ | .lcdShift _ _ | .lcdFset _ _ _ | .lcdSetcg _ | .lcdSetdd _
  | .i2cCtrl _ _ _ _ => false

/-- The variant a transport primitive belongs to (R83). -/
def primitiveOf : Instr → Option Variant
  | .snib _ => some .ph
  | .sbyte _ => some .pf
  | .sshb _ => some .sr
  | .si2cn _ _ => some .i2c
  | _ => none

/-- The register-select level of an instruction byte (R76). -/
abbrev instrLevel (p : Params) : Bool := !p.rsData

/-! ### The sequence of `INIT` -/

/-- The items of a list of bytes sent at one register-select level (R89). -/
def itemsOf (v : Variant) (level : Bool) (bs : List Byte) : List Item := bs.flatMap (byteItems v level)

/-- The five whole instructions at the end of `INIT` (R125 lines 7 to 14): function-set, display-off,
clear, entry-mode (cursor, increment), display-on. -/
def initBytes (p : Params) (v : Variant) : List Byte :=
  [if v.isFour then p.fsFinal4 else p.fsFinal8, p.opDctrl, p.opClear, p.opEntry ||| p.emId,
    p.opDctrl ||| p.dcD]

/-- The trace of `INIT` on a transport (R125, R154), at the register-select level of an instruction. -/
def initTrace (p : Params) (t : Transport) : List Event :=
  let fs8Send : List Event :=
    if t.variant.isFour then nibbleTrace p t (instrLevel p) (hiNibble p.fs8)
    else byteTrace p t (instrLevel p) p.fs8
  waitTrace p.tPower
    ++ fs8Send ++ waitTrace p.tFs1 ++ fs8Send ++ waitTrace p.tFs2 ++ fs8Send ++ waitTrace p.tFs3
    ++ (if t.variant.isFour then nibbleTrace p t (instrLevel p) p.fs4Nib ++ waitTrace p.tSettle else [])
    ++ (initBytes p t.variant).flatMap
        fun b => byteTrace p t (instrLevel p) b ++ waitTrace p.tSettle

/-- The logical items of `INIT` (R125). -/
def initItems (p : Params) (v : Variant) : List Item :=
  (if v.isFour then
      [hiNibble p.fs8, hiNibble p.fs8, hiNibble p.fs8, p.fs4Nib].map
        fun n => .nibble (some (instrLevel p)) (some n)
    else itemsOf v (instrLevel p) [p.fs8, p.fs8, p.fs8])
    ++ itemsOf v (instrLevel p) (initBytes p v)

/-- Transmits of `INIT` on the I2C variant: four lone nibbles and five bytes. -/
def initTransmits : Nat := 14

end Sys2Proof.Machine
end

