-- ==== Sys2Proof/Certificates/Slice0/Obligations.lean ====
section
/-! DEFINITION. The statements for the provers, and the words they are written in. -/

namespace Sys2Proof.Claims

open Sys2Proof.Machine

/-! ### Words of the statements -/

/-- The adapter is between commands in phase Ready, its lines idle, and the platform completes at
least k more transmits where the variant transmits. -/
abbrev ReadyFor (k : Nat) (s : State) : Prop :=
  s.upc = 0 ∧ s.hung = false ∧ s.phase = .ready ∧ s.transport.linesIdle = true
    ∧ s.busServes k = true

/-- `s` after the byte b has gone out at a register-select level, then a wait. -/
def sent (s : State) (level : Bool) (b : Byte) (wait : Nat) : State :=
  { s with
    out := s.out ++ byteTrace s.params s.transport level b ++ waitTrace wait
    transport := afterByte s.transport level b
    bus := busAfter s.transport s.bus 2
    obs := s.obs.onItems s.params s.transport.variant (byteItems s.transport.variant level b)
    pending := [] }

/-- An observer between bytes takes the items of one byte as that logical byte (R41). -/
def arrivesWhole (s : State) (level : Bool) (b : Byte) : Prop :=
  s.obs.pairing = .paired →
    s.obs.onItems s.params s.transport.variant (byteItems s.transport.variant level b)
      = s.obs.arrive s.params s.transport.variant level b

/-- The command i, from a state s ready for it, sends the instruction byte b with the settle delay
after it, and leaves s0 (s with the command's own state update) otherwise as it is; an observer in
step receives that byte. -/
def sendsFrom (i : Instr) (s s0 : State) (b : Byte) : Prop :=
  exec i s = .next (sent s0 (instrLevel s.params) b s.params.tSettle)
    ∧ arrivesWhole s (instrLevel s.params) b

/-- The display-control byte of three flags, as R57 computes it. -/
def dctrlByteOf (p : Params) (d c b : Bool) : Byte :=
  p.opDctrl ||| bitIf d p.dcD ||| bitIf c p.dcC ||| bitIf b p.dcB

/-- A display-flag command: its opcode, and the flags it leaves from the flags it finds. -/
def FlagCommand (i : Instr) (op : Byte) (f : Bool → Bool → Bool → Bool × Bool × Bool) : Prop :=
  encode i = [op] ∧
  ∀ s d c b, ReadyFor 2 s → s.disp = some d → s.cur = some c → s.blink = some b →
    sendsFrom i s
      { s with disp := some (f d c b).1, cur := some (f d c b).2.1, blink := some (f d c b).2.2 }
      (dctrlByteOf s.params (f d c b).1 (f d c b).2.1 (f d c b).2.2)

/-- An entry-mode command: its opcode, the bits it writes, the byte it sends. -/
def EntryCommand (i : Instr) (op : Byte) (t : EmTarget) (d : EmDir) (b : Params → Byte) : Prop :=
  encode i = [op] ∧
  ∀ s, ReadyFor 2 s → sendsFrom i s { s with emTarget := some t, emDir := some d } (b s.params)

/-- A command with no operand that writes no field of the adapter: its opcode and its byte. -/
def PlainCommand (i : Instr) (op : Byte) (b : Params → Byte) : Prop :=
  encode i = [op] ∧ ∀ s, ReadyFor 2 s → sendsFrom i s s (b s.params)

/-- A display-control instruction among the logical bytes, at the default parameters (R57). -/
def isDctrlByte (x : LogicalByte) : Bool :=
  match x.rs, x.v with
  | some l, some b => !l && decide (0x08 ≤ b.toNat) && decide (b.toNat < 0x10)
  | _, _ => false

/-- An entry-mode instruction among the logical bytes, at the default parameters (R56). -/
def isEntryByte (x : LogicalByte) : Bool :=
  match x.rs, x.v with
  | some l, some b => !l && decide (0x04 ≤ b.toNat) && decide (b.toNat < 0x08)
  | _, _ => false

/-- The last logical byte of a kind. -/
def lastOf (f : LogicalByte → Bool) (bs : List LogicalByte) : Option LogicalByte :=
  (bs.filter f).getLast?

/-- R27: in phase Ready the flags and the entry-mode bits are those of the last instruction of their
kind that was sent. -/
def Mirrors (s : State) : Prop :=
  s.phase = .ready ∧ s.upc = 0 ∧ s.transport.linesIdle = true ∧ s.obs.pairing = .paired ∧
  ∃ d c b t m, s.disp = some d ∧ s.cur = some c ∧ s.blink = some b
    ∧ s.emTarget = some t ∧ s.emDir = some m
    ∧ lastOf isDctrlByte s.obs.bytes = some ⟨some false, some (dctrlByteOf s.params d c b)⟩
    ∧ lastOf isEntryByte s.obs.bytes = some ⟨some false, some (encEntry s.params t m)⟩

/-- The observer's memories are canonical and hold only addresses the spec gives a place, and so does
its counter (R31, R32, R40). -/
def MemoriesPlaced (s : State) : Prop :=
  s.obs.ddram.wf ∧ s.obs.cgram.wf
    ∧ (∀ c ∈ s.obs.ddram, ddramValid s.params c.1 = true)
    ∧ (∀ c ∈ s.obs.cgram, cgramValid s.params c.1 = true)
    ∧ ∀ sp a, s.obs.space = some sp → s.obs.ac = some a → addrValid s.params sp a = true

/-- The state a sequence of whole commands leaves: idle or stuck, and every flag written once the
phase is Ready (R15, R28, R136). -/
def Sequenced (s : State) : Prop :=
  (s.hung = false → s.upc = 0) ∧ (s.hung = true → s.upc ≠ 0) ∧ (s.phase = .ready → s.FlagsWritten)

/-- With no byte waiting at a device: between commands the enable line and the shift clock are low, or
never written (R77, R78, R87; log entry 22). -/
def LinesRest (s : State) : Prop :=
  s.devIn = [] ∧ (s.hung = false → s.upc = 0 ∧ s.transport.linesIdle = true)

/-- With no byte waiting at a device: pins, latches and logical stream are what the trace says (R20,
R38). -/
def TraceExplains (s : State) : Prop :=
  s.devIn = [] ∧ (s.hung = false → replay s.transport.blank s.out = (s.transport, s.obs.items))

/-- Until `INIT` has completed, which is phase Ready, nothing is known of the controller's interface
width, nibble phase and counter (R151), nor of direction and memories (U10); and before it has started
no pairing of nibbles has begun. -/
def UnknownBeforeInit (s : State) : Prop :=
  (s.phase ≠ .ready → s.obs.iface = .unknown ∧ s.obs.pairing.known = false ∧ s.obs.space = none
      ∧ s.obs.ac = none ∧ s.obs.dir = none ∧ s.obs.ddram = [] ∧ s.obs.cgram = [])
    ∧ (s.phase = .uninitialized → s.obs.pairing = .unknown)

/-- An observer of which nothing is left but its history, its pairing and its interface width. -/
def forgotten (o : Observer) : Observer :=
  { o with space := none, ac := none, dir := none, ddram := [], cgram := [] }

/-- The observer s.obs with one more instruction byte in its history. -/
def recorded (s : State) (b : Byte) : Observer :=
  { s.obs with bytes := s.obs.bytes ++ [⟨some (instrLevel s.params), some b⟩] }

/-- What the arrival of the instruction byte b leaves of the observer, where the effect of b is `act`:
while `INIT` runs b is held back to act at its end, and while the interface width is unknown b is
recorded and nothing else is known afterwards. Both are the model's (log entries 9, 10, DESIGN CHOICE);
R151 and R166 say only that the width is unknown then. -/
def afterArrival (s : State) (b : Byte) (act : Observer → Observer) : Observer :=
  match s.obs.pairing with
  | .booting left half heard =>
    { recorded s b with
      pairing := .booting left half (heard ++ [⟨some (instrLevel s.params), some b⟩]) }
  | _ => if s.obs.iface = .unknown then forgotten (recorded s b) else act (recorded s b)

/-- The instruction i completes from s as the arrival of the byte b with that effect. -/
def Arrives (i : Instr) (s : State) (b : Byte) (act : Observer → Observer) : Prop :=
  exec i s = .next { s with obs := afterArrival s b act }

/-- A transmit with the backlight bit flipped in every byte. -/
def flipBacklight (l : CtlLayout) : Event → Event
  | .i2c d b0 b1 b2 =>
    .i2c d (b0 ^^^ oneBit l.blBit) (b1 ^^^ oneBit l.blBit) (b2 ^^^ oneBit l.blBit)
  | ev => ev

/-- No line moves while the enable line is high, and every frame is an enable pulse: between `E=1` and
`E=0` there are delays only; the bytes of a transmit differ in the enable bit alone, low, high, low,
and their read/write bit is 0 (R37, R66, R87). -/
def strobesClean (l : CtlLayout) : Bool → List Event → Bool
  | high, [] => !high
  | high, .e v :: evs => decide (high ≠ v) && strobesClean l v evs
  | high, .dly _ :: evs => strobesClean l high evs
  | high, .i2c _ b0 b1 b2 :: evs =>
    !high && decide (b1 = b0 ||| oneBit l.enBit) && decide (b2 = b0) && !b0.getLsbD l.enBit
      && !b0.getLsbD l.rwBit && strobesClean l false evs
  | high, _ :: evs => !high && strobesClean l false evs

/-- The nine display-flag commands (R103 to R111). -/
def isFlagCommand : Instr → Bool
  | .dispon | .dispoff | .disptgl | .curon | .curoff | .curtgl | .blnkon | .blnkoff | .blnktgl => true
  | _ => false

/-- The four entry-mode commands (R112 to R115). -/
def isEntryCommand : Instr → Bool
  | .curinc | .curdec | .dspinc | .dspdec => true
  | _ => false

/-- The three backlight commands (R126 to R128). -/
def isBacklightCommand : Instr → Bool
  | .blon | .bloff | .bltgl => true
  | _ => false

end Sys2Proof.Claims

open Sys2Proof Sys2Proof.Machine Sys2Proof.Claims

/-! ### Construction, decoding, stepping -/

/-- R23, R26, R150: the value of every field at construction; reset is one such state. The external
latches starting at 0 and the choice of the reset variant are the model's (log entries 1, 2). -/
def Obligations.ConstructionLeavesFieldsUnwritten : Prop :=
  (∀ p w bus,
    let s := State.construct p w bus
    s.params = p ∧ s.phase = .uninitialized ∧ s.upc = 0 ∧ s.out = []
      ∧ s.disp = none ∧ s.cur = none ∧ s.blink = none ∧ s.emTarget = none ∧ s.emDir = none
      ∧ s.hung = false ∧ s.pending = [] ∧ s.bus = bus
      ∧ (match w, s.transport with
          | .ph, .ph q => q.rs = none ∧ q.e = none ∧ q.dp = none
          | .pf, .pf q => q.rs = none ∧ q.e = none ∧ q.dp = none
          | .sr, .sr q => q.rs = none ∧ q.e = none ∧ q.ser = none ∧ q.sck = none ∧ q.rck = none
          | .i2c dest bl layout, .i2c port =>
            port.dest = dest ∧ port.bl = bl ∧ port.layout = layout
          | _, _ => False)
      ∧ s.obs.space = none ∧ s.obs.ac = none ∧ s.obs.dir = none ∧ s.obs.items = []
      ∧ s.obs.ddram = [] ∧ s.obs.cgram = [] ∧ s.obs.iface = .unknown ∧ s.obs.pairing = .unknown)
  ∧ State.reset = State.construct Params.default .ph none

/-- Words written out bit by bit from the encodings of R51, R53 and R62 decode to what they stand
for. -/
def Obligations.SampleWordsDecode : Prop :=
  decode [0b00010000, 0b00000011] = .ok (.snib 3) []
    ∧ decode [0b00010011, 0b00010100] = .ok (.si2cn true 4) []
    ∧ decode [0b00100010, 0b00000010, 0b01000001, 0b01000010, 0b00110000]
        = .ok (.wbuf [0x41, 0x42]) [0x30]
    ∧ decode [0b00110010, 0b00000001, 0b00000101] = .ok (.setcur 1 5) []
    ∧ decode [0b01000101] = .ok .curtgl []
    ∧ decode [0b01010011] = .ok .dspdec []
    ∧ decode [0b01100000] = .ok .init []
    ∧ decodeLcdi 0b00000110 = some (.lcdEntry true false)
    ∧ decodeLcdi 0b11000101 = some (.lcdSetdd 0x45)
    ∧ decodeCtl 0b00111100 = some (.i2cCtrl 3 true true false)

/-- Every well-formed host command, in front of any rest of the stream, decodes to itself and leaves
that rest (R50 to R52). -/
def Obligations.HostCommandsRoundTrip : Prop :=
  ∀ i rest, i.format = .hc → i.wellFormed = true → decode (encode i ++ rest) = .ok i rest

/-- The instruction-byte and control-byte decoders against the encoder, in both directions: no bit of
an `LCDI` or `I2CB` byte is dropped (R53, R62). -/
def Obligations.EmittedBytesRoundTrip : Prop :=
  (∀ i, i.format = .lcdi → ∃ b, encode i = [b] ∧ decodeLcdi b = some i)
    ∧ (∀ b i, decodeLcdi b = some i → i.format = .lcdi ∧ encode i = [b])
    ∧ (∀ i, i.format = .i2cb → ∃ b, encode i = [b] ∧ decodeCtl b = some i)
    ∧ (∀ b i, decodeCtl b = some i → i.format = .i2cb ∧ encode i = [b])

/-- The lengths of R52, and its refusal: a stream that ends before the command is complete is refused
with `RF7`. -/
def Obligations.TruncatedCommandsRefused : Prop :=
  (∀ i, (encode i).length = i.lengthBytes)
    ∧ ∀ i s k, i.format = .hc → i.wellFormed = true → 0 < k → k < i.lengthBytes →
      s.shared = false → s.upc = 0 → s.hung = false → s.devIn = [] →
      s.hostIn = (encode i).take k → step s = .refused .truncated

/-- R65 (a), (b) at the host port: a reserved opcode byte is refused with `RF1` whatever follows it,
an operand with reserved bits set with `RF5`. -/
def Obligations.ReservedEncodingsRefused : Prop :=
  ∀ s op r, s.shared = false → s.upc = 0 → s.hung = false → s.devIn = [] → s.hostIn = op :: r →
    ((op.toNat ≤ 0x0F ∨ (0x14 ≤ op.toNat ∧ op.toNat ≤ 0x1F) ∨ (0x23 ≤ op.toNat ∧ op.toNat ≤ 0x2F)
        ∨ (0x34 ≤ op.toNat ∧ op.toNat ≤ 0x3F) ∨ (0x49 ≤ op.toNat ∧ op.toNat ≤ 0x4F)
        ∨ (0x58 ≤ op.toNat ∧ op.toNat ≤ 0x5F) ∨ 0x64 ≤ op.toNat) →
      step s = .refused .reservedOpcode)
    ∧ (∀ b r', op = 0x10 → r = b :: r' → 0x10 ≤ b.toNat → step s = .refused .reservedOperandBits)
    ∧ (∀ b r', op = 0x13 → r = b :: r' → 0x20 ≤ b.toNat → step s = .refused .reservedOperandBits)

/-- What one step does where nothing intrudes: in the stuck state nothing, while a command runs its next
event; else the command at the host port with exactly its bytes taken from the stream, else it waits
(R15, R45, R136). That a step out of the stuck state is a fault is the model's (log entry 4); that a byte
waiting at a device is taken before the host's command, and that input itself, are the model's (log
entry 10, DESIGN CHOICE); so is the last clause, that an idle step leaves the state as it is (log entry
18, DESIGN CHOICE: R144 says no more than that the host may wait). -/
def Obligations.StepRunsDecodedInstruction : Prop :=
  (∀ s, s.shared = false → s.hostWaits = true ∨ s.hostIn = [] → s.hung = true →
      step s = .fault .i2cStuck)
    ∧ (∀ s, s.shared = false → s.hostWaits = true ∨ s.hostIn = [] → s.hung = false → s.upc ≠ 0 →
        step s = .next s.tick)
    ∧ (∀ s i b ds, s.shared = false → s.hung = false → s.upc = 0 →
        s.devIn = .controller b :: ds → decodeLcdiFor s.params b = some i →
        step s = exec i { s with devIn := ds })
    ∧ (∀ s i b ds port, s.shared = false → s.hung = false → s.upc = 0 → s.transport = .i2c port →
        s.devIn = .expander b :: ds → port.layout.decode b = some i →
        step s = exec i { s with devIn := ds })
    ∧ (∀ s i rest, s.shared = false → s.hostWaits = true ∨ rest = [] → s.hung = false → s.upc = 0 →
        s.devIn = [] → decode s.hostIn = .ok i rest → step s = exec i { s with hostIn := rest })
    ∧ (∀ s, s.shared = false → s.hung = false → s.upc = 0 → s.devIn = [] → s.hostIn = [] →
        step s = .next s)

/-- A byte at a device that is none of its instructions, which is the model's input (log entry 10): an
instruction byte of no class is recorded and nothing is known of the controller afterwards (U6), while
`INIT` runs at its end, which is the model's too (log entries 9, 10); a control byte with the read bit set is refused (log entry 12), on every variant. -/
def Obligations.DeviceBytesOfNoClass : Prop :=
  ∀ s b ds, s.shared = false → s.hung = false → s.upc = 0 →
    (s.devIn = .controller b :: ds → decodeLcdiFor s.params b = none →
      step s = .next { s with
        devIn := ds
        obs := afterArrival s b fun o => { forgotten o with iface := .unknown } })
    ∧ (s.devIn = .expander b :: ds → b.getLsbD s.transport.layout.rwBit = true →
      step s = .refused .reservedControlBit)

/-! ### The gate -/

/-- `RF6` comes first (R133, R135, R141): a host command presented while another runs is refused, in
every phase and on every variant; so are bytes that a host which does not wait presents while a command
runs, whatever they are; so is the rest of its stream when a command with an event takes the first of
it; and so is every step while a second agent drives the pins or the bus. The two inputs that say so
are the model's (log entry 24). -/
def Obligations.BusyRefusesEveryHostCommand : Prop :=
  (∀ i s, i.format = .hc → s.upc ≠ 0 → exec i s = .refused .busy)
    ∧ (∀ s, s.upc ≠ 0 → s.hostWaits = false → s.hostIn ≠ [] → step s = .refused .busy)
    ∧ (∀ s i rest t, s.shared = false → s.hung = false → s.upc = 0 → s.devIn = [] →
        s.hostWaits = false → decode s.hostIn = .ok i rest → rest ≠ [] →
        exec i { s with hostIn := rest } = .next t → s.out.length < t.out.length →
        step s = .refused .busy)
    ∧ (∀ s, s.shared = true → step s = .refused .busy)

/-- R134 and R83: when no command runs, layers B and C but `INIT` are refused with `RF3` outside
phase Ready, `INIT` with `RF4` outside phase Uninitialized, and a primitive with `RF2` on another
variant, in every phase. -/
def Obligations.PhaseAndVariantGate : Prop :=
  ∀ i s, s.upc = 0 →
    (needsReady i = true → s.phase ≠ .ready → exec i s = .refused .notReady)
    ∧ (i = .init → s.phase ≠ .uninitialized → exec i s = .refused .alreadyInitialised)
    ∧ (∀ v, primitiveOf i = some v → s.transport.variant ≠ v → exec i s = .refused .wrongVariant)

/-! ### Transport primitives -/

/-- R84 to R87 on their own variants, in every phase: the events, the pins, the external latches, the
one logical item, and nothing else changed. -/
def Obligations.PrimitivesSendOneItem : Prop :=
  (∀ s q n, s.upc = 0 → s.hung = false → s.transport = .ph q → s.transport.linesIdle = true →
    exec (.snib n) s = .next { s with
      out := s.out ++ .d4 n :: pulseTrace s.params
      transport := .ph { q with dp := some n, e := some false }
      obs := s.obs.onItem s.params .ph (.nibble q.rs (some n)), pending := [] })
  ∧ (∀ s q b, s.upc = 0 → s.hung = false → s.transport = .pf q → s.transport.linesIdle = true →
    exec (.sbyte b) s = .next { s with
      out := s.out ++ .d8 b :: pulseTrace s.params
      transport := .pf { q with dp := some b, e := some false }
      obs := s.obs.onItem s.params .pf (.byte q.rs (some b)), pending := [] })
  ∧ (∀ s q b, s.upc = 0 → s.hung = false → s.transport = .sr q → s.transport.linesIdle = true →
    exec (.sshb b) s = .next { s with
      out := s.out ++ shiftTrace b ++ [.rck true, .rck false] ++ pulseTrace s.params
      transport := .sr ⟨q.rs, some false, some (b.getLsbD 0), some false, some false, b, b⟩
      obs := s.obs.onItem s.params .sr (.byte q.rs (some b)), pending := [] })
  ∧ (∀ s port d n, s.upc = 0 → s.hung = false → s.transport = .i2c port →
    s.transport.linesIdle = true → s.busServes 1 = true →
    exec (.si2cn d n) s = .next { s with
      out := s.out ++ [frameTrace port (if d then s.params.rsData else !s.params.rsData) n]
      transport := .i2c { port with
        xp := port.layout.byte n (if d then s.params.rsData else !s.params.rsData) port.bl false }
      bus := s.bus.map (· - 1)
      obs := s.obs.onItem s.params .i2c
        (.nibble (some (if d then s.params.rsData else !s.params.rsData)) (some n))
      pending := [] })

/-! ### Byte commands -/

/-- R95: `WINSTR b` sends b with register-select = instruction and waits `T_SETTLE`; flags, entry
mode and backlight stay as they are, whatever b is. -/
def Obligations.WinstrSendsInstructionByte : Prop :=
  ∀ s b, ReadyFor 2 s → sendsFrom (.winstr b) s s b

/-- R96: `WDATA b` sends b with register-select = data and waits `T_DATA_SETTLE`. -/
def Obligations.WdataSendsDataByte : Prop :=
  ∀ s b, ReadyFor 2 s →
    exec (.wdata b) s = .next (sent s s.params.rsData b s.params.tDataSettle)
      ∧ arrivesWhole s s.params.rsData b

/-- R97: `WBUF` completes with one `WDATA` trace a byte in buffer order, and its end state is that of
the same `WDATA` commands one after another; the empty buffer emits nothing. -/
def Obligations.WbufIsWdataInOrder : Prop :=
  (∀ s, s.upc = 0 → s.hung = false → s.phase = .ready →
    exec (.wbuf []) s = .next { s with pending := [] })
  ∧ (∀ s b bs, ReadyFor (2 * (bs.length + 1)) s →
      ∃ t, exec (.wdata b) s = .next t ∧ ReadyFor (2 * bs.length) t
        ∧ exec (.wbuf (b :: bs)) s = exec (.wbuf bs) t)
  ∧ (∀ s bs, ReadyFor (2 * bs.length) s →
      ∃ t, exec (.wbuf bs) s = .next t ∧ t.upc = 0 ∧ t.hung = false
        ∧ t.out = s.out ++ bs.flatMap fun b =>
            byteTrace s.params s.transport s.params.rsData b ++ waitTrace s.params.tDataSettle)

/-! ### Display commands -/

/-- R101, R102, R116 to R119: clear, home and the four shifts send their byte and write no field of
the adapter. -/
def Obligations.ClearHomeAndShiftsSendTheirByte : Prop :=
  PlainCommand .clear 0x30 (fun p => p.opClear)
    ∧ PlainCommand .home 0x31 (fun p => p.opHome)
    ∧ PlainCommand .curl 0x54 (fun p => p.opShift)
    ∧ PlainCommand .curr 0x55 (fun p => p.opShift ||| p.shRl)
    ∧ PlainCommand .scrl 0x56 (fun p => p.opShift ||| p.shSc)
    ∧ PlainCommand .scrr 0x57 (fun p => p.opShift ||| p.shSc ||| p.shRl)
    ∧ (let p := Params.default
      p.opClear = 0x01 ∧ p.opHome = 0x02 ∧ p.opShift = 0x10 ∧ p.opShift ||| p.shRl = 0x14
        ∧ p.opShift ||| p.shSc = 0x18 ∧ p.opShift ||| p.shSc ||| p.shRl = 0x1C)

/-- R103 to R111: each flag command writes its flag, keeps the other two, and re-sends the whole
display-control instruction. -/
def Obligations.FlagCommandsResendAllThreeFlags : Prop :=
  FlagCommand .dispon 0x40 (fun _ c b => (true, c, b))
    ∧ FlagCommand .dispoff 0x41 (fun _ c b => (false, c, b))
    ∧ FlagCommand .disptgl 0x42 (fun d c b => (!d, c, b))
    ∧ FlagCommand .curon 0x43 (fun d _ b => (d, true, b))
    ∧ FlagCommand .curoff 0x44 (fun d _ b => (d, false, b))
    ∧ FlagCommand .curtgl 0x45 (fun d c b => (d, !c, b))
    ∧ FlagCommand .blnkon 0x46 (fun d c _ => (d, c, true))
    ∧ FlagCommand .blnkoff 0x47 (fun d c _ => (d, c, false))
    ∧ FlagCommand .blnktgl 0x48 (fun d c b => (d, c, !b))
    ∧ ∀ d c b, (dctrlByteOf Params.default d c b).toNat = 8 + 4 * d.toNat + 2 * c.toNat + b.toNat

/-- R28: a flag command that reads a flag nothing has written is a fault of the model. -/
def Obligations.ReadOfUnwrittenFlagFaults : Prop :=
  ∀ s, s.upc = 0 → s.phase = .ready →
    (s.cur = none ∨ s.blink = none →
      exec .dispon s = .fault .readUnwritten ∧ exec .dispoff s = .fault .readUnwritten)
    ∧ (s.disp = none ∨ s.blink = none →
      exec .curon s = .fault .readUnwritten ∧ exec .curoff s = .fault .readUnwritten)
    ∧ (s.disp = none ∨ s.cur = none →
      exec .blnkon s = .fault .readUnwritten ∧ exec .blnkoff s = .fault .readUnwritten)
    ∧ (s.disp = none ∨ s.cur = none ∨ s.blink = none →
      exec .disptgl s = .fault .readUnwritten ∧ exec .curtgl s = .fault .readUnwritten
        ∧ exec .blnktgl s = .fault .readUnwritten)

/-- R112 to R115: each entry-mode command writes both bits and sends the instruction built from them;
the display pair keeps the source's swapped direction. -/
def Obligations.EntryModeCommandsWriteBothBits : Prop :=
  EntryCommand .curinc 0x50 .cursor .inc (fun p => p.opEntry ||| p.emId)
    ∧ EntryCommand .curdec 0x51 .cursor .dec (fun p => p.opEntry)
    ∧ EntryCommand .dspinc 0x52 .display .dec (fun p => p.opEntry ||| p.emS)
    ∧ EntryCommand .dspdec 0x53 .display .inc (fun p => p.opEntry ||| p.emId ||| p.emS)
    ∧ (let p := Params.default
      p.opEntry ||| p.emId = 0x06 ∧ p.opEntry = 0x04 ∧ p.opEntry ||| p.emS = 0x05
        ∧ p.opEntry ||| p.emId ||| p.emS = 0x07)

/-- R105, R108, R111, R128: a toggle issued twice restores the flags, or the backlight bit. -/
def Obligations.TogglesAreInvolutive : Prop :=
  ∀ i s t u, (i = .disptgl ∨ i = .curtgl ∨ i = .blnktgl ∨ i = .bltgl) →
    exec i s = .next t → exec i t = .next u →
    u.disp = s.disp ∧ u.cur = s.cur ∧ u.blink = s.blink
      ∧ (i = .bltgl → u.transport = s.transport)

/-- R120: `SETCUR` sends the set-DDRAM-address base (`0x80` by default) or the base of the row plus the
column, every non-zero row being row 1, and writes no field of the adapter; at the default bases the address wraps in 7 bits. -/
def Obligations.SetcurSendsRowBasePlusColumn : Prop :=
  (∀ row col, encode (.setcur row col) = [0x32, row, col])
  ∧ (∀ s row col, ReadyFor 2 s →
    sendsFrom (.setcur row col) s s
      (s.params.opDdram ||| ((if row = 0 then s.params.row0Base else s.params.row1Base) + col)))
  ∧ ∀ row col : Byte,
      ((0x80 : Byte) ||| ((if row = 0 then 0x00 else 0x40) + col)).toNat
        = 0x80 + ((if row = 0 then 0 else 0x40) + col.toNat) % 128

/-- R121: `MKCHAR` sends the set-CGRAM-address instruction with its settle delay, then exactly the
eight glyph bytes as data, and nothing after; flags, entry mode and phase stay; R63 (b): the byte for
each slot. -/
def Obligations.MkcharSendsAddressThenEightBytes : Prop :=
  (∀ s slot g0 g1 g2 g3 g4 g5 g6 g7, ReadyFor 18 s →
    exec (.mkchar slot g0 g1 g2 g3 g4 g5 g6 g7) s = .next { s with
      out := s.out ++ byteTrace s.params s.transport (instrLevel s.params)
          (s.params.opCgram ||| (slot <<< s.params.slotShift))
        ++ waitTrace s.params.tSettle
        ++ [g0, g1, g2, g3, g4, g5, g6, g7].flatMap fun g =>
            byteTrace s.params s.transport s.params.rsData g ++ waitTrace s.params.tDataSettle
      transport := afterByte s.transport s.params.rsData g7
      bus := busAfter s.transport s.bus 18
      obs := s.obs.onItems s.params s.transport.variant
        (byteItems s.transport.variant (instrLevel s.params)
            (s.params.opCgram ||| (slot <<< s.params.slotShift))
          ++ itemsOf s.transport.variant s.params.rsData [g0, g1, g2, g3, g4, g5, g6, g7])
      pending := [] })
  ∧ ∀ slot : Byte,
      (slot.toNat < 8 → ((0x40 : Byte) ||| (slot <<< 3)).toNat = 0x40 + 8 * slot.toNat)
      ∧ (16 ≤ slot.toNat → slot.toNat < 32 → 0x80 ≤ ((0x40 : Byte) ||| (slot <<< 3)).toNat)

/-! ### Initialisation and backlight -/

/-- R125, R152: from phase Uninitialized `INIT` emits its fixed sequence and ends in phase Ready with
flags (1, 0, 0) and entry mode (cursor, inc), backlight unchanged. What the observer makes of the items
is the model's: held back while `INIT` runs, acted on at its end (log entries 9, 17). -/
def Obligations.InitReachesReady : Prop :=
  ∀ s, s.upc = 0 → s.hung = false → s.phase = .uninitialized → s.transport.linesIdle = true →
    s.busServes initTransmits = true →
    exec .init s = .next { s with
      phase := .ready
      disp := some true, cur := some false, blink := some false
      emTarget := some .cursor, emDir := some .inc
      out := s.out ++ initTrace s.params s.transport
      transport := afterByte s.transport (instrLevel s.params) (s.params.opDctrl ||| s.params.dcD)
      bus := busAfter s.transport s.bus initTransmits
      obs := ((s.obs.startInit s.transport.variant).onItems s.params s.transport.variant
        (initItems s.params s.transport.variant)).endInit s.params s.transport.variant
      pending := [] }

/-- R41, R125: at the default parameters `INIT` leaves an observer that has received, on a 4-bit
transport four lone nibbles and then five bytes, on an 8-bit transport eight bytes; the direction is
increment and the counter unknown (that clear leaves it unknown is R40 (e)'s default). That the observer
is in step then, between bytes and sure of the interface width, is the model's: R151 speaks only of the
time before, and that the preamble ends in 4-bit operation is marked by R41 as general knowledge (log
entries 9, DESIGN CHOICE, 17 and 20). -/
def Obligations.InitLeavesObserverInStep : Prop :=
  ∀ s t, s.params = Params.default → s.upc = 0 → s.hung = false → s.phase = .uninitialized →
    s.transport.linesIdle = true → exec .init s = .next t → t.hung = false →
    t.obs.pairing = .paired ∧ t.obs.iface = .matched ∧ t.obs.dir = some .inc ∧ t.obs.ac = none
      ∧ t.obs.bytes = s.obs.bytes
          ++ (if s.transport.variant.isFour then [0x28, 0x08, 0x01, 0x06, 0x0C]
              else [0x30, 0x30, 0x30, 0x38, 0x08, 0x01, 0x06, 0x0C]).map
              (fun b => ⟨some false, some b⟩)
      ∧ (s.transport.variant.isFour = true → t.obs.items.take (s.obs.items.length + 4)
          = s.obs.items ++ [.nibble (some false) (some 3), .nibble (some false) (some 3),
              .nibble (some false) (some 3), .nibble (some false) (some 2)])

/-- R152: the state after `INIT` is done, at the default parameters, on every variant: the adapter's
fields, the pins and the external latches, and what the controller has received. -/
def Obligations.StateAfterInit : Prop :=
  ∀ s t, s.params = Params.default → s.upc = 0 → s.hung = false → s.transport.linesIdle = true →
    exec .init s = .next t → t.hung = false →
    t.phase = .ready ∧ t.disp = some true ∧ t.cur = some false ∧ t.blink = some false
      ∧ t.emTarget = some .cursor ∧ t.emDir = some .inc ∧ t.upc = 0
      ∧ (∀ q, s.transport = .ph q → t.transport = .ph ⟨some false, some false, some 0xC⟩)
      ∧ (∀ q, s.transport = .pf q → t.transport = .pf ⟨some false, some false, some 0x0C⟩)
      ∧ (∀ q, s.transport = .sr q → t.transport
          = .sr ⟨some false, some false, some false, some false, some false, 0x0C, 0x0C⟩)
      ∧ (∀ port, s.transport = .i2c port →
          t.transport = .i2c { port with xp := port.layout.byte 0xC false port.bl false })
      ∧ ∃ bs, t.obs.bytes = bs ++ [if s.transport.variant.isFour then 0x28 else 0x38, 0x08, 0x01,
          0x06, 0x0C].map (fun b => ⟨some false, some b⟩)

/-- R160: at the default parameters, the time-units a command adds to those requested so far: one strobe,
`WINSTR` of any byte (so clear and home no more than any other), `WDATA` of any byte, and `INIT`, on
each variant. -/
def Obligations.RequestedDelaysAtDefaults : Prop :=
  ∀ s t (n : Nibble) (b : Byte) (d : Bool), s.params = Params.default → s.hung = false →
    t.hung = false →
    let adds := fun k => requestedDelay t.out = requestedDelay s.out + k
    let byVariant := fun ph gpio8 i2c =>
      match s.transport.variant with
      | .ph => adds ph
      | .pf | .sr => adds gpio8
      | .i2c => adds i2c
    (exec (.snib n) s = .next t → adds 3) ∧ (exec (.sbyte b) s = .next t → adds 3)
      ∧ (exec (.sshb b) s = .next t → adds 3) ∧ (exec (.si2cn d n) s = .next t → adds 0)
      ∧ (exec (.winstr b) s = .next t → byVariant 8 5 2)
      ∧ (exec .clear s = .next t ∨ exec .home s = .next t → byVariant 8 5 2)
      ∧ (exec (.wdata b) s = .next t → byVariant 6 3 0)
      ∧ (exec .init s = .next t → byVariant 116 96 74)

/-- R126 to R129: in phase Ready the backlight commands complete with no event; on I2C they write the
backlight bit and nothing else, on the other variants they change nothing. That no byte goes out at once
on I2C is the spec's own decision D12 (the state-only reading, R126), not the source's; that the
expander's output is unchanged right after is claimed here and rests on D12 alone. -/
def Obligations.BacklightCommandsAreStateOnly : Prop :=
  ∀ s, s.upc = 0 → s.hung = false → s.phase = .ready →
    (∀ port, s.transport = .i2c port →
      exec .blon s = .next { s with transport := .i2c { port with bl := true }, pending := [] }
      ∧ exec .bloff s = .next { s with transport := .i2c { port with bl := false }, pending := [] }
      ∧ exec .bltgl s
          = .next { s with transport := .i2c { port with bl := !port.bl }, pending := [] })
    ∧ (s.transport.variant ≠ .i2c →
      exec .blon s = .next { s with pending := [] } ∧ exec .bloff s = .next { s with pending := [] }
      ∧ exec .bltgl s = .next { s with pending := [] })

/-- R128: for the same command, the events after the backlight bit is flipped are the events before
it with exactly the backlight bit (bit 3 by default) of every control byte flipped; register-select and
enable are unaffected. -/
def Obligations.BacklightFlipsOnlyBitThree : Prop :=
  ∀ i s port t, i.format = .hc → s.transport = .i2c port → exec i s = .next t →
    ∃ t' evs, exec i { s with transport := .i2c { port with bl := !port.bl } } = .next t'
      ∧ t.out = s.out ++ evs ∧ t'.out = s.out ++ evs.map (flipBacklight port.layout)

/-! ### What the devices do -/

/-- The observer's side of the eight emitted instruction classes (R40, R53 to R61), whole: from every
state each completes, with this next state. The model's, not the spec's: that the byte arrives whole at
the controller (log entry 10); that while `INIT` runs it is held back to act at its end (log entries 9,
10); that with the interface width unknown its effect is, and counter, direction and memories go (log
entries 9, 10); and, where the spec gives no effect inside the controller, what the
observer forgets (log entry 9): after clear and home the direction and both memories too, after a
cursor move the counter, after an address without a place the counter, after a function-set of the
other width everything and the width, after one of another shape everything else. -/
def Obligations.InstructionBytesAtTheController : Prop :=
  ∀ s,
    let p := s.params
    let cleared := fun (o : Observer) =>
      if p.clearHomes then
        { forgotten o with space := some .ddram, ac := if ddramValid p 0 then some 0 else none }
      else forgotten o
    Arrives .lcdClear s p.opClear cleared
    ∧ Arrives .lcdHome s p.opHome cleared
    ∧ (∀ x y, Arrives (.lcdEntry x y) s (p.opEntry ||| bitIf x p.emId ||| bitIf y p.emS)
        fun o => { o with dir := some (if x then .inc else .dec) })
    ∧ (∀ x y z, Arrives (.lcdDctrl x y z) s (dctrlByteOf p x y z) fun o => o)
    ∧ (∀ y, Arrives (.lcdShift true y) s (p.opShift ||| p.shSc ||| bitIf y p.shRl) fun o => o)
    ∧ (∀ y, Arrives (.lcdShift false y) s (p.opShift ||| bitIf y p.shRl)
        fun o => { o with ac := none })
    ∧ (∀ l n f, Arrives (.lcdFset l n f) s
        (p.opFset ||| bitIf l p.fsDl ||| bitIf n p.fsN ||| bitIf f p.fsF)
        fun o =>
          if l = s.transport.variant.isFour then { forgotten o with iface := .unknown }
          else if n = true ∧ f = false then o else forgotten o)
    ∧ (∀ a : BitVec 6, Arrives (.lcdSetcg a) s (p.opCgram ||| a.setWidth 8)
        fun o => { o with
          space := some .cgram, ac := if cgramValid p a.toNat then some a.toNat else none })
    ∧ (∀ a : BitVec 7, Arrives (.lcdSetdd a) s (p.opDdram ||| a.setWidth 8)
        fun o => { o with
          space := some .ddram, ac := if ddramValid p a.toNat then some a.toNat else none })

/-- R40, R41, R166: an instruction byte that comes over the wire does to an observer in step what the
row of the opcode table it stands for does, the parameters being what they are; one of no class leaves
nothing known (U6). -/
def Obligations.WireBytesActAsTheirRow : Prop :=
  ∀ s b t, ReadyFor 2 s → s.inStep = true → exec (.winstr b) s = .next t →
    let its := s.obs.items ++ byteItems s.transport.variant (instrLevel s.params) b
    let bs := s.obs.bytes ++ [⟨some (instrLevel s.params), some b⟩]
    (∀ i, decodeLcdiFor s.params b = some i →
      ∃ u, exec i s = .next u ∧ t.obs = { u.obs with items := its, bytes := bs }
        ∧ (s.params = Params.default → u.obs.bytes = bs))
    ∧ (decodeLcdiFor s.params b = none →
      t.obs = { s.obs with
        items := its, bytes := bs, iface := .unknown, space := none, ac := none, dir := none
        ddram := [], cgram := [] })

/-- R40, R112 to R119, R166, at the default parameters, for an observer in step: the entry-mode commands
turn its direction, the cursor moves make its counter unknown, scrolling and the flag commands leave
both, and a function-set of the other width sent raw makes width, space, counter and direction
unknown. What the observer forgets
after a cursor move, and after clear and home, is the model's (log entry 9). -/
def Obligations.CommandsActOnTheObserver : Prop :=
  ∀ i s t, ReadyFor 2 s → s.params = Params.default → s.inStep = true → exec i s = .next t →
    let counter := t.obs.space = s.obs.space ∧ t.obs.ac = s.obs.ac
    let turned := fun d => t.obs.dir = some d ∧ counter ∧ t.obs.iface = .matched
    ((i = .curinc ∨ i = .dspdec) → turned .inc)
    ∧ ((i = .curdec ∨ i = .dspinc) → turned .dec)
    ∧ ((i = .curl ∨ i = .curr) → t.obs.ac = none ∧ t.obs.space = s.obs.space
        ∧ t.obs.dir = s.obs.dir ∧ t.obs.iface = .matched)
    ∧ ((i = .scrl ∨ i = .scrr ∨ isFlagCommand i = true) →
        counter ∧ t.obs.dir = s.obs.dir ∧ t.obs.iface = .matched)
    ∧ ((i = .clear ∨ i = .home) → t.obs.space = none ∧ t.obs.ac = none ∧ t.obs.dir = none
        ∧ t.obs.iface = .matched)
    ∧ ∀ l n f, (∃ b, i = .winstr b ∧ decodeLcdi b = some (.lcdFset l n f)) →
        l = s.transport.variant.isFour → t.obs.iface = .unknown ∧ t.obs.space = none
          ∧ t.obs.ac = none ∧ t.obs.dir = none

/-- R22, R38, R62: a control byte replaces `XP`; where the enable bit falls the controller latches the
nibble of the byte that had it set. That a variant without an expander refuses it is the model's (log
entry 11, DESIGN CHOICE). -/
def Obligations.ControlByteAtTheExpander : Prop :=
  ∀ s n bl en rs,
    (∀ port, s.transport = .i2c port →
      (port.xp.getLsbD port.layout.enBit = true → en = false →
        exec (.i2cCtrl n bl en rs) s = .next { s with
          transport := .i2c { port with xp := port.layout.byte n rs bl en }
          obs := s.obs.onItem s.params .i2c
            (.nibble (some (port.xp.getLsbD port.layout.rsBit))
              (some (port.xp.extractLsb' port.layout.nibbleBit 4))) })
      ∧ ((port.xp.getLsbD port.layout.enBit = false ∨ en = true) →
        exec (.i2cCtrl n bl en rs) s
          = .next { s with transport := .i2c { port with xp := port.layout.byte n rs bl en } }))
    ∧ (s.transport.variant ≠ .i2c → exec (.i2cCtrl n bl en rs) s = .refused .noExpander)

/-- R39: what the controller latches is what stands on its lines, wired as R39 says, at the moment the
enable line is high and falls, at a pin event or at a byte that reaches the expander; and after a
byte has gone out the lines still show it (its low half on a 4-bit transport). -/
def Obligations.LatchedItemIsOnTheLines : Prop :=
  (∀ t l it, ((t : Transport).take (.e l)).2 = [it] →
    l = false ∧ t.enableLine = some true ∧ it.onLines t)
  ∧ (∀ port b it, ((port : I2cPort).take b).2 = [it] →
    (Transport.i2c port).enableLine = some true
      ∧ (Transport.i2c (port.take b).1).enableLine = some false ∧ it.onLines (.i2c port))
  ∧ ∀ t l b,
    ((t : Transport).variant.isFour = false →
      ∀ i, i < 8 → (afterByte t l b).dataLine i = some (b.getLsbD i))
    ∧ (t.variant.isFour = true →
      ∀ i, i < 4 → (afterByte t l b).dataLine (4 + i) = some (b.getLsbD i))

/-- R40 (c), (d): for an observer in step whose counter is known, `WDATA b` writes b there, leaves
every other byte of both memories, and moves the counter as the direction says, to unknown where it
would leave the space's addresses or the direction is unknown; the space stays. -/
def Obligations.DataByteWritesAtTheCounter : Prop :=
  ∀ s t b sp a, ReadyFor 2 s → s.inStep = true → s.obs.ddram.wf → s.obs.cgram.wf →
    s.obs.space = some sp → s.obs.ac = some a → exec (.wdata b) s = .next t →
    t.obs.space = some sp
      ∧ (sp = .ddram → t.obs.ddram.read a = some b ∧ t.obs.cgram = s.obs.cgram
          ∧ ∀ c, c ≠ a → t.obs.ddram.read c = s.obs.ddram.read c)
      ∧ (sp = .cgram → t.obs.cgram.read a = some b ∧ t.obs.ddram = s.obs.ddram
          ∧ ∀ c, c ≠ a → t.obs.cgram.read c = s.obs.cgram.read c)
      ∧ (s.obs.dir = some .inc →
          t.obs.ac = if addrValid s.params sp (a + 1) then some (a + 1) else none)
      ∧ (s.obs.dir = some .dec →
          t.obs.ac = if 0 < a ∧ addrValid s.params sp (a - 1) = true then some (a - 1) else none)
      ∧ (s.obs.dir = none → t.obs.ac = none)

/-- R40 (c), "if `AC_space` is unknown the write goes to an unknown place": with an unknown counter the
whole of the space it points into is unknown after `WDATA`, with an unknown space both memories are, and
nothing is learnt of the counter. How much is forgotten is the model's (log entry 8). -/
def Obligations.DataByteToAnUnknownPlace : Prop :=
  ∀ s t b, ReadyFor 2 s → s.inStep = true → exec (.wdata b) s = .next t →
    (∀ sp, s.obs.space = some sp → s.obs.ac = none →
      t.obs.space = some sp ∧ t.obs.ac = none
        ∧ (sp = .ddram → t.obs.ddram = [] ∧ t.obs.cgram = s.obs.cgram)
        ∧ (sp = .cgram → t.obs.cgram = [] ∧ t.obs.ddram = s.obs.ddram))
    ∧ (s.obs.space = none →
      t.obs.space = none ∧ t.obs.ac = none ∧ t.obs.ddram = [] ∧ t.obs.cgram = [])

/-- What `WINSTR` and `WDATA` do to an observer that is between bytes in phase Ready and no longer knows
the interface width, as after a raw function-set of the other width (R166): the byte is recorded and
nothing else is learnt, whatever it is, nor kept of counter, direction and memories. That is the model's
(log entry 9, DESIGN CHOICE) and goes beyond R40 and R166. -/
def Obligations.UnknownWidthLearnsNothing : Prop :=
  ∀ s t b, ReadyFor 2 s → s.obs.pairing = .paired → s.obs.iface = .unknown →
    let blind := fun (level : Bool) =>
      t.obs.bytes = s.obs.bytes ++ [⟨some level, some b⟩] ∧ t.obs.iface = .unknown
        ∧ t.obs.space = none ∧ t.obs.ac = none ∧ t.obs.dir = none ∧ t.obs.ddram = []
        ∧ t.obs.cgram = []
    (exec (.winstr b) s = .next t → blind (instrLevel s.params))
      ∧ (exec (.wdata b) s = .next t → blind s.params.rsData)

/-- R167, R36 (b): on the 4-bit transports a lone nibble between bytes is held as a high half, and from
then on every byte is read as the low half of one byte and the high half of the next. The
register-select of a byte of unlike halves is unknown, which is the model's (log entry 17). -/
def Obligations.LoneNibbleShiftsThePairing : Prop :=
  (∀ s q n t, s.transport = .ph q → s.transport.linesIdle = true → s.hung = false →
      s.obs.pairing = .paired → exec (.snib n) s = .next t →
      t.obs.pairing = .half q.rs (some n) ∧ t.obs.bytes = s.obs.bytes)
  ∧ (∀ s d n t, s.transport.linesIdle = true → s.hung = false → s.obs.pairing = .paired →
      exec (.si2cn d n) s = .next t → t.hung = false →
      t.obs.pairing = .half (some (if d then s.params.rsData else !s.params.rsData)) (some n)
        ∧ t.obs.bytes = s.obs.bytes)
  ∧ ∀ s rs hi b t, ReadyFor 2 s → s.transport.variant.isFour = true →
      s.obs.pairing = .half rs hi →
      let shifted := fun (level : Bool) =>
        t.obs.pairing = .half (some level) (some (loNibble b))
          ∧ t.obs.bytes = s.obs.bytes ++ [⟨if rs = some level then rs else none,
              hi.map fun h => joinNibbles h (hiNibble b)⟩]
      (exec (.winstr b) s = .next t → shifted (instrLevel s.params))
        ∧ (exec (.wdata b) s = .next t → shifted s.params.rsData)

/-- R31, R40 (a): at the default parameters, with row and column in range, `SETCUR` points an
observer in step at DDRAM, at the row's base plus the column. -/
def Obligations.SetcurPointsTheCounter : Prop :=
  ∀ s t row col, ReadyFor 2 s → s.params = Params.default → s.inStep = true → row.toNat ≤ 1 →
    col.toNat ≤ 39 → exec (.setcur row col) s = .next t →
    t.obs.space = some .ddram ∧ t.obs.ac = some (0x40 * row.toNat + col.toNat)

/-- R101 to R120, frame of the controller's memories: to an observer in step the instruction-sending
commands store nothing. Every byte of both memories reads as before or is no longer known, whatever
the parameters; at the default parameters it reads as before, but for clear and home, whose effect
inside the controller the spec does not give, so that none is known (log entry 9). -/
def Obligations.InstructionCommandsStoreNothing : Prop :=
  ∀ i s t a, ReadyFor 2 s → s.inStep = true → exec i s = .next t →
    let plain := i = .dispon ∨ i = .dispoff ∨ i = .disptgl ∨ i = .curon ∨ i = .curoff ∨ i = .curtgl
      ∨ i = .blnkon ∨ i = .blnkoff ∨ i = .blnktgl ∨ i = .curinc ∨ i = .curdec ∨ i = .dspinc
      ∨ i = .dspdec ∨ i = .curl ∨ i = .curr ∨ i = .scrl ∨ i = .scrr
      ∨ ∃ row col, i = .setcur row col
    let wipes := i = .clear ∨ i = .home
    ((plain ∨ wipes ∨ ∃ b, i = .winstr b) →
      (t.obs.ddram.read a = s.obs.ddram.read a ∨ t.obs.ddram.read a = none)
        ∧ (t.obs.cgram.read a = s.obs.cgram.read a ∨ t.obs.cgram.read a = none))
    ∧ (plain → s.params = Params.default →
      t.obs.ddram.read a = s.obs.ddram.read a ∧ t.obs.cgram.read a = s.obs.cgram.read a)
    ∧ (wipes → s.params = Params.default →
      t.obs.ddram.read a = none ∧ t.obs.cgram.read a = none)

/-- R121, R161: at the default parameters, with the slot in range and increment direction, `MKCHAR`
fills exactly the eight CGRAM bytes of the slot, leaves every other byte of both memories, and leaves
the counter in CGRAM just after the glyph (unknown after the last slot). -/
def Obligations.MkcharLeavesCounterInCgram : Prop :=
  ∀ s t slot g0 g1 g2 g3 g4 g5 g6 g7, ReadyFor 18 s → s.params = Params.default →
    s.inStep = true → s.obs.cgram.wf → s.obs.dir = some .inc → slot.toNat < 8 →
    exec (.mkchar slot g0 g1 g2 g3 g4 g5 g6 g7) s = .next t →
    t.obs.space = some .cgram
      ∧ t.obs.ac = (if slot.toNat < 7 then some (8 * slot.toNat + 8) else none)
      ∧ (∀ j, j < 8 → t.obs.cgram.read (8 * slot.toNat + j)
          = [g0, g1, g2, g3, g4, g5, g6, g7][j]?)
      ∧ (∀ a, a < 8 * slot.toNat ∨ 8 * slot.toNat + 8 ≤ a →
          t.obs.cgram.read a = s.obs.cgram.read a)
      ∧ t.obs.ddram = s.obs.ddram

/-! ### Invariants and whole-machine rules -/

/-- R37, R66, R87: in what a host command adds to the trace no line moves while the enable line is
high, and every transmit is one enable pulse with read/write 0. -/
def Obligations.NothingMovesWhileEnableIsHigh : Prop :=
  ∀ i s t, i.format = .hc → s.hung = false → exec i s = .next t →
    ∃ evs, t.out = s.out ++ evs ∧ strobesClean s.transport.layout false evs = true

/-- R20, R43: every step only appends to the trace, the logical stream and the logical bytes. -/
def Obligations.StepOnlyAppends : Prop :=
  ∀ s t, step s = .next t →
    (∃ evs, t.out = s.out ++ evs) ∧ (∃ its, t.obs.items = s.obs.items ++ its)
      ∧ ∃ bs, t.obs.bytes = s.obs.bytes ++ bs

/-- R16, R17, R18: the display flags are written by `INIT` and the nine flag commands alone, the
entry-mode bits by `INIT` and the four entry-mode commands alone, the backlight bit by the three
backlight commands alone. -/
def Obligations.EachFieldHasItsWriters : Prop :=
  ∀ i s t, exec i s = .next t →
    (i ≠ .init → isFlagCommand i = false →
        t.disp = s.disp ∧ t.cur = s.cur ∧ t.blink = s.blink)
      ∧ (i ≠ .init → isEntryCommand i = false → t.emTarget = s.emTarget ∧ t.emDir = s.emDir)
      ∧ (isBacklightCommand i = false → backlightBit t.transport = backlightBit s.transport)

/-- R70: the trace equalities an assembler may use, the shifts at the default parameters; a
display-flag or entry-mode command equals a `WINSTR` in trace. -/
def Obligations.ExpansionsHaveTheSameTrace : Prop :=
  ∀ s, s.hung = false →
    exec .clear s = exec (.winstr s.params.opClear) s ∧ exec .home s = exec (.winstr s.params.opHome) s
    ∧ (s.params = Params.default →
        exec .clear s = exec (.winstr 0x01) s ∧ exec .home s = exec (.winstr 0x02) s ∧
        exec .curl s = exec (.winstr 0x10) s ∧ exec .curr s = exec (.winstr 0x14) s
        ∧ exec .scrl s = exec (.winstr 0x18) s ∧ exec .scrr s = exec (.winstr 0x1C) s
        ∧ ∀ row col, exec (.setcur row col) s
            = exec (.winstr (0x80 ||| ((if row = 0 then 0x00 else 0x40) + col))) s)
    ∧ (∀ b, exec (.wdata b) s = exec (.wbuf [b]) s)
    ∧ (∀ b c bs t u, exec (.wdata b) s = .next t → t.hung = false →
        exec (.wbuf (c :: bs)) t = .next u →
        ∃ w, exec (.wbuf (b :: c :: bs)) s = .next w ∧ w.out = u.out)
    ∧ (∀ (slot g0 g1 g2 g3 g4 g5 g6 g7 : Byte) t u,
        exec (.winstr (s.params.opCgram ||| (slot <<< s.params.slotShift))) s = .next t →
        t.hung = false → exec (.wbuf [g0, g1, g2, g3, g4, g5, g6, g7]) t = .next u →
        ∃ w, exec (.mkchar slot g0 g1 g2 g3 g4 g5 g6 g7) s = .next w ∧ w.out = u.out)
    ∧ ∀ i t, isFlagCommand i = true ∨ isEntryCommand i = true → exec i s = .next t →
        ∃ b u, exec (.winstr b) s = .next u ∧ u.out = t.out

/-- Every step keeps the observer's memories canonical and its addresses inside the places the spec
gives (R31, R32, R40), from every state. -/
def Obligations.StepKeepsMemoriesPlaced : Prop :=
  ∀ s t, MemoriesPlaced s → step s = .next t → MemoriesPlaced t

/-- Every step keeps idle-or-stuck and flags-written-in-Ready (R15, R28, R136). -/
def Obligations.StepKeepsSequenced : Prop :=
  ∀ s t, Sequenced s → step s = .next t → Sequenced t

/-- Every step without device input leaves the enable line and the shift clock low between commands (R77,
R78, R87), where a pin that nothing has written counts as low (log entry 22). -/
def Obligations.StepKeepsLinesRest : Prop :=
  ∀ s t, LinesRest s → step s = .next t → LinesRest t

/-- Every step without device input keeps pins, external latches and the logical stream equal to the
replay of the trace from construction (R20, R21, R22, R38). -/
def Obligations.StepKeepsTraceExplains : Prop :=
  ∀ s t, TraceExplains s → step s = .next t → TraceExplains t

/-- Every step, device input or not, keeps the observer ignorant until `INIT` has completed: of interface
width, nibble phase and counter (R151), of direction and memories (U10). The logical bytes of a running
`INIT` are recorded, and held back, by the pairing of R41, which is the model's bookkeeping (log entries
9, 17). -/
def Obligations.StepKeepsUnknownBeforeInit : Prop :=
  ∀ s t, UnknownBeforeInit s → step s = .next t → UnknownBeforeInit t

/-- The invariants hold at construction, whatever the parameters, the transport and the platform, and
so at reset. `LinesRest` and `TraceExplains` there rest on the model's `XP` = 0 and latches 0 at
power-on (log entry 2, DESIGN CHOICE) and on unwritten pins counting as low (log entry 22). -/
def Obligations.ConstructionMeetsTheInvariants : Prop :=
  ∀ p w bus,
    let s := State.construct p w bus
    MemoriesPlaced s ∧ Sequenced s ∧ LinesRest s ∧ TraceExplains s ∧ UnknownBeforeInit s

/-- R15, last sentence: emitting one event a step and running the whole command as one step give the
same state, trace included, hung or not. -/
def Obligations.EventStepsGiveTheWholeCommand : Prop :=
  ∀ (s : State) (ms : List Micro), s.upc = 0 → s.hung = false →
    State.tick^[ms.countP Micro.isEvent - 1] (s.tickFrom ms) = s.run ms

/-- R136, last sentence: a GPIO variant is never stuck by a host command. -/
def Obligations.GpioVariantsNeverStick : Prop :=
  ∀ i s t, i.format = .hc → s.transport.variant ≠ .i2c → s.hung = false → exec i s = .next t →
    t.hung = false

/-- R136, R137: a host command that ends stuck was on the I2C variant, with a transmit the last of the
events it added, `s.upc` at the position of that transmit (as many as it added), the phase what it was
(Initializing if the command is `INIT`); no step and no command leaves that state. That the step out of
it is the fault `i2cStuck` is the model's (log entry 4, DESIGN CHOICE). -/
def Obligations.StuckStateIsFinal : Prop :=
  ∀ i s t, i.format = .hc → s.upc = 0 → s.hung = false → exec i s = .next t → t.hung = true →
    s.transport.variant = .i2c
      ∧ (∃ evs d b0 b1 b2, t.out = s.out ++ evs ∧ t.upc = evs.length
          ∧ evs.getLast? = some (.i2c d b0 b1 b2))
      ∧ t.phase = (if i = .init then .initializing else s.phase)
      ∧ (∀ u, step t ≠ .next u)
      ∧ (t.shared = false → t.hostWaits = true ∨ t.hostIn = [] → step t = .fault .i2cStuck)
      ∧ ∀ j, j.format = .hc → exec j t = .refused .busy

/-- R100, R136: when the first transmit of `DISPON` never completes, the flag is already written, the
one frame is in the trace, and how much of it reached the expander is not known. -/
def Obligations.StuckDisponHasWrittenItsFlag : Prop :=
  ∀ s port c b, s.upc = 0 → s.hung = false → s.phase = .ready → s.transport = .i2c port →
    s.bus = some 0 → s.cur = some c → s.blink = some b →
    ∃ t, exec .dispon s = .next t ∧ t.hung = true ∧ t.upc = 1 ∧ t.disp = some true
      ∧ t.cur = some c ∧ t.blink = some b ∧ t.phase = .ready
      ∧ t.out = s.out ++ [frameTrace port (instrLevel s.params)
          (hiNibble (dctrlByteOf s.params true c b))]
      ∧ ∃ x, t.transport = .i2c { port with xp := x }
          ∧ x ∈ [port.xp, port.layout.byte (hiNibble (dctrlByteOf s.params true c b)) (instrLevel s.params)
              port.bl false, port.layout.byte (hiNibble (dctrlByteOf s.params true c b))
              (instrLevel s.params) port.bl true]

/-- R1, R89: transports are interchangeable. The same layer B or C command, from two states in step
with the same parameters and flags, delivers the same logical bytes on any two variants. -/
def Obligations.LogicalBytesDoNotDependOnTheTransport : Prop :=
  ∀ i s1 s2 t1 t2, needsReady i = true →
    s1.params = s2.params → s1.disp = s2.disp → s1.cur = s2.cur → s1.blink = s2.blink →
    s1.upc = 0 → s1.hung = false → s1.transport.linesIdle = true → s1.obs.pairing = .paired →
    s2.upc = 0 → s2.hung = false → s2.transport.linesIdle = true → s2.obs.pairing = .paired →
    exec i s1 = .next t1 → exec i s2 = .next t2 → t1.hung = false → t2.hung = false →
    ∃ bs, t1.obs.bytes = s1.obs.bytes ++ bs ∧ t2.obs.bytes = s2.obs.bytes ++ bs

/-- R27: at the default parameters, `INIT` makes the flags and entry-mode bits mirror the last
display-control and entry-mode instructions sent, and every facade command that finishes keeps it. -/
def Obligations.FlagsMirrorTheLastInstructionSent : Prop :=
  (∀ s t, s.params = Params.default → s.upc = 0 → s.hung = false → s.transport.linesIdle = true →
    exec .init s = .next t → t.hung = false → Mirrors t)
  ∧ ∀ i s t, i.format = .hc → instrFacade i = true → s.params = Params.default → s.hung = false →
      Mirrors s → exec i s = .next t → t.hung = false → Mirrors t

/-- The phase moves only through `INIT`, and no command leaves Ready (R14); parameters, bus handle
and device address never change (R12). -/
def Obligations.OnlyInitMovesThePhase : Prop :=
  ∀ i s t, exec i s = .next t →
    t.params = s.params ∧ t.transport.variant = s.transport.variant
      ∧ (i ≠ .init → t.phase = s.phase)
      ∧ (i = .init → s.phase = .uninitialized)
      ∧ ∀ port, s.transport = .i2c port → ∃ port', t.transport = .i2c port' ∧ port'.dest = port.dest
          ∧ port'.layout = port.layout
end

