-- ==== Sys2Proof/Laws/Layout.lean ====
section
/-! SUPPORT. The I2C control byte under any layout: every field reads back as it was written (R62). -/

namespace Sys2Proof

/-- One bit of a control byte: the nibble's, or that of the one-bit field that stands there (R62). -/
theorem CtlLayout.byte_bit (l : CtlLayout) (n : Nibble) (rs bl en : Bool) (i : Nat) (hi : i < 8) :
    (l.byte n rs bl en).getLsbD i =
      ((decide (l.nibbleBit ≤ i) && n.getLsbD (i - l.nibbleBit)) || (bl && decide (i = l.blBit))
        || (en && decide (i = l.enBit)) || (rs && decide (i = l.rsBit))) := by
  have one : ∀ (c : Bool) (k : Nat), (bitIf c (oneBit k)).getLsbD i = (c && decide (i = k)) := by
    intro c k
    cases c
    · simp [bitIf]
    · by_cases e : i = k
      · subst e; simp [bitIf, oneBit, hi]
      · simp [bitIf, oneBit, BitVec.getLsbD_twoPow, e, Ne.symm e]
  have nib : ((n.setWidth 8) <<< l.nibbleBit : Byte).getLsbD i
      = (decide (l.nibbleBit ≤ i) && n.getLsbD (i - l.nibbleBit)) := by
    by_cases h : i < l.nibbleBit
    · have : ¬ l.nibbleBit ≤ i := by omega
      simp [h, this]
    · have : l.nibbleBit ≤ i := by omega
      simp [hi, h, this]
  simp only [CtlLayout.byte, BitVec.getLsbD_or, one, nib]

/-- A control byte reads back as what it was built from, its read/write bit as 0 (R62). -/
theorem CtlLayout.byte_fields (l : CtlLayout) (n : Nibble) (rs bl en : Bool) :
    (l.byte n rs bl en).getLsbD l.enBit = en ∧ (l.byte n rs bl en).getLsbD l.rsBit = rs
      ∧ (l.byte n rs bl en).getLsbD l.blBit = bl ∧ (l.byte n rs bl en).getLsbD l.rwBit = false
      ∧ l.nibbleOf (l.byte n rs bl en) = n := by
  obtain ⟨h1, h2, h3, h4, h5⟩ := l.inByte
  have ha := l.apart
  simp only [List.nodup_cons, List.mem_cons, List.not_mem_nil, or_false, not_or] at ha
  obtain ⟨⟨a1, a2, a3, a4, a5, a6, a7⟩, ⟨b2, b3, b4, b5, b6, b7⟩, ⟨c3, c4, c5, c6, c7⟩,
    ⟨d4, d5, d6, d7⟩, -⟩ := ha
  have out : ∀ k, k < 8 → k ≠ l.nibbleBit → k ≠ l.nibbleBit + 1 → k ≠ l.nibbleBit + 2 →
      k ≠ l.nibbleBit + 3 → (decide (l.nibbleBit ≤ k) && n.getLsbD (k - l.nibbleBit)) = false := by
    intro k _ e0 e1 e2 e3
    by_cases h : l.nibbleBit ≤ k
    · rw [BitVec.getLsbD_of_ge n (k - l.nibbleBit) (by omega)]; simp
    · simp [h]
  refine ⟨?_, ?_, ?_, ?_, ?_⟩
  · rw [byte_bit _ _ _ _ _ _ h3, out _ h3 c4 c5 c6 c7]; simp [c3, Ne.symm a2]
  · rw [byte_bit _ _ _ _ _ _ h1, out _ h1 a4 a5 a6 a7]; simp [a3, a2]
  · rw [byte_bit _ _ _ _ _ _ h4, out _ h4 d4 d5 d6 d7]; simp [Ne.symm c3, Ne.symm a3]
  · rw [byte_bit _ _ _ _ _ _ h2, out _ h2 b4 b5 b6 b7]; simp [b2, b3, Ne.symm a1]
  · apply BitVec.eq_of_getLsbD_eq
    intro i hi
    rw [CtlLayout.nibbleOf, BitVec.getLsbD_extractLsb', byte_bit _ _ _ _ _ _ (by omega)]
    have e1 : l.nibbleBit + i ≠ l.blBit := by
      match i, hi with | 0, _ | 1, _ | 2, _ | 3, _ => omega
    have e2 : l.nibbleBit + i ≠ l.enBit := by
      match i, hi with | 0, _ | 1, _ | 2, _ | 3, _ => omega
    have e3 : l.nibbleBit + i ≠ l.rsBit := by
      match i, hi with | 0, _ | 1, _ | 2, _ | 3, _ => omega
    simp [hi, e1, e2, e3]

@[simp] theorem CtlLayout.byte_en (l : CtlLayout) (n : Nibble) (rs bl en : Bool) :
    (l.byte n rs bl en).getLsbD l.enBit = en := (l.byte_fields n rs bl en).1

@[simp] theorem CtlLayout.byte_rs (l : CtlLayout) (n : Nibble) (rs bl en : Bool) :
    (l.byte n rs bl en).getLsbD l.rsBit = rs := (l.byte_fields n rs bl en).2.1

@[simp] theorem CtlLayout.byte_bl (l : CtlLayout) (n : Nibble) (rs bl en : Bool) :
    (l.byte n rs bl en).getLsbD l.blBit = bl := (l.byte_fields n rs bl en).2.2.1

@[simp] theorem CtlLayout.byte_rw (l : CtlLayout) (n : Nibble) (rs bl en : Bool) :
    (l.byte n rs bl en).getLsbD l.rwBit = false := (l.byte_fields n rs bl en).2.2.2.1

@[simp] theorem CtlLayout.nibbleOf_byte (l : CtlLayout) (n : Nibble) (rs bl en : Bool) :
    l.nibbleOf (l.byte n rs bl en) = n := (l.byte_fields n rs bl en).2.2.2.2

end Sys2Proof
end

