-- ==== Sys2Proof/Laws/State.lean ====
section
/-! SUPPORT. One lemma per field per update of `State`, so that no proof unfolds a record update. -/

namespace Sys2Proof.Machine

@[simp] theorem State.record_params (s : State) (ev : Event) : (s.record ev).params = s.params := rfl
@[simp] theorem State.record_transport (s : State) (ev : Event) : (s.record ev).transport = s.transport := rfl
@[simp] theorem State.record_phase (s : State) (ev : Event) : (s.record ev).phase = s.phase := rfl
@[simp] theorem State.record_upc (s : State) (ev : Event) : (s.record ev).upc = s.upc + 1 := rfl
@[simp] theorem State.record_disp (s : State) (ev : Event) : (s.record ev).disp = s.disp := rfl
@[simp] theorem State.record_cur (s : State) (ev : Event) : (s.record ev).cur = s.cur := rfl
@[simp] theorem State.record_blink (s : State) (ev : Event) : (s.record ev).blink = s.blink := rfl
@[simp] theorem State.record_emTarget (s : State) (ev : Event) : (s.record ev).emTarget = s.emTarget := rfl
@[simp] theorem State.record_emDir (s : State) (ev : Event) : (s.record ev).emDir = s.emDir := rfl
@[simp] theorem State.record_out (s : State) (ev : Event) : (s.record ev).out = s.out ++ [ev] := rfl
@[simp] theorem State.record_obs (s : State) (ev : Event) : (s.record ev).obs = s.obs := rfl
@[simp] theorem State.record_pending (s : State) (ev : Event) : (s.record ev).pending = s.pending := rfl
@[simp] theorem State.record_hung (s : State) (ev : Event) : (s.record ev).hung = s.hung := rfl
@[simp] theorem State.record_bus (s : State) (ev : Event) : (s.record ev).bus = s.bus := rfl
@[simp] theorem State.record_freeCount (s : State) (ev : Event) : (s.record ev).freeCount = s.freeCount := rfl
@[simp] theorem State.record_hostIn (s : State) (ev : Event) : (s.record ev).hostIn = s.hostIn := rfl
@[simp] theorem State.record_hostWaits (s : State) (ev : Event) : (s.record ev).hostWaits = s.hostWaits := rfl
@[simp] theorem State.record_shared (s : State) (ev : Event) : (s.record ev).shared = s.shared := rfl
@[simp] theorem State.record_devIn (s : State) (ev : Event) : (s.record ev).devIn = s.devIn := rfl

@[simp] theorem State.latch_params (s : State) (r : Transport × List Item) : (s.latch r).params = s.params := rfl
@[simp] theorem State.latch_transport (s : State) (r : Transport × List Item) : (s.latch r).transport = r.1 := rfl
@[simp] theorem State.latch_phase (s : State) (r : Transport × List Item) : (s.latch r).phase = s.phase := rfl
@[simp] theorem State.latch_upc (s : State) (r : Transport × List Item) : (s.latch r).upc = s.upc := rfl
@[simp] theorem State.latch_disp (s : State) (r : Transport × List Item) : (s.latch r).disp = s.disp := rfl
@[simp] theorem State.latch_cur (s : State) (r : Transport × List Item) : (s.latch r).cur = s.cur := rfl
@[simp] theorem State.latch_blink (s : State) (r : Transport × List Item) : (s.latch r).blink = s.blink := rfl
@[simp] theorem State.latch_emTarget (s : State) (r : Transport × List Item) : (s.latch r).emTarget = s.emTarget := rfl
@[simp] theorem State.latch_emDir (s : State) (r : Transport × List Item) : (s.latch r).emDir = s.emDir := rfl
@[simp] theorem State.latch_out (s : State) (r : Transport × List Item) : (s.latch r).out = s.out := rfl
@[simp] theorem State.latch_obs (s : State) (r : Transport × List Item) :
    (s.latch r).obs =
      s.obs.onItems s.params s.transport.variant r.2 := rfl
@[simp] theorem State.latch_pending (s : State) (r : Transport × List Item) : (s.latch r).pending = s.pending := rfl
@[simp] theorem State.latch_hung (s : State) (r : Transport × List Item) : (s.latch r).hung = s.hung := rfl
@[simp] theorem State.latch_bus (s : State) (r : Transport × List Item) : (s.latch r).bus = s.bus := rfl
@[simp] theorem State.latch_freeCount (s : State) (r : Transport × List Item) : (s.latch r).freeCount = s.freeCount := rfl
@[simp] theorem State.latch_hostIn (s : State) (r : Transport × List Item) : (s.latch r).hostIn = s.hostIn := rfl
@[simp] theorem State.latch_hostWaits (s : State) (r : Transport × List Item) : (s.latch r).hostWaits = s.hostWaits := rfl
@[simp] theorem State.latch_shared (s : State) (r : Transport × List Item) : (s.latch r).shared = s.shared := rfl
@[simp] theorem State.latch_devIn (s : State) (r : Transport × List Item) : (s.latch r).devIn = s.devIn := rfl

@[simp] theorem State.finish_params (s : State) : (s.finish).params = s.params := rfl
@[simp] theorem State.finish_transport (s : State) : (s.finish).transport = s.transport := rfl
@[simp] theorem State.finish_phase (s : State) : (s.finish).phase = s.phase := rfl
@[simp] theorem State.finish_upc (s : State) : (s.finish).upc = 0 := rfl
@[simp] theorem State.finish_disp (s : State) : (s.finish).disp = s.disp := rfl
@[simp] theorem State.finish_cur (s : State) : (s.finish).cur = s.cur := rfl
@[simp] theorem State.finish_blink (s : State) : (s.finish).blink = s.blink := rfl
@[simp] theorem State.finish_emTarget (s : State) : (s.finish).emTarget = s.emTarget := rfl
@[simp] theorem State.finish_emDir (s : State) : (s.finish).emDir = s.emDir := rfl
@[simp] theorem State.finish_out (s : State) : (s.finish).out = s.out := rfl
@[simp] theorem State.finish_obs (s : State) : (s.finish).obs = s.obs := rfl
@[simp] theorem State.finish_pending (s : State) : (s.finish).pending = [] := rfl
@[simp] theorem State.finish_hung (s : State) : (s.finish).hung = s.hung := rfl
@[simp] theorem State.finish_bus (s : State) : (s.finish).bus = s.bus := rfl
@[simp] theorem State.finish_freeCount (s : State) : (s.finish).freeCount = s.freeCount := rfl
@[simp] theorem State.finish_hostIn (s : State) : (s.finish).hostIn = s.hostIn := rfl
@[simp] theorem State.finish_hostWaits (s : State) : (s.finish).hostWaits = s.hostWaits := rfl
@[simp] theorem State.finish_shared (s : State) : (s.finish).shared = s.shared := rfl
@[simp] theorem State.finish_devIn (s : State) : (s.finish).devIn = s.devIn := rfl

@[simp] theorem State.receive_params (s : State) (b : Byte) (act : Observer → Observer) : (s.receive b act).params = s.params := rfl
@[simp] theorem State.receive_transport (s : State) (b : Byte) (act : Observer → Observer) : (s.receive b act).transport = s.transport := rfl
@[simp] theorem State.receive_phase (s : State) (b : Byte) (act : Observer → Observer) : (s.receive b act).phase = s.phase := rfl
@[simp] theorem State.receive_upc (s : State) (b : Byte) (act : Observer → Observer) : (s.receive b act).upc = s.upc := rfl
@[simp] theorem State.receive_disp (s : State) (b : Byte) (act : Observer → Observer) : (s.receive b act).disp = s.disp := rfl
@[simp] theorem State.receive_cur (s : State) (b : Byte) (act : Observer → Observer) : (s.receive b act).cur = s.cur := rfl
@[simp] theorem State.receive_blink (s : State) (b : Byte) (act : Observer → Observer) : (s.receive b act).blink = s.blink := rfl
@[simp] theorem State.receive_emTarget (s : State) (b : Byte) (act : Observer → Observer) : (s.receive b act).emTarget = s.emTarget := rfl
@[simp] theorem State.receive_emDir (s : State) (b : Byte) (act : Observer → Observer) : (s.receive b act).emDir = s.emDir := rfl
@[simp] theorem State.receive_out (s : State) (b : Byte) (act : Observer → Observer) : (s.receive b act).out = s.out := rfl
@[simp] theorem State.receive_obs (s : State) (b : Byte) (act : Observer → Observer) :
    (s.receive b act).obs =
      s.obs.hear ⟨some (rsLevel s.params false), some b⟩ act := rfl
@[simp] theorem State.receive_pending (s : State) (b : Byte) (act : Observer → Observer) : (s.receive b act).pending = s.pending := rfl
@[simp] theorem State.receive_hung (s : State) (b : Byte) (act : Observer → Observer) : (s.receive b act).hung = s.hung := rfl
@[simp] theorem State.receive_bus (s : State) (b : Byte) (act : Observer → Observer) : (s.receive b act).bus = s.bus := rfl
@[simp] theorem State.receive_freeCount (s : State) (b : Byte) (act : Observer → Observer) : (s.receive b act).freeCount = s.freeCount := rfl
@[simp] theorem State.receive_hostIn (s : State) (b : Byte) (act : Observer → Observer) : (s.receive b act).hostIn = s.hostIn := rfl
@[simp] theorem State.receive_hostWaits (s : State) (b : Byte) (act : Observer → Observer) : (s.receive b act).hostWaits = s.hostWaits := rfl
@[simp] theorem State.receive_shared (s : State) (b : Byte) (act : Observer → Observer) : (s.receive b act).shared = s.shared := rfl
@[simp] theorem State.receive_devIn (s : State) (b : Byte) (act : Observer → Observer) : (s.receive b act).devIn = s.devIn := rfl

end Sys2Proof.Machine
end

