-- ==== Sys2Proof/Laws/Run.lean ====
section
/-! SUPPORT. What running a micro-sequence does: it composes, and a sequence of events that the
platform completes appends exactly those events and replays them on pins, latches and observer. -/

namespace Sys2Proof.Machine

/-- The state after a list of events has gone out. -/
def State.after (s : State) (evs : List Event) (t : Transport) (o : Observer) (bus : Option Nat) :
    State :=
  { s with out := s.out ++ evs, upc := s.upc + evs.length, transport := t, obs := o, bus := bus }

@[simp] theorem State.after_hung (s : State) (evs : List Event) (t : Transport) (o : Observer)
    (bus : Option Nat) : (s.after evs t o bus).hung = s.hung := rfl

/-! ### Composition -/

theorem play_append_of {s s1 : State} {a b : List Micro} (ha : s.play a = s1)
    (h1 : s1.hung = false) : s.play (a ++ b) = s1.play b := by
  induction a generalizing s with
  | nil => simp only [State.play] at ha; subst ha; rfl
  | cons m ms ih =>
    simp only [State.play, List.cons_append] at ha ⊢
    split at ha
    · rename_i hm
      subst ha
      simp_all
    · rename_i hm
      simp only [hm]
      exact ih ha

/-- A sequence that hangs leaves its unrun rest, and what would have followed it, in `pending`. -/
theorem play_append_hung {s : State} {a : List Micro} (b : List Micro) (hs : s.hung = false)
    (h : (s.play a).hung = true) :
    s.play (a ++ b) = { s.play a with pending := (s.play a).pending ++ b } := by
  induction a generalizing s with
  | nil => simp_all [State.play]
  | cons m ms ih =>
    simp only [State.play, List.cons_append] at h ⊢
    split
    · rfl
    · rename_i hm
      simp only [hm] at h
      exact ih (by simpa using hm) h

/-- The micro-sequence does not look at what is pending. -/
theorem micro_pending (s : State) (m : Micro) (q : List Micro) :
    ({ s with pending := q }.micro m) = { s.micro m with pending := q } := by
  cases m with
  | event ev =>
    cases ev <;> simp only [State.micro, State.emit, State.latch, State.record]
    rename_i d b0 b1 b2
    simp only [State.transmit]
    split <;> simp_all [State.latch, State.record]
  | setPhase p => rfl
  | setFlags d c b => rfl
  | setDisp d => rfl
  | setEntry t d => rfl

/-! ### Transmits -/

@[simp] theorem transmitsIn_nil : transmitsIn [] = 0 := rfl

@[simp] theorem transmitsIn_cons (ev : Event) (evs : List Event) :
    transmitsIn (ev :: evs) = ev.transmits + transmitsIn evs := rfl

@[simp] theorem transmitsIn_append (a b : List Event) :
    transmitsIn (a ++ b) = transmitsIn a + transmitsIn b := by
  induction a with
  | nil => simp
  | cons ev evs ih => simp [ih, Nat.add_assoc]

/-! ### Replaying events -/

@[simp] theorem Transport.takeBytes_variant (t : Transport) (bs : List Byte) :
    (t.takeBytes bs).1.variant = t.variant := by
  cases t <;> rfl

@[simp] theorem Transport.take_variant (t : Transport) (ev : Event) :
    (t.take ev).1.variant = t.variant := by
  cases ev <;> cases t <;> rfl

@[simp] theorem replay_variant (t : Transport) (evs : List Event) :
    (replay t evs).1.variant = t.variant := by
  induction evs generalizing t with
  | nil => rfl
  | cons ev evs ih => simp [replay, ih]

theorem replay_append (t : Transport) (a b : List Event) :
    replay t (a ++ b) =
      ((replay (replay t a).1 b).1, (replay t a).2 ++ (replay (replay t a).1 b).2) := by
  induction a generalizing t with
  | nil => simp [replay]
  | cons ev evs ih => simp [replay, ih, List.append_assoc]

theorem onItems_append (p : Params) (v : Variant) (o : Observer) (a b : List Item) :
    o.onItems p v (a ++ b) = (o.onItems p v a).onItems p v b := by
  simp [Observer.onItems, List.foldl_append]

/-- One event that the platform completes. -/
theorem emit_served (s : State) (ev : Event)
    (hb : ∀ n, s.bus = some n → transmitsIn [ev] ≤ n) :
    s.emit ev = s.after [ev] (s.transport.take ev).1
      (s.obs.onItems s.params s.transport.variant (s.transport.take ev).2)
      (s.bus.map (· - transmitsIn [ev])) := by
  cases ev with
  | i2c d b0 b1 b2 =>
    simp only [State.emit, State.transmit]
    cases hbus : s.bus with
    | none => simp [State.latch, State.record, State.after, Transport.take, hbus]
    | some n =>
      cases n with
      | zero => exact absurd (hb 0 hbus) (by simp [Event.transmits])
      | succ k => simp [State.latch, State.record, State.after, Transport.take, Event.transmits]
  | _ => simp [State.emit, State.latch, State.record, State.after, Event.transmits]

/-- Events that the platform completes: appended to the trace and replayed. -/
theorem play_events (evs : List Event) (s : State) (h : s.hung = false)
    (hb : ∀ n, s.bus = some n → transmitsIn evs ≤ n) :
    s.play (evs.map .event) = s.after evs (replay s.transport evs).1
      (s.obs.onItems s.params s.transport.variant (replay s.transport evs).2)
      (s.bus.map (· - transmitsIn evs)) := by
  induction evs generalizing s with
  | nil => simp [State.play, State.after, replay, transmitsIn, Observer.onItems]
  | cons ev evs ih =>
    have hsplit : transmitsIn (ev :: evs) = transmitsIn [ev] + transmitsIn evs := by simp
    have h1 := emit_served s ev fun n hn => by have := hb n hn; omega
    simp only [List.map_cons, State.play, State.micro, h1, State.after_hung, h]
    rw [if_neg (by simp), ih]
    · simp only [State.after, replay, Transport.take_variant, onItems_append, List.append_assoc,
        List.singleton_append, List.length_cons, List.length_nil, Option.map_map, hsplit]
      congr 1
      · omega
      · congr 1
        funext n
        simp only [Function.comp_apply]
        omega
    · exact h
    · intro n hn
      simp only [State.after, Option.map_eq_some_iff] at hn
      obtain ⟨m, hm, rfl⟩ := hn
      have := hb m hm
      omega

/-! ### Command sequences as events -/

theorem delay_eq (n : Nat) : delay n = (waitTrace n).map .event := by
  unfold delay waitTrace
  split <;> rfl

theorem enablePulse_eq (p : Params) : enablePulse p = (pulseTrace p).map .event := by
  simp [enablePulse, pulseTrace, delay_eq]

theorem snibSeq_eq (p : Params) (n : Nibble) :
    snibSeq p n = (.d4 n :: pulseTrace p).map .event := by
  simp [snibSeq, enablePulse_eq]

theorem sbyteSeq_eq (p : Params) (b : Byte) :
    sbyteSeq p b = (.d8 b :: pulseTrace p).map .event := by
  simp [sbyteSeq, enablePulse_eq]

theorem sshbSeq_eq (p : Params) (b : Byte) :
    sshbSeq p b = (shiftTrace b ++ [Event.rck true, Event.rck false] ++ pulseTrace p).map .event := by
  simp [sshbSeq, shiftOut, shiftBit, latchPulse, shiftTrace, enablePulse_eq]

theorem si2cnSeq_eq (p : Params) (port : I2cPort) (d : Bool) (n : Nibble) :
    si2cnSeq p port d n = [frameTrace port (rsLevel p d) n].map .event := rfl

theorem sendByteVia_eq (p : Params) (t : Transport) (d : Bool) (b : Byte) :
    sendByteVia p t d b = (byteTrace p t (rsLevel p d) b).map .event := by
  cases t <;> simp [sendByteVia, byteTrace, setRs, snibSeq_eq, sbyteSeq_eq, sshbSeq_eq, si2cnSeq_eq]

theorem sendNibbleVia_eq (p : Params) (t : Transport) (d : Bool) (n : Nibble) :
    sendNibbleVia p t d n = (nibbleTrace p t (rsLevel p d) n).map .event := by
  cases t <;> simp [sendNibbleVia, nibbleTrace, setRs, snibSeq_eq, si2cnSeq_eq]

theorem winstrSeq_eq (p : Params) (t : Transport) (b : Byte) :
    winstrSeq p t b = (byteTrace p t (rsLevel p false) b ++ waitTrace p.tSettle).map .event := by
  simp [winstrSeq, sendByteVia_eq, delay_eq]

theorem wdataSeq_eq (p : Params) (t : Transport) (b : Byte) :
    wdataSeq p t b = (byteTrace p t (rsLevel p true) b ++ waitTrace p.tDataSettle).map .event := by
  simp [wdataSeq, sendByteVia_eq, delay_eq]

/-! ### Replaying the wire frames -/

@[simp] theorem replay_wait (t : Transport) (n : Nat) : replay t (waitTrace n) = (t, []) := by
  unfold waitTrace
  split <;> rfl

@[simp] theorem transmitsIn_wait (n : Nat) : transmitsIn (waitTrace n) = 0 := by
  unfold waitTrace
  split <;> rfl

@[simp] theorem transmitsIn_pulse (p : Params) : transmitsIn (pulseTrace p) = 0 := by
  simp [pulseTrace, Event.transmits]

/-- A byte takes two transmits on I2C, none elsewhere. -/
theorem transmitsIn_byte (p : Params) (t : Transport) (l : Bool) (b : Byte) :
    transmitsIn (byteTrace p t l b) = if t.variant = .i2c then 2 else 0 := by
  cases t <;> simp [byteTrace, Transport.variant, shiftTrace, frameTrace, Event.transmits]

@[simp] theorem replay_pulse_ph (p : Params) (q : PhPins) (h : q.e ≠ some true) :
    replay (.ph q) (pulseTrace p) = (.ph { q with e := some false }, [.nibble q.rs q.dp]) := by
  simp [pulseTrace, replay_append, replay, Transport.take, fallsFrom, h]

@[simp] theorem replay_pulse_pf (p : Params) (q : PfPins) (h : q.e ≠ some true) :
    replay (.pf q) (pulseTrace p) = (.pf { q with e := some false }, [.byte q.rs q.dp]) := by
  simp [pulseTrace, replay_append, replay, Transport.take, fallsFrom, h]

@[simp] theorem replay_pulse_sr (p : Params) (q : SrPins) (h : q.e ≠ some true) :
    replay (.sr q) (pulseTrace p) = (.sr { q with e := some false }, [.byte q.rs (some q.srq)]) := by
  simp [pulseTrace, replay_append, replay, Transport.take, fallsFrom, h]

end Sys2Proof.Machine
end

