-- ==== Sys2Proof/Laws/Frames.lean ====
section
/-! SUPPORT. What the wire frames do: a byte sent on any transport leaves the pins at `afterByte`, makes
the controller latch `byteItems`, and reaches an observer in step as one logical byte. -/

namespace Sys2Proof.Machine

/-! ### Bits -/

/-- Eight shifts of the bits of b, bit 7 first, leave b whatever was there (R21, R78). -/
theorem shift_eight (x b : Byte) :
    ((((((((x <<< 1 ||| bitIf (b.getLsbD 7) 1) <<< 1 ||| bitIf (b.getLsbD 6) 1) <<< 1
      ||| bitIf (b.getLsbD 5) 1) <<< 1 ||| bitIf (b.getLsbD 4) 1) <<< 1
      ||| bitIf (b.getLsbD 3) 1) <<< 1 ||| bitIf (b.getLsbD 2) 1) <<< 1
      ||| bitIf (b.getLsbD 1) 1) <<< 1 ||| bitIf (b.getLsbD 0) 1) = b := by
  have hbit : ∀ (c : Bool) (i : Nat) (h : i < 8), (bitIf c 1#8)[i] = (c && decide (i = 0)) := by
    intro c i h
    cases c <;> simp [bitIf]
  apply BitVec.eq_of_getLsbD_eq
  intro i hi
  match i, hi with
  | 0, _ | 1, _ | 2, _ | 3, _ | 4, _ | 5, _ | 6, _ | 7, _ => simp [hbit]

@[simp] theorem joinNibbles_split (b : Byte) : joinNibbles (hiNibble b) (loNibble b) = b := by
  revert b
  decide

/-! ### Replays -/

/-- One bit shifted in, from a clock that is low or unwritten. -/
theorem replay_shiftBit (q : SrPins) (l : Bool) (h : q.sck ≠ some true) (evs : List Event) :
    replay (.sr q) (.ser l :: .sck true :: .sck false :: evs) =
      replay (.sr { q with ser := some l, sck := some false, srs := q.srs <<< 1 ||| bitIf l 1 })
        evs := by
  simp [replay, Transport.take, SrPins.clock, h]

theorem replay_shiftTrace (q : SrPins) (b : Byte) (h : q.sck ≠ some true) (evs : List Event) :
    replay (.sr q) (shiftTrace b ++ evs) =
      replay (.sr { q with ser := some (b.getLsbD 0), sck := some false, srs := b }) evs := by
  simp only [shiftTrace, List.flatMap_cons, List.flatMap_nil, List.cons_append, List.nil_append,
    List.append_nil]
  rw [replay_shiftBit q _ h]
  iterate 7 rw [replay_shiftBit _ _ (by simp)]
  simp only [shift_eight]

/-- The three bytes of a frame, from an idle enable bit: `XP` ends at the first and third byte, and
the nibble is latched once (R22, R38, R87). -/
theorem replay_frame (port : I2cPort) (l : Bool) (n : Nibble)
    (h : port.xp.getLsbD port.layout.enBit = false) (evs : List Event) :
    replay (.i2c port) (frameTrace port l n :: evs) =
      ((replay (.i2c { port with xp := port.layout.byte n l port.bl false }) evs).1,
        .nibble (some l) (some n) ::
          (replay (.i2c { port with xp := port.layout.byte n l port.bl false }) evs).2) := by
  simp [replay, frameTrace, Transport.take, Transport.takeBytes, I2cPort.takeAll, I2cPort.take, h]

/-- A byte on any transport with idle lines (R82, R89). -/
theorem replay_byte (p : Params) (t : Transport) (l : Bool) (b : Byte) (h : t.linesIdle = true) :
    replay t (byteTrace p t l b) = (afterByte t l b, byteItems t.variant l b) := by
  cases t with
  | ph q =>
    simp only [Transport.linesIdle, Bool.not_eq_true', decide_eq_false_iff_not] at h
    simp [byteTrace, afterByte, byteItems, Transport.variant, Variant.isFour, replay_append, replay,
      Transport.take, h]
  | pf q =>
    simp only [Transport.linesIdle, Bool.not_eq_true', decide_eq_false_iff_not] at h
    simp [byteTrace, afterByte, byteItems, Transport.variant, Variant.isFour, replay,
      Transport.take, h]
  | sr q =>
    simp only [Transport.linesIdle, Bool.and_eq_true, Bool.not_eq_true', decide_eq_false_iff_not] at h
    simp only [byteTrace, List.append_assoc, List.cons_append, List.nil_append, replay,
      Transport.take]
    rw [replay_shiftTrace { q with rs := some l } b h.2]
    simp [replay, Transport.take, SrPins.latch, afterByte, byteItems, Transport.variant,
      Variant.isFour, h.1]
  | i2c port =>
    simp only [Transport.linesIdle, Bool.not_eq_true'] at h
    simp only [byteTrace]
    have hlow : frameTrace port l (loNibble b) =
        frameTrace { port with xp := port.layout.byte (hiNibble b) l port.bl false } l (loNibble b) := rfl
    rw [replay_frame port l _ h, hlow, replay_frame _ l _ (by simp)]
    simp [afterByte, byteItems, Transport.variant, Variant.isFour, replay]

@[simp] theorem afterByte_linesIdle (t : Transport) (l : Bool) (b : Byte) :
    (afterByte t l b).linesIdle = true := by
  cases t <;> simp [afterByte, Transport.linesIdle]

@[simp] theorem afterByte_variant (t : Transport) (l : Bool) (b : Byte) :
    (afterByte t l b).variant = t.variant := by cases t <;> rfl

/-- What is sent next does not depend on the pins. -/
@[simp] theorem byteTrace_afterByte (p : Params) (t : Transport) (l m : Bool) (b c : Byte) :
    byteTrace p (afterByte t l b) m c = byteTrace p t m c := by cases t <;> rfl

@[simp] theorem afterByte_afterByte (t : Transport) (l m : Bool) (b c : Byte) :
    afterByte (afterByte t l b) m c = afterByte t m c := by cases t <;> rfl

/-! ### The observer -/

theorem onItems_byte (p : Params) (v : Variant) (l : Bool) (b : Byte) (o : Observer)
    (h : o.pairing = .paired) : o.onItems p v (byteItems v l b) = o.arrive p v l b := by
  unfold Observer.arrive byteItems
  split
  · simp [Observer.onItems, Observer.onItem, Observer.takeItem, h, pairRs, pairValue]
  · simp [Observer.onItems, Observer.onItem, Observer.takeItem]

/-! ### Whole runs -/

/-- A command of events alone, which the platform completes. -/
theorem run_events (evs : List Event) (s : State) (h : s.hung = false)
    (hb : ∀ n, s.bus = some n → transmitsIn evs ≤ n) :
    s.run (evs.map .event) =
      { s with
        out := s.out ++ evs, upc := 0, pending := []
        transport := (replay s.transport evs).1
        obs := s.obs.onItems s.params s.transport.variant (replay s.transport evs).2
        bus := s.bus.map (· - transmitsIn evs) } := by
  simp [State.run, play_events evs s h hb, h, State.after, State.finish]

/-- What `busServes` gives the sequence lemmas. -/
theorem serves_of (s : State) (k : Nat) (h : s.busServes k = true) (n m : Nat)
    (hm : m = if s.transport.variant = .i2c then k else 0) (hn : s.bus = some n) : m ≤ n := by
  unfold State.busServes at h
  cases ht : s.transport <;> simp_all [Transport.variant]

theorem bus_map_eq (t : Transport) (bus : Option Nat) (k m : Nat)
    (hm : m = if t.variant = .i2c then k else 0) :
    bus.map (· - m) = busAfter t bus k := by
  cases t <;> simp_all [Transport.variant, busAfter]

/-- One byte and its wait, as a whole command: the pins, the trace, the bus and the observer. -/
theorem run_byte (s : State) (d : Bool) (b : Byte) (wait : Nat) (h : s.hung = false)
    (hl : s.transport.linesIdle = true) (hb : s.busServes 2 = true) :
    s.run ((byteTrace s.params s.transport d b ++ waitTrace wait).map .event) =
      { s with
        out := s.out ++ byteTrace s.params s.transport d b ++ waitTrace wait, upc := 0, pending := []
        transport := afterByte s.transport d b
        obs := s.obs.onItems s.params s.transport.variant (byteItems s.transport.variant d b)
        bus := busAfter s.transport s.bus 2 } := by
  have hm : transmitsIn (byteTrace s.params s.transport d b ++ waitTrace wait) =
      if s.transport.variant = .i2c then 2 else 0 := by simp [transmitsIn_byte]
  rw [run_events _ s h fun n hn => serves_of s 2 hb n _ hm hn, bus_map_eq s.transport _ 2 _ hm,
    replay_append, replay_byte _ _ _ _ hl]
  simp [List.append_assoc]

end Sys2Proof.Machine
end

