-- ==== Sys2Proof/Laws/Gate.lean ====
section
/-! SUPPORT. The gate of host commands: what passes it, and what a passed command does. -/

namespace Sys2Proof.Machine

variable {s t : State} {g : Gate} {go : Host.Outcome State Fault Refusal}

theorem hostCommand_busy (h : s.upc ≠ 0) : hostCommand g s go = .refused .busy := by
  simp [hostCommand, State.refusal, h]

theorem hostCommand_ready (h : s.upc = 0) (hp : s.phase = .ready) :
    hostCommand .ready s go = go := by
  simp [hostCommand, State.refusal, h, hp]

theorem hostCommand_construction (h : s.upc = 0) (hp : s.phase = .uninitialized) :
    hostCommand .construction s go = go := by
  simp [hostCommand, State.refusal, h, hp]

theorem hostCommand_primitive {v : Variant} (h : s.upc = 0) (hv : s.transport.variant = v) :
    hostCommand (.primitive v) s go = go := by
  simp [hostCommand, State.refusal, h, hv]

theorem hostCommand_notReady (h : s.upc = 0) (hp : s.phase ≠ .ready) :
    hostCommand .ready s go = .refused .notReady := by
  simp [hostCommand, State.refusal, h, hp]

theorem hostCommand_notFresh (h : s.upc = 0) (hp : s.phase ≠ .uninitialized) :
    hostCommand .construction s go = .refused .alreadyInitialised := by
  simp [hostCommand, State.refusal, h, hp]

theorem hostCommand_wrongVariant {v : Variant} (h : s.upc = 0) (hv : s.transport.variant ≠ v) :
    hostCommand (.primitive v) s go = .refused .wrongVariant := by
  simp [hostCommand, State.refusal, h, hv]

/-- A host command that answers a next state passed the gate: nothing ran, the gate's condition held,
and its body answered that state. -/
theorem hostCommand_next (h : hostCommand g s go = .next t) :
    s.upc = 0 ∧ go = .next t ∧
      (match g with
        | .primitive v => s.transport.variant = v
        | .ready => s.phase = .ready
        | .construction => s.phase = .uninitialized) := by
  unfold hostCommand State.refusal at h
  by_cases hu : s.upc = 0
  · cases g <;> simp only [hu, ne_eq, not_true_eq_false, if_false] at h ⊢ <;> split at h <;>
      simp_all
  · simp [hu] at h

/-- `WINSTR` as the rest of a command, completed by the platform. -/
theorem sendInstr_eq (b : Byte) (h : s.hung = false) (hl : s.transport.linesIdle = true)
    (hb : s.busServes 2 = true) :
    s.sendInstr b = .next { s with
      out := s.out ++ byteTrace s.params s.transport (!s.params.rsData) b ++ waitTrace s.params.tSettle
      upc := 0, pending := []
      transport := afterByte s.transport (!s.params.rsData) b
      obs := s.obs.onItems s.params s.transport.variant
        (byteItems s.transport.variant (!s.params.rsData) b)
      bus := busAfter s.transport s.bus 2 } := by
  rw [State.sendInstr, State.perform, winstrSeq_eq]
  congr 1
  exact run_byte s _ b _ h hl hb

end Sys2Proof.Machine
end

