-- ==== Sys2Proof/Laws/Induct.lean ====
section
/-! SUPPORT. Induction over a run, packaged once, and what one event leaves alone. -/

namespace Sys2Proof.Machine

/-! ### What every element keeps, a run keeps -/

theorem play_induct {P : State → Prop} (hm : ∀ s m, P s → P (s.micro m))
    (hp : ∀ s q, P s → P { s with pending := q }) (s : State) (ms : List Micro) (h : P s) :
    P (s.play ms) := by
  induction ms generalizing s with
  | nil => exact h
  | cons m ms ih =>
    simp only [State.play]
    split
    · exact hp _ _ (hm _ _ h)
    · exact ih _ (hm _ _ h)

theorem run_induct {P : State → Prop} (hm : ∀ s m, P s → P (s.micro m))
    (hp : ∀ s q, P s → P { s with pending := q }) (hf : ∀ s, P s → P s.finish) (s : State)
    (ms : List Micro) (h : P s) : P (s.run ms) := by
  unfold State.run
  split
  · exact play_induct hm hp s ms h
  · exact hf _ (play_induct hm hp s ms h)

theorem tickFrom_induct {P : State → Prop} (hm : ∀ s m, P s → P (s.micro m))
    (hp : ∀ s q, P s → P { s with pending := q }) (hf : ∀ s, P s → P s.finish) (s : State)
    (ms : List Micro) (h : P s) : P (s.tickFrom ms) := by
  induction ms generalizing s with
  | nil => exact hf _ h
  | cons m ms ih =>
    simp only [State.tickFrom]
    split
    · exact hp _ _ (hm _ _ h)
    · split
      · split
        · exact hp _ _ (hm _ _ h)
        · exact hf _ (play_induct hm hp _ _ (hm _ _ h))
      · exact ih _ (hm _ _ h)

theorem tick_induct {P : State → Prop} (hm : ∀ s m, P s → P (s.micro m))
    (hp : ∀ s q, P s → P { s with pending := q }) (hf : ∀ s, P s → P s.finish) (s : State)
    (h : P s) : P s.tick := by
  unfold State.tick
  split
  · exact h
  · exact tickFrom_induct hm hp hf _ _ h

/-! ### What one event leaves alone -/

theorem takeAll_port (port : I2cPort) (bs : List Byte) :
    (port.takeAll bs).1.dest = port.dest ∧ (port.takeAll bs).1.bl = port.bl
      ∧ (port.takeAll bs).1.layout = port.layout := by
  induction bs generalizing port with
  | nil => exact ⟨rfl, rfl, rfl⟩
  | cons b bs ih => simp only [I2cPort.takeAll]; exact ih _

@[simp] theorem takeBytes_backlight (t : Transport) (bs : List Byte) :
    backlightBit (t.takeBytes bs).1 = backlightBit t := by
  cases t <;> simp [Transport.takeBytes, backlightBit, takeAll_port]

@[simp] theorem take_backlight (t : Transport) (ev : Event) :
    backlightBit (t.take ev).1 = backlightBit t := by
  cases ev <;> cases t <;> rfl

@[simp] theorem takeBytes_dest (t : Transport) (bs : List Byte) :
    (t.takeBytes bs).1.dest = t.dest := by
  cases t <;> simp [Transport.takeBytes, Transport.dest, takeAll_port]

@[simp] theorem take_dest (t : Transport) (ev : Event) : (t.take ev).1.dest = t.dest := by
  cases ev <;> cases t <;> rfl

@[simp] theorem takeBytes_layout (t : Transport) (bs : List Byte) :
    (t.takeBytes bs).1.layout = t.layout := by
  cases t <;> simp [Transport.takeBytes, Transport.layout, takeAll_port]

@[simp] theorem take_layout (t : Transport) (ev : Event) : (t.take ev).1.layout = t.layout := by
  cases ev with
  | i2c d b0 b1 b2 => exact takeBytes_layout t _
  | _ => cases t <;> rfl

/-- One event adds itself to the trace and 1 to `s.upc`; it touches no flag, no phase, no parameter,
no backlight bit and no input queue (R15, R20). -/
theorem emit_frame (s : State) (ev : Event) :
    (s.emit ev).out = s.out ++ [ev] ∧ (s.emit ev).upc = s.upc + 1
      ∧ (s.emit ev).params = s.params ∧ (s.emit ev).phase = s.phase
      ∧ (s.emit ev).transport.variant = s.transport.variant
      ∧ (s.emit ev).transport.dest = s.transport.dest
      ∧ (s.emit ev).transport.layout = s.transport.layout
      ∧ backlightBit (s.emit ev).transport = backlightBit s.transport
      ∧ (s.emit ev).disp = s.disp ∧ (s.emit ev).cur = s.cur ∧ (s.emit ev).blink = s.blink
      ∧ (s.emit ev).emTarget = s.emTarget ∧ (s.emit ev).emDir = s.emDir
      ∧ (s.emit ev).devIn = s.devIn ∧ (s.emit ev).hostIn = s.hostIn
      ∧ (s.emit ev).hostWaits = s.hostWaits ∧ (s.emit ev).shared = s.shared := by
  cases ev <;> simp only [State.emit] <;> try (simp; done)
  unfold State.transmit
  split <;> simp

/-- The fields that no element of any micro-sequence touches. -/
def SameDevice (a b : State) : Prop :=
  b.params = a.params ∧ b.transport.variant = a.transport.variant
    ∧ b.transport.dest = a.transport.dest ∧ b.transport.layout = a.transport.layout
    ∧ backlightBit b.transport = backlightBit a.transport
    ∧ b.devIn = a.devIn ∧ b.hostIn = a.hostIn ∧ b.hostWaits = a.hostWaits ∧ b.shared = a.shared

theorem SameDevice.micro {a s : State} (m : Micro) (h : SameDevice a s) :
    SameDevice a (s.micro m) := by
  cases m <;> try exact h
  rename_i ev
  have := emit_frame s ev
  unfold SameDevice at *
  simp only [State.micro]
  simp_all

theorem run_sameDevice (s : State) (ms : List Micro) : SameDevice s (s.run ms) :=
  run_induct (P := SameDevice s) (fun _ m h => h.micro m) (fun _ _ h => h) (fun _ h => h) s ms
    ⟨rfl, rfl, rfl, rfl, rfl, rfl, rfl, rfl, rfl⟩

/-- The fields that events alone do not touch. -/
def SameFlags (a b : State) : Prop :=
  b.disp = a.disp ∧ b.cur = a.cur ∧ b.blink = a.blink ∧ b.emTarget = a.emTarget
    ∧ b.emDir = a.emDir ∧ b.phase = a.phase

/-- A command of events alone writes no flag, no entry-mode bit and no phase. -/
theorem run_sameFlags (s : State) (evs : List Event) : SameFlags s (s.run (evs.map .event)) := by
  have key : ∀ s0, SameFlags s s0 → SameFlags s (s0.play (evs.map .event)) := by
    induction evs with
    | nil => intro s0 h; exact h
    | cons e es ih =>
      intro s0 h
      simp only [List.map_cons, State.play]
      have h1 : SameFlags s (s0.micro (.event e)) := by
        have := emit_frame s0 e
        unfold SameFlags at *
        simp only [State.micro]
        simp_all
      split
      · exact h1
      · exact ih _ h1
  unfold State.run
  split <;> exact key s ⟨rfl, rfl, rfl, rfl, rfl, rfl⟩

/-! ### What a run never looks at -/

/-- A run overwrites `pending`; what stood there before does not matter. -/
theorem play_pending (q ms : List Micro) (s : State) :
    ∃ r, { s with pending := q }.play ms = { s.play ms with pending := r }
      ∧ ((s.play ms).hung = true → s.hung = false → r = (s.play ms).pending) := by
  induction ms generalizing s with
  | nil => exact ⟨q, rfl, fun h1 h2 => by simp [State.play] at h1; rw [h1] at h2; cases h2⟩
  | cons m ms ih =>
    simp only [State.play]
    rw [micro_pending]
    by_cases h : (s.micro m).hung = true
    · rw [if_pos h, if_pos h]; exact ⟨ms, rfl, fun _ _ => rfl⟩
    · rw [if_neg h, if_neg h]
      obtain ⟨r, h1, h2⟩ := ih (s.micro m)
      exact ⟨r, h1, fun h3 _ => h2 h3 (by simpa using h)⟩

theorem run_pending (q ms : List Micro) (s : State) (h : s.hung = false) :
    { s with pending := q }.run ms = s.run ms := by
  obtain ⟨r, h1, h2⟩ := play_pending q ms s
  unfold State.run
  rw [h1]
  by_cases hh : (s.play ms).hung = true
  · rw [if_pos hh, if_pos hh, h2 hh h]
  · rw [if_neg hh, if_neg hh]; rfl

end Sys2Proof.Machine
end

