-- ==== Sys2Proof/Laws/Memory.lean ====
section
/-! SUPPORT. Memory: a write keeps the canonical form, is read back, and leaves every other address
alone. -/

namespace Sys2Proof.Machine

theorem Memory.wf_nil : Memory.wf [] := List.Pairwise.nil

theorem Memory.mem_write (m : Memory) (a : Nat) (v : Byte) (c : Host.Cell) (h : c ∈ m.write a v) :
    c.1 = a ∨ c ∈ m := by
  induction m with
  | nil => simp_all [Memory.write]
  | cons x m ih =>
    obtain ⟨k, w⟩ := x
    simp only [Memory.write] at h
    split at h
    · rcases List.mem_cons.1 h with rfl | h
      · exact .inl rfl
      · exact .inr h
    · split at h
      · rcases List.mem_cons.1 h with rfl | h
        · exact .inl rfl
        · exact .inr (List.mem_cons_of_mem _ h)
      · rcases List.mem_cons.1 h with rfl | h
        · exact .inr (List.mem_cons_self ..)
        · exact (ih h).imp id (List.mem_cons_of_mem _)

/-- Every memory operation keeps the canonical form. -/
theorem Memory.write_wf (m : Memory) (a : Nat) (v : Byte) (h : m.wf) : (m.write a v).wf := by
  induction m with
  | nil => simp [Memory.write]
  | cons x m ih =>
    obtain ⟨k, w⟩ := x
    obtain ⟨hk, hm⟩ := List.pairwise_cons.1 h
    simp only [Memory.write]
    split
    · rename_i hlt
      refine List.pairwise_cons.2 ⟨fun y hy => ?_, h⟩
      rcases List.mem_cons.1 hy with rfl | hy
      · exact hlt
      · exact lt_trans hlt (hk y hy)
    · split
      · rename_i heq
        subst heq
        exact List.pairwise_cons.2 ⟨hk, hm⟩
      · rename_i hge hne
        refine List.pairwise_cons.2 ⟨fun y hy => ?_, ih hm⟩
        rcases Memory.mem_write m a v y hy with hy | hy
        · simp only [hy]
          omega
        · exact hk y hy

@[simp] theorem Memory.read_write_same (m : Memory) (a : Nat) (v : Byte) (h : m.wf) :
    (m.write a v).read a = some v := by
  induction m with
  | nil => simp [Memory.write, Memory.read]
  | cons x m ih =>
    obtain ⟨k, w⟩ := x
    simp only [Memory.write]
    split
    · simp [Memory.read]
    · split
      · simp [Memory.read]
      · rename_i hne
        have : k ≠ a := fun e => hne e.symm
        simp [Memory.read, this, ih (List.pairwise_cons.1 h).2]

@[simp] theorem Memory.read_write_other (m : Memory) (a c : Nat) (v : Byte) (h : c ≠ a) :
    (m.write a v).read c = m.read c := by
  induction m with
  | nil => simp [Memory.write, Memory.read, h.symm]
  | cons x m ih =>
    obtain ⟨k, w⟩ := x
    simp only [Memory.write]
    split
    · simp [Memory.read, h.symm]
    · split
      · rename_i heq
        subst heq
        simp [Memory.read, h.symm]
      · simp [Memory.read, ih]

end Sys2Proof.Machine
end

