-- ==== Sys2Proof/Laws/Observer.lean ====
section
/-! SUPPORT. The observer: what it records, what its memories and counter may hold, and what an
instruction leaves of them. -/

namespace Sys2Proof.Machine

/-! ### History -/

theorem onInstr_history (p : Params) (v : Variant) (o : Observer) (i : Instr) :
    (o.onInstr p v i).items = o.items ∧ (o.onInstr p v i).bytes = o.bytes
      ∧ (o.onInstr p v i).pairing = o.pairing := by
  cases i <;> simp only [Observer.onInstr] <;> try exact ⟨rfl, rfl, rfl⟩
  · unfold Observer.onClear; split <;> exact ⟨rfl, rfl, rfl⟩
  · unfold Observer.onHome; split <;> exact ⟨rfl, rfl, rfl⟩
  · unfold Observer.onShift; split <;> exact ⟨rfl, rfl, rfl⟩
  · unfold Observer.onFset; split
    · exact ⟨rfl, rfl, rfl⟩
    · split <;> exact ⟨rfl, rfl, rfl⟩

theorem onData_history (p : Params) (w : Byte) (o : Observer) :
    (o.onData p w).items = o.items ∧ (o.onData p w).bytes = o.bytes
      ∧ (o.onData p w).pairing = o.pairing := by
  have h1 : (o.store w).items = o.items ∧ (o.store w).bytes = o.bytes
      ∧ (o.store w).pairing = o.pairing := by
    unfold Observer.store; split <;> exact ⟨rfl, rfl, rfl⟩
  unfold Observer.onData Observer.advance; split <;> exact h1

theorem obey_history (p : Params) (v : Variant) (b : LogicalByte) (o : Observer) :
    (o.obey p v b).items = o.items ∧ (o.obey p v b).bytes = o.bytes
      ∧ (o.obey p v b).pairing = o.pairing := by
  unfold Observer.obey
  split
  · split
    · exact onData_history _ _ _
    · split
      · exact onInstr_history _ _ _ _
      · exact ⟨rfl, rfl, rfl⟩
  · exact ⟨rfl, rfl, rfl⟩

/-- All that heeding a byte can do. -/
theorem heed_cases (act : Observer → Observer) (o : Observer) :
    (o.iface = .unknown ∧ o.heed act = o.forget) ∨ (o.iface = .matched ∧ o.heed act = act o) := by
  unfold Observer.heed
  cases h : o.iface <;> simp

theorem heed_obey_history (p : Params) (v : Variant) (b : LogicalByte) (o : Observer) :
    (o.heed (Observer.obey p v b)).items = o.items ∧ (o.heed (Observer.obey p v b)).bytes = o.bytes
      ∧ (o.heed (Observer.obey p v b)).pairing = o.pairing := by
  rcases heed_cases (Observer.obey p v b) o with ⟨_, h⟩ | ⟨_, h⟩ <;> rw [h]
  · exact ⟨rfl, rfl, rfl⟩
  · exact obey_history _ _ _ _

/-- All that hearing a byte can do. -/
theorem hear_cases (b : LogicalByte) (act : Observer → Observer) (o : Observer) :
    (∃ left half heard, o.pairing = .booting left half heard ∧ o.hear b act =
        { o with bytes := o.bytes ++ [b], pairing := .booting left half (heard ++ [b]) })
      ∨ ((∀ left half heard, o.pairing ≠ .booting left half heard)
        ∧ o.hear b act = Observer.heed act { o with bytes := o.bytes ++ [b] }) := by
  unfold Observer.hear
  cases h : o.pairing <;> simp

theorem hear_free {b : LogicalByte} {act : Observer → Observer} {o : Observer}
    (h : ∀ left half heard, o.pairing ≠ .booting left half heard) :
    o.hear b act = Observer.heed act { o with bytes := o.bytes ++ [b] } := by
  rcases hear_cases b act o with ⟨l, f, g, h1, _⟩ | ⟨_, h1⟩
  · exact absurd h1 (h _ _ _)
  · exact h1

theorem onByte_history (p : Params) (v : Variant) (b : LogicalByte) (o : Observer) :
    (o.onByte p v b).items = o.items ∧ (o.onByte p v b).bytes = o.bytes ++ [b] := by
  unfold Observer.onByte
  rcases hear_cases b (Observer.obey p v b) o with ⟨l, f, g, _, h⟩ | ⟨_, h⟩ <;> rw [h]
  · exact ⟨rfl, rfl⟩
  · exact ⟨(heed_obey_history _ _ _ _).1, (heed_obey_history _ _ _ _).2.1⟩

theorem onItem_history (p : Params) (v : Variant) (o : Observer) (it : Item) :
    (o.onItem p v it).items = o.items ++ [it] ∧ ∃ bs, (o.onItem p v it).bytes = o.bytes ++ bs := by
  cases it
  · simp only [Observer.onItem, Observer.takeItem]
    split <;> simp [Observer.forget, onByte_history]
  · simp [Observer.onItem, Observer.takeItem, onByte_history]

/-- Items are recorded as they come; logical bytes are only added. -/
theorem onItems_history (p : Params) (v : Variant) (o : Observer) (its : List Item) :
    (o.onItems p v its).items = o.items ++ its ∧ ∃ bs, (o.onItems p v its).bytes = o.bytes ++ bs := by
  unfold Observer.onItems
  induction its generalizing o with
  | nil => simp
  | cons i is ih =>
    obtain ⟨h1, bs, h2⟩ := onItem_history p v o i
    obtain ⟨h3, cs, h4⟩ := ih (o.onItem p v i)
    simp only [List.foldl_cons]
    exact ⟨by rw [h3, h1]; simp, bs ++ cs, by rw [h4, h2]; simp⟩

/-- A byte that reaches an observer between bytes is recorded and heeded. -/
theorem arrive_eq {p : Params} {v : Variant} {l : Bool} {b : Byte} {o : Observer}
    (h : o.pairing = .paired) :
    o.arrive p v l b = Observer.heed (Observer.obey p v ⟨some l, some b⟩) { o with
      items := o.items ++ byteItems v l b, bytes := o.bytes ++ [⟨some l, some b⟩] } := by
  unfold Observer.arrive Observer.onByte
  exact hear_free (by simp [h])

theorem arrive_history (p : Params) (v : Variant) (l : Bool) (b : Byte) (o : Observer)
    (h : o.pairing = .paired) :
    (o.arrive p v l b).bytes = o.bytes ++ [⟨some l, some b⟩]
      ∧ (o.arrive p v l b).pairing = .paired := by
  rw [arrive_eq h]
  exact ⟨(heed_obey_history _ _ _ _).2.1, (heed_obey_history _ _ _ _).2.2.trans h⟩

/-- Acting on a list of bytes, as the end of `INIT` does. -/
theorem foldl_heed_history (p : Params) (v : Variant) (l : List LogicalByte) (o : Observer) :
    (l.foldl (fun o b => o.heed (Observer.obey p v b)) o).items = o.items
      ∧ (l.foldl (fun o b => o.heed (Observer.obey p v b)) o).bytes = o.bytes
      ∧ (l.foldl (fun o b => o.heed (Observer.obey p v b)) o).pairing = o.pairing := by
  induction l generalizing o with
  | nil => exact ⟨rfl, rfl, rfl⟩
  | cons b l ih => simp [ih, heed_obey_history]

theorem endInit_history (p : Params) (v : Variant) (o : Observer) :
    (o.endInit p v).items = o.items ∧ (o.endInit p v).bytes = o.bytes := by
  unfold Observer.endInit
  split <;> simp [foldl_heed_history]

/-- A write of the phase leaves the history alone. -/
theorem onPhase_history (p : Params) (v : Variant) (o : Observer) (ph : Phase) :
    (o.onPhase p v ph).items = o.items ∧ (o.onPhase p v ph).bytes = o.bytes := by
  cases ph
  · exact ⟨rfl, rfl⟩
  · exact ⟨rfl, rfl⟩
  · exact endInit_history _ _ _

/-! ### Instruction bytes -/

theorem decodeLcdiFor_format {p : Params} {b : Byte} {j : Instr} (h : decodeLcdiFor p b = some j) : j.format = .lcdi := by
  unfold decodeLcdiFor at h
  repeat' split at h
  all_goals first | (cases h; done) | (cases h; rfl)

/-- An instruction stores nothing: a byte of either memory is as before, or no longer known. -/
theorem onInstr_read (p : Params) (v : Variant) (o : Observer) (j : Instr) (a : Nat) :
    ((o.onInstr p v j).ddram.read a = o.ddram.read a ∨ (o.onInstr p v j).ddram.read a = none)
      ∧ ((o.onInstr p v j).cgram.read a = o.cgram.read a
        ∨ (o.onInstr p v j).cgram.read a = none) := by
  cases j <;> simp only [Observer.onInstr] <;> try exact ⟨.inr rfl, .inr rfl⟩
  · unfold Observer.onClear; split <;> exact ⟨.inr rfl, .inr rfl⟩
  · unfold Observer.onHome; split <;> exact ⟨.inr rfl, .inr rfl⟩
  · exact ⟨.inl rfl, .inl rfl⟩
  · exact ⟨.inl rfl, .inl rfl⟩
  · unfold Observer.onShift; split <;> exact ⟨.inl rfl, .inl rfl⟩
  · unfold Observer.onFset; split
    · exact ⟨.inr rfl, .inr rfl⟩
    · split
      · exact ⟨.inl rfl, .inl rfl⟩
      · exact ⟨.inr rfl, .inr rfl⟩
  · exact ⟨.inl rfl, .inl rfl⟩
  · exact ⟨.inl rfl, .inl rfl⟩

/-! ### Canonical memories, addresses with a place -/

/-- Memories in canonical form, and every address held has a place (R31, R32, R40). -/
def Observer.Placed (p : Params) (o : Observer) : Prop :=
  o.ddram.wf ∧ o.cgram.wf
    ∧ (∀ c ∈ o.ddram, ddramValid p c.1 = true)
    ∧ (∀ c ∈ o.cgram, cgramValid p c.1 = true)
    ∧ ∀ sp a, o.space = some sp → o.ac = some a → addrValid p sp a = true

theorem counterAt_valid {p : Params} {sp : Space} {a b : Nat} (h : counterAt p sp a = some b) :
    addrValid p sp b = true := by
  unfold counterAt at h; split at h <;> simp_all

theorem counterAfter_valid {p : Params} {sp : Space} {d : Option EmDir} {a b : Nat}
    (h : counterAfter p sp d a = some b) : addrValid p sp b = true := by
  unfold counterAfter at h
  split at h
  · exact counterAt_valid h
  · split at h
    · cases h
    · exact counterAt_valid h
  · cases h

/-- An observer that knows no memory is placed wherever its counter is. -/
theorem placed_of_empty {p : Params} {o : Observer} (hd : o.ddram = []) (hc : o.cgram = [])
    (h : ∀ sp a, o.space = some sp → o.ac = some a → addrValid p sp a = true) : o.Placed p := by
  refine ⟨?_, ?_, ?_, ?_, h⟩ <;> simp [hd, hc]

theorem placed_forget (p : Params) (o : Observer) : o.forget.Placed p :=
  placed_of_empty rfl rfl (by simp [Observer.forget])

theorem placed_lose (p : Params) (o : Observer) : o.lose.Placed p :=
  placed_of_empty rfl rfl (by simp [Observer.lose, Observer.forget])

theorem placed_powerOn (p : Params) : Observer.powerOn.Placed p :=
  placed_of_empty rfl rfl (by simp [Observer.powerOn])

theorem placed_onInstr {p : Params} {o : Observer} (v : Variant) (i : Instr) (h : o.Placed p) :
    (o.onInstr p v i).Placed p := by
  obtain ⟨h1, h2, h3, h4, h5⟩ := h
  have hzero : ∀ sp a, some Space.ddram = some sp → counterAt p .ddram 0 = some a →
      addrValid p sp a = true := by
    intro sp a hs ha; cases hs; exact counterAt_valid ha
  cases i <;> simp only [Observer.onInstr] <;> try exact placed_lose _ _
  · unfold Observer.onClear; split
    · exact placed_of_empty rfl rfl hzero
    · exact placed_forget _ _
  · unfold Observer.onHome; split
    · exact placed_of_empty rfl rfl hzero
    · exact placed_forget _ _
  · exact ⟨h1, h2, h3, h4, h5⟩
  · exact ⟨h1, h2, h3, h4, h5⟩
  · unfold Observer.onShift; split
    · exact ⟨h1, h2, h3, h4, h5⟩
    · exact ⟨h1, h2, h3, h4, by simp⟩
  · unfold Observer.onFset; split
    · exact placed_lose _ _
    · split
      · exact ⟨h1, h2, h3, h4, h5⟩
      · exact placed_forget _ _
  · exact ⟨h1, h2, h3, h4, fun sp a hs ha => by cases hs; exact counterAt_valid ha⟩
  · exact ⟨h1, h2, h3, h4, fun sp a hs ha => by cases hs; exact counterAt_valid ha⟩

theorem placed_store {p : Params} {o : Observer} (w : Byte) (h : o.Placed p) :
    (o.store w).Placed p := by
  obtain ⟨h1, h2, h3, h4, h5⟩ := h
  unfold Observer.store
  split
  · rename_i a hs ha
    refine ⟨Memory.write_wf _ _ _ h1, h2, fun c hc => ?_, h4, h5⟩
    rcases Memory.mem_write _ _ _ _ hc with hc | hc
    · rw [hc]; exact h5 _ _ hs ha
    · exact h3 c hc
  · rename_i a hs ha
    refine ⟨h1, Memory.write_wf _ _ _ h2, h3, fun c hc => ?_, h5⟩
    rcases Memory.mem_write _ _ _ _ hc with hc | hc
    · rw [hc]; exact h5 _ _ hs ha
    · exact h4 c hc
  · exact ⟨.nil, h2, by simp, h4, h5⟩
  · exact ⟨h1, .nil, h3, by simp, h5⟩
  · exact ⟨.nil, .nil, by simp, by simp, h5⟩

theorem placed_advance {p : Params} {o : Observer} (h : o.Placed p) : (o.advance p).Placed p := by
  obtain ⟨h1, h2, h3, h4, h5⟩ := h
  unfold Observer.advance
  split
  · rename_i sp a hs ha
    refine ⟨h1, h2, h3, h4, fun sp' a' hs' ha' => ?_⟩
    simp only at hs' ha'
    rw [hs] at hs'
    cases hs'
    exact counterAfter_valid ha'
  · exact ⟨h1, h2, h3, h4, by simp⟩

theorem placed_obey {p : Params} {o : Observer} (v : Variant) (b : LogicalByte)
    (h : o.Placed p) : (o.obey p v b).Placed p := by
  unfold Observer.obey
  split
  · split
    · exact placed_advance (placed_store _ h)
    · split
      · exact placed_onInstr _ _ h
      · exact placed_lose _ _
  · exact placed_lose _ _

theorem placed_heed {p : Params} {o : Observer} {act : Observer → Observer}
    (ha : ∀ o, o.Placed p → (act o).Placed p) (h : o.Placed p) : (o.heed act).Placed p := by
  rcases heed_cases act o with ⟨_, e⟩ | ⟨_, e⟩ <;> rw [e]
  · exact placed_forget _ _
  · exact ha _ h

theorem placed_hear {p : Params} {o : Observer} {act : Observer → Observer} (b : LogicalByte)
    (ha : ∀ o, o.Placed p → (act o).Placed p) (h : o.Placed p) : (o.hear b act).Placed p := by
  rcases hear_cases b act o with ⟨_, _, _, _, e⟩ | ⟨_, e⟩ <;> rw [e]
  · exact h
  · exact placed_heed ha h

theorem placed_onItem {p : Params} {o : Observer} (v : Variant) (it : Item) (h : o.Placed p) :
    (o.onItem p v it).Placed p := by
  unfold Observer.onItem Observer.takeItem Observer.onByte
  cases it
  · simp only
    split
    · exact placed_forget _ o
    · exact h
    · exact h
    · exact placed_hear _ (fun _ => placed_obey v _) h
    · exact h
    · exact placed_hear _ (fun _ => placed_obey v _) h
  · exact placed_hear _ (fun _ => placed_obey v _) h

theorem placed_endInit {p : Params} {o : Observer} (v : Variant) (h : o.Placed p) :
    (o.endInit p v).Placed p := by
  have key : ∀ (l : List LogicalByte) (o : Observer), o.Placed p →
      (l.foldl (fun o b => o.heed (Observer.obey p v b)) o).Placed p := by
    intro l
    induction l with
    | nil => exact fun _ h => h
    | cons b l ih => exact fun o h => ih _ (placed_heed (fun _ => placed_obey v b) h)
  unfold Observer.endInit
  split
  · exact key _ _ h
  all_goals exact h

/-- Whatever the phase becomes, the observer stays placed. -/
theorem placed_onPhase {p : Params} {o : Observer} (v : Variant) (ph : Phase) (h : o.Placed p) :
    (o.onPhase p v ph).Placed p := by
  cases ph
  · exact placed_forget _ o
  · exact placed_forget _ o
  · exact placed_endInit v h

/-- Whatever the controller latches, the observer stays placed. -/
theorem placed_onItems {p : Params} {o : Observer} (v : Variant) (its : List Item)
    (h : o.Placed p) : (o.onItems p v its).Placed p := by
  unfold Observer.onItems
  induction its generalizing o with
  | nil => exact h
  | cons i is ih => exact ih (placed_onItem v i h)

/-! ### Before `INIT` has completed -/

/-- Nothing is known of interface width, counter, direction and memories, nor of the nibble phase
(R151, U10). -/
def Observer.Blank (o : Observer) : Prop :=
  o.iface = .unknown ∧ o.space = none ∧ o.ac = none ∧ o.dir = none ∧ o.ddram = [] ∧ o.cgram = []
    ∧ o.pairing.known = false

theorem blank_hear {o : Observer} (b : LogicalByte) (act : Observer → Observer) (h : o.Blank) :
    (o.hear b act).Blank
      ∧ (o.pairing = .unknown → (o.hear b act).pairing = .unknown) := by
  obtain ⟨h1, h2, h3, h4, h5, h6, h7⟩ := h
  rcases hear_cases b act o with ⟨l, f, g, hp, e⟩ | ⟨_, e⟩ <;> rw [e]
  · exact ⟨⟨h1, h2, h3, h4, h5, h6, rfl⟩, fun hu => by rw [hu] at hp; cases hp⟩
  · have : Observer.heed act { o with bytes := o.bytes ++ [b] }
        = Observer.forget { o with bytes := o.bytes ++ [b] } := by simp [Observer.heed, h1]
    rw [this]
    exact ⟨⟨h1, rfl, rfl, rfl, rfl, rfl, h7⟩, id⟩

/-- Before `INIT` has completed no item teaches the observer anything (R151). -/
theorem blank_onItem {o : Observer} (p : Params) (v : Variant) (it : Item) (h : o.Blank) :
    (o.onItem p v it).Blank
      ∧ (o.pairing = .unknown → (o.onItem p v it).pairing = .unknown) := by
  have hk := h
  obtain ⟨h1, h2, h3, h4, h5, h6, h7⟩ := h
  cases it with
  | byte rs w => exact blank_hear (o := { o with items := _ }) _ _ hk
  | nibble rs n =>
    simp only [Observer.onItem, Observer.takeItem]
    cases hp : o.pairing with
    | paired => rw [hp] at h7; cases h7
    | half => rw [hp] at h7; cases h7
    | unknown => exact ⟨⟨h1, rfl, rfl, rfl, rfl, rfl, rfl⟩, fun _ => rfl⟩
    | booting left half heard =>
      refine ⟨?_, fun hu => by cases hu⟩
      cases left with
      | succ left => exact ⟨h1, h2, h3, h4, h5, h6, rfl⟩
      | zero =>
        cases half with
        | none => exact ⟨h1, h2, h3, h4, h5, h6, rfl⟩
        | some hi =>
          exact (blank_hear (o := { o with items := _, pairing := .booting 0 none heard }) _ _
            ⟨h1, h2, h3, h4, h5, h6, rfl⟩).1

theorem blank_onItems {o : Observer} (p : Params) (v : Variant) (its : List Item) (h : o.Blank) :
    (o.onItems p v its).Blank
      ∧ (o.pairing = .unknown → (o.onItems p v its).pairing = .unknown) := by
  unfold Observer.onItems
  induction its generalizing o with
  | nil => exact ⟨h, id⟩
  | cons it its ih =>
    have := blank_onItem p v it h
    exact ⟨(ih this.1).1, fun hu => (ih this.1).2 (this.2 hu)⟩

end Sys2Proof.Machine
end

