-- ==== Sys2Proof/Laws/Served.lean ====
section
/-! SUPPORT. Transmits that complete and transmits that never do (R81, R136): a run either is served
whole, with the state `run_events` gives, or stops in a transmit. -/

namespace Sys2Proof.Machine

/-- Only a transmit can hang, and only when the platform serves no more. -/
theorem emit_hung (s : State) (ev : Event) (h : s.hung = false) :
    (s.emit ev).hung = false
      ∨ (∃ d b0 b1 b2, ev = .i2c d b0 b1 b2) ∧ s.bus = some 0 ∧ (s.emit ev).hung = true := by
  cases ev <;> simp only [State.emit, State.record_hung, State.latch_hung, h, true_or]
  unfold State.transmit
  split <;> simp_all

theorem micro_quiet_hung (s : State) (m : Micro) (hm : m.isEvent = false) :
    (s.micro m).hung = s.hung := by
  cases m <;> first | cases hm; done | rfl

theorem play_cons_quiet (s : State) (m : Micro) (ms : List Micro) (h : (s.micro m).hung = false) :
    s.play (m :: ms) = (s.micro m).play ms := by
  simp [State.play, h]

/-- The events of a micro-sequence. -/
def eventsOf : List Micro → List Event
  | [] => []
  | .event ev :: ms => ev :: eventsOf ms
  | .setPhase _ :: ms => eventsOf ms
  | .setFlags _ _ _ :: ms => eventsOf ms
  | .setDisp _ :: ms => eventsOf ms
  | .setEntry _ _ :: ms => eventsOf ms

@[simp] theorem eventsOf_map (evs : List Event) : eventsOf (evs.map .event) = evs := by
  induction evs with
  | nil => rfl
  | cons e es ih => simp [eventsOf, ih]

@[simp] theorem eventsOf_append (a b : List Micro) :
    eventsOf (a ++ b) = eventsOf a ++ eventsOf b := by
  induction a with
  | nil => rfl
  | cons m ms ih => cases m <;> simp [eventsOf, ih]

theorem mem_eventsOf {ms : List Micro} {ev : Event} (h : Micro.event ev ∈ ms) :
    ev ∈ eventsOf ms := by
  induction ms with
  | nil => cases h
  | cons m ms ih =>
    rcases List.mem_cons.1 h with rfl | h
    · exact List.mem_cons_self ..
    · have := ih h
      cases m <;> simp only [eventsOf] <;> first | exact List.mem_cons_of_mem _ this | exact this

theorem no_transmit_of {evs : List Event} (h : transmitsIn evs = 0) (d : I2cDest) (b0 b1 b2 : Byte) :
    .i2c d b0 b1 b2 ∉ evs := by
  induction evs with
  | nil => simp
  | cons e es ih =>
    simp only [transmitsIn, Nat.add_eq_zero_iff] at h
    intro hm
    rcases List.mem_cons.1 hm with rfl | hm
    · simp [Event.transmits] at h
    · exact ih h.2 hm

/-- An event that did not hang was served. -/
theorem served_of_emit (s : State) (ev : Event) (h : (s.emit ev).hung = false) (n : Nat)
    (hn : s.bus = some n) : transmitsIn [ev] ≤ n := by
  cases ev <;> try (exact Nat.zero_le _)
  simp only [transmitsIn, Event.transmits]
  rcases Nat.eq_zero_or_pos n with rfl | hpos
  · simp [State.emit, State.transmit, hn] at h
  · omega

/-- A run that did not hang was served in all its transmits. -/
theorem served_of_play (ms : List Micro) (s : State) (h : s.hung = false)
    (hp : (s.play ms).hung = false) (n : Nat) (hn : s.bus = some n) :
    transmitsIn (eventsOf ms) ≤ n := by
  induction ms generalizing s n with
  | nil => simp [eventsOf]
  | cons m ms ih =>
    by_cases hm : m.isEvent = true
    · cases m <;> try cases hm
      rename_i ev
      simp only [State.play] at hp
      by_cases hh : (s.micro (.event ev)).hung = true
      · simp [hh] at hp
      · rw [if_neg hh] at hp
        rw [Bool.not_eq_true] at hh
        have h1 := served_of_emit s ev hh
        have h2 := emit_served s ev h1
        have := ih _ hh hp (n - transmitsIn [ev]) (by
          change (s.emit ev).bus = _
          rw [h2]; simp [State.after, hn])
        have := h1 n hn
        rw [show transmitsIn (eventsOf (.event ev :: ms)) = transmitsIn [ev] + transmitsIn (eventsOf ms)
          by simp [eventsOf]]
        omega
    · rw [Bool.not_eq_true] at hm
      have hq := micro_quiet_hung s m hm
      rw [play_cons_quiet _ _ _ (hq.trans h)] at hp
      have := ih _ (hq.trans h) hp n (by cases m <;> first | cases hm; done | exact hn)
      cases m <;> first | cases hm; done | exact this

theorem play_of_run {ms : List Micro} {s : State} (h : (s.run ms).hung = false) :
    (s.play ms).hung = false := by
  unfold State.run at h
  split at h
  · simp_all
  · simpa using h

/-- A run of events that did not hang has the state of a served run. -/
theorem run_ok (evs : List Event) (s : State) (h : s.hung = false)
    (hp : (s.run (evs.map .event)).hung = false) :
    s.run (evs.map .event) =
      { s with
        out := s.out ++ evs, upc := 0, pending := []
        transport := (replay s.transport evs).1
        obs := s.obs.onItems s.params s.transport.variant (replay s.transport evs).2
        bus := s.bus.map (· - transmitsIn evs) } :=
  run_events evs s h fun n hn => by
    simpa using served_of_play (evs.map .event) s h (play_of_run hp) n hn

/-- A run that hung stopped inside a transmit of its own, which is the last event of the trace
(R136). -/
theorem play_stuck (ms : List Micro) (s : State) (h : s.hung = false) (hh : (s.play ms).hung = true) :
    (s.play ms).upc ≠ 0 ∧ ∃ d b0 b1 b2,
      (s.play ms).out.getLast? = some (.i2c d b0 b1 b2) ∧ .i2c d b0 b1 b2 ∈ eventsOf ms := by
  induction ms generalizing s with
  | nil => simp [State.play, h] at hh
  | cons m ms ih =>
    simp only [State.play] at hh ⊢
    by_cases hm : (s.micro m).hung = true
    · rw [if_pos hm]
      cases m with
      | event ev =>
        rcases emit_hung s ev h with h1 | ⟨⟨d, b0, b1, b2, rfl⟩, hb, _⟩
        · exact absurd (h1 ▸ hm : false = true) (by simp)
        · have := emit_frame s (.i2c d b0 b1 b2)
          refine ⟨?_, d, b0, b1, b2, ?_, by simp [eventsOf]⟩
          · show (s.emit _).upc ≠ 0
            rw [this.2.1]; omega
          · show (s.emit _).out.getLast? = _
            rw [this.1]; simp
      | _ => rw [micro_quiet_hung _ _ rfl, h] at hm; cases hm
    · rw [if_neg hm] at hh ⊢
      obtain ⟨h1, d, b0, b1, b2, h2, h3⟩ := ih _ (by simpa using hm) hh
      refine ⟨h1, d, b0, b1, b2, h2, ?_⟩
      cases m <;> simp only [eventsOf] <;> first | exact List.mem_cons_of_mem _ h3 | exact h3

theorem run_stuck (ms : List Micro) (s : State) (hh : (s.run ms).hung = true) :
    s.run ms = s.play ms ∧ (s.play ms).hung = true := by
  unfold State.run at *
  split at hh
  · rename_i hp; exact ⟨if_pos hp, hp⟩
  · rename_i hp; simp at hh; exact absurd hh hp

theorem run_upc (ms : List Micro) (s : State) (hh : (s.run ms).hung = false) :
    (s.run ms).upc = 0 := by
  unfold State.run at *
  split at hh
  · rename_i hp; rw [hp] at hh; cases hh
  · rename_i hp; simp [hp]

theorem run_out (ms : List Micro) (s : State) : (s.run ms).out = (s.play ms).out := by
  unfold State.run; split <;> rfl

/-- What a run adds to the trace: a prefix of its events; all of them if it did not hang, up to and
including a transmit if it did. -/
theorem play_out (ms : List Micro) (s : State) (h : s.hung = false) :
    ∃ evs, (s.play ms).out = s.out ++ evs ∧ evs <+: eventsOf ms
      ∧ ((s.play ms).hung = true → ∃ pre d b0 b1 b2, evs = pre ++ [.i2c d b0 b1 b2])
      ∧ ((s.play ms).hung = false → evs = eventsOf ms) := by
  induction ms generalizing s with
  | nil =>
    exact ⟨[], by simp [State.play], by simp [eventsOf],
      fun hh => by simp [State.play, h] at hh, fun _ => rfl⟩
  | cons m ms ih =>
    by_cases hm : (s.micro m).hung = true
    · cases m with
      | event ev =>
        rcases emit_hung s ev h with h1 | ⟨⟨d, b0, b1, b2, rfl⟩, hb, _⟩
        · exact absurd (h1 ▸ hm : false = true) (by simp)
        · refine ⟨[.i2c d b0 b1 b2], ?_, ?_, fun _ => ⟨[], d, b0, b1, b2, rfl⟩, fun hh => ?_⟩
          · simp only [State.play, if_pos hm]; exact (emit_frame s _).1
          · simp [eventsOf]
          · simp [State.play, hm] at hh
      | _ => rw [micro_quiet_hung _ _ rfl, h] at hm; cases hm
    · have hmf : (s.micro m).hung = false := by simpa using hm
      obtain ⟨evs, h1, h2, h3, h4⟩ := ih (s.micro m) hmf
      rw [play_cons_quiet _ _ _ hmf]
      cases m with
      | event ev =>
        refine ⟨ev :: evs, ?_, ?_, ?_, ?_⟩
        · rw [h1]; simp only [State.micro, (emit_frame s ev).1]; simp
        · simp only [eventsOf]; exact List.cons_prefix_cons.2 ⟨rfl, h2⟩
        · intro hh; obtain ⟨pre, d, b0, b1, b2, e⟩ := h3 hh; exact ⟨ev :: pre, d, b0, b1, b2, by simp [e]⟩
        · intro hh; simp [eventsOf, h4 hh]
      | _ => exact ⟨evs, h1, h2, h3, h4⟩

/-- A run counts its events in `s.upc` (R15, R136). -/
theorem play_upc (ms : List Micro) (s : State) :
    (s.play ms).upc + s.out.length = (s.play ms).out.length + s.upc := by
  induction ms generalizing s with
  | nil => simp [State.play]; omega
  | cons m ms ih =>
    have h1 : (s.micro m).upc + s.out.length = (s.micro m).out.length + s.upc := by
      cases m with
      | event ev =>
        simp only [State.micro, (emit_frame s ev).1, (emit_frame s ev).2.1, List.length_append,
          List.length_singleton]
        omega
      | _ => exact Nat.add_comm _ _
    simp only [State.play]
    split
    · exact h1
    · have := ih (s.micro m); omega

/-- A run that did not hang added all of its events. -/
theorem run_out_served {ms : List Micro} {s : State} (h : s.hung = false)
    (ht : (s.run ms).hung = false) : (s.run ms).out = s.out ++ eventsOf ms := by
  obtain ⟨evs, h1, _, _, h4⟩ := play_out ms s h
  rw [run_out, h1, h4 (play_of_run ht)]

theorem requestedDelay_append (a b : List Event) :
    requestedDelay (a ++ b) = requestedDelay a + requestedDelay b := by
  induction a with
  | nil => simp [requestedDelay]
  | cons e a ih => cases e <;> simp [requestedDelay, ih]; omega

/-! ### What decides a trace -/

/-- Whether an event hangs, and what is left of the platform's engine, depends on that engine alone. -/
theorem emit_congr {s u : State} (hb : s.bus = u.bus) (hh : s.hung = u.hung) (ev : Event) :
    (s.emit ev).bus = (u.emit ev).bus ∧ (s.emit ev).hung = (u.emit ev).hung := by
  cases ev <;> simp only [State.emit, State.record_bus, State.latch_bus, State.record_hung,
    State.latch_hung, hb, hh, and_self]
  simp only [State.transmit, hb]
  split <;> simp_all

/-- Two states with the same trace and the same engine get the same trace from the same events. -/
theorem play_out_congr (evs : List Event) (s u : State) (hb : s.bus = u.bus) (hh : s.hung = u.hung)
    (ho : s.out = u.out) : (s.play (evs.map .event)).out = (u.play (evs.map .event)).out := by
  induction evs generalizing s u with
  | nil => exact ho
  | cons e es ih =>
    have h := emit_congr hb hh e
    have h2 : (s.micro (.event e)).out = (u.micro (.event e)).out := by
      show (s.emit e).out = (u.emit e).out
      rw [(emit_frame s e).1, (emit_frame u e).1, ho]
    simp only [List.map_cons, State.play]
    by_cases hq : (s.micro (.event e)).hung = true
    · have : (u.micro (.event e)).hung = true := by rw [← hq]; exact h.2.symm
      rw [if_pos hq, if_pos this]; exact h2
    · have : ¬ (u.micro (.event e)).hung = true := by intro hc; exact hq (h.2.trans hc)
      rw [if_neg hq, if_neg this]; exact ih _ _ h.1 h.2 h2

theorem run_out_congr (evs : List Event) (s u : State) (hb : s.bus = u.bus) (hh : s.hung = u.hung)
    (ho : s.out = u.out) : (s.run (evs.map .event)).out = (u.run (evs.map .event)).out := by
  rw [run_out, run_out]; exact play_out_congr _ _ _ hb hh ho

/-- The trace of two lists of events in one command is that of two commands. -/
theorem run_append_out (a b : List Event) (s : State) (ha : (s.run (a.map .event)).hung = false) :
    (s.run ((a ++ b).map .event)).out = ((s.run (a.map .event)).run (b.map .event)).out := by
  have hp := play_of_run ha
  rw [run_out, run_out, List.map_append, play_append_of rfl hp]
  apply play_out_congr <;> (rw [State.run, if_neg (by rw [hp]; simp)]; rfl)

end Sys2Proof.Machine
end

