-- ==== Sys2Proof/Laws/Script.lean ====
section
/-! SUPPORT. What a command is, once for all of them: a layer B or C command is a state update and a
list of bytes to send (`scriptOf`); every next state comes from one of five shapes
(`exec_next_cases`). -/

namespace Sys2Proof.Machine

/-! ### Lists of bytes to send -/

/-- One byte of a command: register-select level, value, wait after it. -/
structure Send where
  level : Bool
  byte : Byte
  wait : Nat

/-- The trace of a list of sends on a transport. -/
def sendsTrace (p : Params) (t : Transport) (l : List Send) : List Event :=
  l.flatMap fun x => byteTrace p t x.level x.byte ++ waitTrace x.wait

/-- An instruction byte and its settle delay (R95). -/
def instrSend (p : Params) (b : Byte) : Send := ⟨!p.rsData, b, p.tSettle⟩

/-- A data byte and its settle delay (R96). -/
def dataSend (p : Params) (b : Byte) : Send := ⟨p.rsData, b, p.tDataSettle⟩

theorem sendsTrace_append (p : Params) (t : Transport) (a b : List Send) :
    sendsTrace p t (a ++ b) = sendsTrace p t a ++ sendsTrace p t b := by
  simp [sendsTrace]

theorem winstrSeq_sends (p : Params) (t : Transport) (b : Byte) :
    winstrSeq p t b = (sendsTrace p t [instrSend p b]).map .event := by
  simp [winstrSeq_eq, sendsTrace, instrSend, rsLevel]

theorem wdataSeq_sends (p : Params) (t : Transport) (b : Byte) :
    wdataSeq p t b = (sendsTrace p t [dataSend p b]).map .event := by
  simp [wdataSeq_eq, sendsTrace, dataSend, rsLevel]

theorem wbufSeq_sends (p : Params) (t : Transport) (bs : List Byte) :
    wbufSeq p t bs = (sendsTrace p t (bs.map (dataSend p))).map .event := by
  unfold wbufSeq sendsTrace
  induction bs with
  | nil => rfl
  | cons b bs ih => rw [List.flatMap_cons, ih]; simp [wdataSeq_eq, rsLevel, dataSend]

theorem transmitsIn_sends (p : Params) (t : Transport) (l : List Send) :
    transmitsIn (sendsTrace p t l) = if t.variant = .i2c then 2 * l.length else 0 := by
  unfold sendsTrace
  induction l with
  | nil => simp
  | cons x l ih => simp [ih, transmitsIn_byte]; split <;> omega

/-- What is sent depends on the variant, the device and the backlight bit, not on the pins. -/
theorem byteTrace_congr {t u : Transport} (hv : u.variant = t.variant) (hd : u.dest = t.dest)
    (hy : u.layout = t.layout) (hb : backlightBit u = backlightBit t) (p : Params) (l : Bool) (b : Byte) :
    byteTrace p u l b = byteTrace p t l b := by
  cases t <;> cases u <;>
    simp_all [Transport.variant, Transport.dest, Transport.layout, backlightBit, byteTrace, frameTrace]

theorem sendsTrace_congr {p : Params} {t u : Transport} (l : List Send)
    (h : ∀ x b, byteTrace p u x b = byteTrace p t x b) : sendsTrace p u l = sendsTrace p t l := by
  simp [sendsTrace, h]

theorem replay_sends_cons (p : Params) (t : Transport) (x : Send) (l : List Send)
    (h : t.linesIdle = true) :
    replay t (sendsTrace p t (x :: l)) =
      ((replay (afterByte t x.level x.byte) (sendsTrace p (afterByte t x.level x.byte) l)).1,
        byteItems t.variant x.level x.byte
          ++ (replay (afterByte t x.level x.byte) (sendsTrace p (afterByte t x.level x.byte) l)).2) := by
  have e : sendsTrace p (afterByte t x.level x.byte) l = sendsTrace p t l := by simp [sendsTrace]
  rw [e]
  simp only [sendsTrace, List.flatMap_cons]
  rw [replay_append, replay_append, replay_byte _ _ _ _ h]
  simp only [replay_wait, List.append_nil]

/-- The pins after a non-empty list of sends are those after its last byte. -/
theorem replay_sends (p : Params) (t : Transport) (l : List Send) (x : Send)
    (h : t.linesIdle = true) :
    replay t (sendsTrace p t (l ++ [x])) =
      (afterByte t x.level x.byte,
        (l ++ [x]).flatMap fun y => byteItems t.variant y.level y.byte) := by
  induction l generalizing t with
  | nil =>
    simp only [List.nil_append]
    rw [replay_sends_cons _ _ _ _ h]
    simp [sendsTrace, replay]
  | cons y l ih =>
    rw [List.cons_append, replay_sends_cons _ _ _ _ h, ih _ (by simp)]
    simp

theorem replay_sends_idle (p : Params) (t : Transport) (l : List Send) (h : t.linesIdle = true) :
    (replay t (sendsTrace p t l)).1.linesIdle = true := by
  induction l generalizing t with
  | nil => exact h
  | cons x l ih => rw [replay_sends_cons _ _ _ _ h]; exact ih _ (by simp)

/-- An observer between bytes takes a list of sends byte by byte. -/
theorem onItems_sends (p : Params) (t : Transport) (l : List Send) (o : Observer)
    (h : t.linesIdle = true) (ho : o.pairing = .paired) :
    o.onItems p t.variant (replay t (sendsTrace p t l)).2 =
      l.foldl (fun o x => o.arrive p t.variant x.level x.byte) o := by
  induction l generalizing t o with
  | nil => simp [sendsTrace, replay, Observer.onItems]
  | cons x l ih =>
    rw [replay_sends_cons _ _ _ _ h]
    simp only [onItems_append, onItems_byte _ _ _ _ _ ho, List.foldl_cons]
    have := ih (afterByte t x.level x.byte) (o.arrive p t.variant x.level x.byte) (by simp)
      (arrive_history _ _ _ _ _ ho).2
    rwa [afterByte_variant] at this

theorem foldl_arrive_history (p : Params) (v : Variant) (l : List Send) (o : Observer)
    (ho : o.pairing = .paired) :
    (l.foldl (fun o x => o.arrive p v x.level x.byte) o).bytes
        = o.bytes ++ l.map (fun x => ⟨some x.level, some x.byte⟩)
      ∧ (l.foldl (fun o x => o.arrive p v x.level x.byte) o).pairing = .paired := by
  induction l generalizing o with
  | nil => simp [ho]
  | cons x l ih =>
    have h := arrive_history p v x.level x.byte o ho
    simp [ih _ h.2, h.1]

/-- A command of sends that the platform completes. -/
theorem run_sends (s : State) (l : List Send) (h : s.hung = false)
    (hb : s.busServes (2 * l.length) = true) :
    s.run ((sendsTrace s.params s.transport l).map .event) =
      { s with
        out := s.out ++ sendsTrace s.params s.transport l, upc := 0, pending := []
        transport := (replay s.transport (sendsTrace s.params s.transport l)).1
        obs := s.obs.onItems s.params s.transport.variant
          (replay s.transport (sendsTrace s.params s.transport l)).2
        bus := busAfter s.transport s.bus (2 * l.length) } := by
  have hm := transmitsIn_sends s.params s.transport l
  rw [run_events _ s h fun n hn => serves_of s _ hb n _ hm hn, bus_map_eq s.transport _ _ _ hm]

/-! ### Commands as scripts -/

/-- The display-control byte to send, where all three flags are written. -/
def dctrlSend (s : State) : Option (List Send) := s.dctrlByte.map fun b => [instrSend s.params b]

/-- What a layer B or C command but `INIT` does: the state its events start from, and its sends. -/
def scriptOf (i : Instr) (s : State) : Option (State × List Send) :=
  let one := fun b => some (s, [instrSend s.params b])
  let dctrl := fun (s0 : State) => (dctrlSend s0).map fun l => (s0, l)
  let entry := fun t d =>
    some ({ s with emTarget := some t, emDir := some d }, [instrSend s.params (encEntry s.params t d)])
  let light := fun f =>
    some ({ s with transport := s.transport.setBacklight f }, ([] : List Send))
  match i with
  | .winstr b => one b
  | .wdata b => some (s, [dataSend s.params b])
  | .wbuf data => some (s, data.map (dataSend s.params))
  | .clear => one (encClear s.params)
  | .home => one (encHome s.params)
  | .setcur row col => one (encDdram s.params (cursorAddr s.params row col))
  | .mkchar slot g0 g1 g2 g3 g4 g5 g6 g7 =>
    some (s, instrSend s.params (encCgram s.params (glyphAddr s.params slot)) ::
      [g0, g1, g2, g3, g4, g5, g6, g7].map (dataSend s.params))
  | .dispon => dctrl { s with disp := some true }
  | .dispoff => dctrl { s with disp := some false }
  | .disptgl => dctrl { s with disp := s.disp.map not }
  | .curon => dctrl { s with cur := some true }
  | .curoff => dctrl { s with cur := some false }
  | .curtgl => dctrl { s with cur := s.cur.map not }
  | .blnkon => dctrl { s with blink := some true }
  | .blnkoff => dctrl { s with blink := some false }
  | .blnktgl => dctrl { s with blink := s.blink.map not }
  | .curinc => entry .cursor .inc
  | .curdec => entry .cursor .dec
  | .dspinc => entry .display .dec
  | .dspdec => entry .display .inc
  | .curl => one (encShift s.params .cursor .left)
  | .curr => one (encShift s.params .cursor .right)
  | .scrl => one (encShift s.params .display .left)
  | .scrr => one (encShift s.params .display .right)
  | .blon => light fun _ => true
  | .bloff => light fun _ => false
  | .bltgl => light not
  | .snib _ | .sbyte _ | .sshb _ | .si2cn _ _ | .init | .lcdClear | .lcdHome | .lcdEntry _ _
  | .lcdDctrl _ _ _ | .lcdShift _ _ | .lcdFset _ _ _ | .lcdSetcg _ | .lcdSetdd _
  | .i2cCtrl _ _ _ _ => none

/-- Every command of layers B and C but `INIT` that answers a next state is its script, run. -/
theorem exec_script {i : Instr} {s t : State} (hi : needsReady i = true) (h : exec i s = .next t) :
    s.upc = 0 ∧ s.phase = .ready ∧ ∃ s0 l, scriptOf i s = some (s0, l) ∧
      t = s0.run ((sendsTrace s0.params s0.transport l).map .event) := by
  have hone : ∀ b, s.sendInstr b = .next t →
      t = s.run ((sendsTrace s.params s.transport [instrSend s.params b]).map .event) := by
    intro b hb
    cases hb
    rw [winstrSeq_sends]
  have hdc : ∀ s0 : State, s0.sendDctrl = .next t →
      ∃ s1 l, (dctrlSend s0).map (fun l => (s0, l)) = some (s1, l) ∧
        t = s1.run ((sendsTrace s1.params s1.transport l).map .event) := by
    intro s0 h0
    unfold State.sendDctrl at h0
    split at h0
    · rename_i b hb
      refine ⟨s0, [instrSend s0.params b], by simp [dctrlSend, hb], ?_⟩
      cases h0
      rw [winstrSeq_sends]
    · cases h0
  cases i <;> try (cases hi; done)
  all_goals
    have hg := hostCommand_next h
    refine ⟨hg.1, hg.2.2, ?_⟩
    have hb := hg.2.1
  case wdata => refine ⟨_, _, rfl, ?_⟩; cases hb; rw [wdataSeq_sends]
  case wbuf => refine ⟨_, _, rfl, ?_⟩; cases hb; rw [wbufSeq_sends]
  case mkchar =>
    refine ⟨_, _, rfl, ?_⟩
    cases hb
    rw [wbufSeq_sends, winstrSeq_sends, ← List.map_append, ← sendsTrace_append]
    rfl
  case dispon | dispoff | disptgl | curon | curoff | curtgl | blnkon | blnkoff | blnktgl =>
    exact hdc _ hb
  case curinc | curdec | dspinc | dspdec =>
    refine ⟨_, _, rfl, ?_⟩; cases hb; rw [winstrSeq_sends]
  case blon | bloff | bltgl => refine ⟨_, _, rfl, ?_⟩; cases hb; rfl
  all_goals exact ⟨_, _, rfl, hone _ hb⟩

/-- What a script may change before its first event: flags, entry-mode bits, the backlight bit. -/
theorem scriptOf_frame {i : Instr} {s s0 : State} {l : List Send} (h : scriptOf i s = some (s0, l)) :
    s0 = { s with disp := s0.disp, cur := s0.cur, blink := s0.blink, emTarget := s0.emTarget
                  emDir := s0.emDir, transport := s0.transport }
      ∧ ∃ f, s0.transport = s.transport.setBacklight f := by
  have hid : s.transport = s.transport.setBacklight id := by cases s.transport <;> rfl
  cases i <;> simp only [scriptOf, dctrlSend, Option.map_map, Option.map_eq_some_iff,
      Option.some.injEq, Prod.mk.injEq, Function.comp] at h <;>
    first
    | (cases h; done)
    | (obtain ⟨rfl, _⟩ := h; exact ⟨rfl, _, hid⟩)
    | (obtain ⟨rfl, _⟩ := h; exact ⟨rfl, fun _ => true, rfl⟩)
    | (obtain ⟨rfl, _⟩ := h; exact ⟨rfl, fun _ => false, rfl⟩)
    | (obtain ⟨rfl, _⟩ := h; exact ⟨rfl, not, rfl⟩)
    | (obtain ⟨_, _, rfl, _⟩ := h; exact ⟨rfl, _, hid⟩)

theorem scriptOf_core {i : Instr} {s s0 : State} {l : List Send} (h : scriptOf i s = some (s0, l)) :
    s0.params = s.params ∧ s0.transport.variant = s.transport.variant
      ∧ s0.transport.dest = s.transport.dest ∧ s0.transport.layout = s.transport.layout
      ∧ s0.transport.linesIdle = s.transport.linesIdle
      ∧ s0.devIn = s.devIn ∧ s0.hostIn = s.hostIn ∧ s0.phase = s.phase ∧ s0.out = s.out
      ∧ s0.obs = s.obs ∧ s0.hung = s.hung ∧ s0.upc = s.upc ∧ s0.bus = s.bus
      ∧ s0.hostWaits = s.hostWaits ∧ s0.shared = s.shared := by
  obtain ⟨h1, f, h2⟩ := scriptOf_frame h
  rw [h1]
  refine ⟨rfl, ?_, ?_, ?_, ?_, rfl, rfl, rfl, rfl, rfl, rfl, rfl, rfl, rfl, rfl⟩ <;> simp only [h2] <;>
    cases s.transport <;> rfl

theorem scriptOf_flags {i : Instr} {s s0 : State} {l : List Send} (h : scriptOf i s = some (s0, l))
    (hw : s.FlagsWritten) : s0.FlagsWritten := by
  obtain ⟨h1, h2, h3, h4, h5⟩ := hw
  cases i <;> simp only [scriptOf, dctrlSend, Option.map_map, Option.map_eq_some_iff,
      Option.some.injEq, Prod.mk.injEq, Function.comp] at h <;>
    first
    | (cases h; done)
    | (obtain ⟨rfl, _⟩ := h; exact ⟨h1, h2, h3, h4, h5⟩)
    | (obtain ⟨rfl, _⟩ := h; exact ⟨h1, h2, h3, rfl, rfl⟩)
    | (obtain ⟨_, _, rfl, _⟩ := h; simp_all [State.FlagsWritten])

/-! ### Transport primitives -/

/-- The events of a transport primitive (R84 to R87). -/
def primTrace (i : Instr) (s : State) : List Event :=
  match i with
  | .snib n => .d4 n :: pulseTrace s.params
  | .sbyte b => .d8 b :: pulseTrace s.params
  | .sshb b => shiftTrace b ++ [Event.rck true, Event.rck false] ++ pulseTrace s.params
  | .si2cn d n =>
    match s.transport with
    | .i2c port => [frameTrace port (rsLevel s.params d) n]
    | _ => []
  | _ => []

theorem transmitsIn_prim {i : Instr} {s : State} (h : primitiveOf i = some s.transport.variant) :
    transmitsIn (primTrace i s) = if s.transport.variant = .i2c then 1 else 0 := by
  cases i <;> simp only [primitiveOf, Option.some.injEq, reduceCtorEq] at h <;> rw [← h] <;>
    simp [primTrace, Event.transmits, shiftTrace]
  cases ht : s.transport <;> simp_all [Transport.variant, frameTrace, Event.transmits]

theorem replay_prim_idle {i : Instr} {s : State} (hv : primitiveOf i = some s.transport.variant)
    (h : s.transport.linesIdle = true) :
    (replay s.transport (primTrace i s)).1.linesIdle = true := by
  cases ht : s.transport with
  | ph q =>
    rw [ht] at h hv
    simp only [Transport.linesIdle, Bool.not_eq_true', decide_eq_false_iff_not] at h
    cases i <;> simp [primitiveOf, Transport.variant] at hv
    simp [primTrace, replay, Transport.take, h, Transport.linesIdle]
  | pf q =>
    rw [ht] at h hv
    simp only [Transport.linesIdle, Bool.not_eq_true', decide_eq_false_iff_not] at h
    cases i <;> simp [primitiveOf, Transport.variant] at hv
    simp [primTrace, replay, Transport.take, h, Transport.linesIdle]
  | sr q =>
    rw [ht] at h hv
    simp only [Transport.linesIdle, Bool.and_eq_true, Bool.not_eq_true',
      decide_eq_false_iff_not] at h
    cases i <;> simp [primitiveOf, Transport.variant] at hv
    simp only [primTrace]
    rw [List.append_assoc, replay_shiftTrace q _ h.2]
    simp [replay, Transport.take, SrPins.latch, h.1, Transport.linesIdle]
  | i2c port =>
    rw [ht] at h hv
    simp only [Transport.linesIdle, Bool.not_eq_true'] at h
    cases i <;> simp [primitiveOf, Transport.variant] at hv
    simp only [primTrace, ht]
    rw [replay_frame _ _ _ h]
    simp [replay, Transport.linesIdle]

/-! ### Every next state -/

/-- A command of any kind that answers a next state: a script, a primitive, `INIT`, an instruction
byte at the controller, or a control byte at the expander. -/
theorem exec_next_cases {i : Instr} {s t : State} (h : exec i s = .next t) :
    (∃ s0 l, scriptOf i s = some (s0, l) ∧ s.upc = 0 ∧ s.phase = .ready
        ∧ t = s0.run ((sendsTrace s0.params s0.transport l).map .event))
      ∨ (primitiveOf i = some s.transport.variant ∧ s.upc = 0
        ∧ t = s.run ((primTrace i s).map .event))
      ∨ (i = .init ∧ s.upc = 0 ∧ s.phase = .uninitialized
        ∧ t = s.run (initSeq s.params s.transport))
      ∨ (i.format = .lcdi
        ∧ ∃ b, t = s.receive b (fun o => o.onInstr s.params s.transport.variant i))
      ∨ (i.format = .i2cb ∧ ∃ bs, t = s.latch (s.transport.takeBytes bs)) := by
  by_cases hn : needsReady i = true
  · obtain ⟨hu, hp, s0, l, hs, rfl⟩ := exec_script hn h
    exact .inl ⟨s0, l, hs, hu, hp, rfl⟩
  · cases i <;> try (exact absurd rfl hn)
    case snib =>
      obtain ⟨h1, h2, h3⟩ := hostCommand_next h
      exact .inr (.inl ⟨by rw [h3]; rfl, h1, by cases h2; rw [snibSeq_eq]; rfl⟩)
    case sbyte =>
      obtain ⟨h1, h2, h3⟩ := hostCommand_next h
      exact .inr (.inl ⟨by rw [h3]; rfl, h1, by cases h2; rw [sbyteSeq_eq]; rfl⟩)
    case sshb =>
      obtain ⟨h1, h2, h3⟩ := hostCommand_next h
      exact .inr (.inl ⟨by rw [h3]; rfl, h1, by cases h2; rw [sshbSeq_eq]; rfl⟩)
    case si2cn d n =>
      obtain ⟨h1, h2, h3⟩ := hostCommand_next h
      cases ht : s.transport with
      | i2c port =>
        rw [ht] at h2
        exact .inr (.inl ⟨rfl, h1, by cases h2; rw [si2cnSeq_eq]; simp [primTrace, ht]⟩)
      | ph _ => simp [ht, Transport.variant] at h3
      | pf _ => simp [ht, Transport.variant] at h3
      | sr _ => simp [ht, Transport.variant] at h3
    case init =>
      have h2 := hostCommand_next h
      refine .inr (.inr (.inl ⟨rfl, h2.1, h2.2.2, ?_⟩))
      have := h2.2.1
      cases this
      rfl
    case i2cCtrl n bl en rs =>
      unfold exec execI2cCtrl at h
      simp only at h
      split at h
      · cases h; exact .inr (.inr (.inr (.inr ⟨rfl, _, rfl⟩)))
      all_goals cases h
    all_goals
      cases h
      exact .inr (.inr (.inr (.inl ⟨rfl, _, rfl⟩)))

/-- No command touches a device's input queue. -/
theorem exec_devIn {i : Instr} {s t : State} (h : exec i s = .next t) : t.devIn = s.devIn := by
  rcases exec_next_cases h with ⟨s0, l, hs, _, _, rfl⟩ | ⟨_, _, rfl⟩ | ⟨_, _, _, rfl⟩ | ⟨_, b, rfl⟩
    | ⟨_, bs, rfl⟩
  · rw [← (scriptOf_core hs).2.2.2.2.2.1]; exact (run_sameDevice _ _).2.2.2.2.2.1
  · exact (run_sameDevice _ _).2.2.2.2.2.1
  · exact (run_sameDevice _ _).2.2.2.2.2.1
  · rfl
  · rfl

theorem exec_busy {i : Instr} {s : State} (hf : i.format = .hc) (hu : s.upc ≠ 0) :
    exec i s = .refused .busy := by
  cases i <;> first | cases hf; done | exact hostCommand_busy hu

end Sys2Proof.Machine
end

