-- ==== Sys2Proof/Laws/Init.lean ====
section
/-! SUPPORT. `INIT`: its listing as events with quiet writes between them (R125), what a run of it
gives, and what its trace does to pins and latches. -/

namespace Sys2Proof.Machine

/-! ### Quiet writes commute with events -/

theorem play_quiet (s : State) (m : Micro) (hm : m.isEvent = false)
    (hp : ∀ p, m ≠ .setPhase p) (evs : List Event) :
    (s.micro m).play (evs.map .event) = (s.play (evs.map .event)).micro m := by
  have hc : ∀ (s : State) ev, (s.micro m).emit ev = (s.emit ev).micro m := by
    intro s ev
    cases m <;> simp only [Micro.isEvent, Bool.true_eq_false] at hm
    case setPhase p => exact absurd rfl (hp p)
    all_goals
      cases ev <;> simp only [State.micro] <;>
        first
        | rfl
        | (simp only [State.emit, State.transmit]; split <;> simp_all [State.latch, State.record])
  have hh : ∀ s : State, (s.micro m).hung = s.hung := fun s => micro_quiet_hung s m hm
  induction evs generalizing s with
  | nil => rfl
  | cons ev evs ih =>
    simp only [List.map_cons, State.play]
    have e : (s.micro m).micro (.event ev) = (s.micro (.event ev)).micro m := hc s ev
    rw [e]
    by_cases h : (s.micro (.event ev)).hung = true
    · rw [if_pos (by rw [hh]; exact h), if_pos h]
      exact (micro_pending (s.micro (.event ev)) m _).symm
    · rw [if_neg (by rw [hh]; exact h), if_neg h, ih]

/-! ### The listing -/

/-- Lines 1 to 7 of R125. -/
def initHead (p : Params) (t : Transport) : List Event :=
  let fs8Send : List Event :=
    if t.variant.isFour then nibbleTrace p t (instrLevel p) (hiNibble p.fs8)
    else byteTrace p t (instrLevel p) p.fs8
  waitTrace p.tPower
    ++ fs8Send ++ waitTrace p.tFs1 ++ fs8Send ++ waitTrace p.tFs2 ++ fs8Send ++ waitTrace p.tFs3
    ++ (if t.variant.isFour then nibbleTrace p t (instrLevel p) p.fs4Nib ++ waitTrace p.tSettle else [])
    ++ (byteTrace p t (instrLevel p) (if t.variant.isFour then p.fsFinal4 else p.fsFinal8)
      ++ waitTrace p.tSettle)

/-- One instruction of the tail of R125. -/
def initByte (p : Params) (t : Transport) (b : Byte) : List Event :=
  byteTrace p t (instrLevel p) b ++ waitTrace p.tSettle

theorem initTrace_eq (p : Params) (t : Transport) :
    initTrace p t = initHead p t ++ (initByte p t p.opDctrl ++ initByte p t p.opClear)
      ++ initByte p t (p.opEntry ||| p.emId) ++ initByte p t (p.opDctrl ||| p.dcD) := by
  simp [initTrace, initBytes, initHead, initByte, List.append_assoc]

theorem initSeq_eq (p : Params) (t : Transport) :
    initSeq p t = .setPhase .initializing :: ((initHead p t).map .event
      ++ (.setFlags false false false :: ((initByte p t p.opDctrl ++ initByte p t p.opClear).map .event
      ++ (.setEntry .cursor .inc :: ((initByte p t (p.opEntry ||| p.emId)).map .event
      ++ (.setDisp true :: ((initByte p t (p.opDctrl ||| p.dcD)).map .event
      ++ [.setPhase .ready]))))))) := by
  unfold initSeq initHead initFs8 initFs4
  simp only [winstrSeq_eq, delay_eq, sendByteVia_eq, sendNibbleVia_eq]
  have e4 : encDctrl p false false false = p.opDctrl := by simp [encDctrl, bitIf]
  have e5 : encDctrl p true false false = p.opDctrl ||| p.dcD := by simp [encDctrl, bitIf]
  have e6 : encEntry p .cursor .inc = p.opEntry ||| p.emId := by simp [encEntry, bitIf]
  rw [e4, e5, e6]
  cases h : t.variant.isFour <;>
    simp [initByte, rsLevel, encClear, fsFinal, h, List.append_assoc]

@[simp] theorem eventsOf_init (p : Params) (t : Transport) : eventsOf (initSeq p t) = initTrace p t := by
  rw [initSeq_eq, initTrace_eq]
  simp only [eventsOf, eventsOf_append, eventsOf_map, List.append_nil, List.append_assoc]

/-! ### A run of `INIT` -/

theorem run_init (s : State) (h : s.hung = false)
    (hb : ∀ n, s.bus = some n → transmitsIn (initTrace s.params s.transport) ≤ n) :
    s.run (initSeq s.params s.transport) =
      { s with
        phase := .ready
        disp := some true, cur := some false, blink := some false
        emTarget := some .cursor, emDir := some .inc
        out := s.out ++ initTrace s.params s.transport
        upc := 0
        transport := (replay s.transport (initTrace s.params s.transport)).1
        bus := s.bus.map (· - transmitsIn (initTrace s.params s.transport))
        obs := ((s.obs.startInit s.transport.variant).onItems s.params s.transport.variant
          (replay s.transport (initTrace s.params s.transport)).2).endInit s.params s.transport.variant
        pending := [] } := by
  have hp := play_events (initTrace s.params s.transport) (s.micro (.setPhase .initializing)) h
    (fun n hn => hb n hn)
  rw [initTrace_eq] at hb hp ⊢
  have q : s.play (initSeq s.params s.transport) =
      (((((s.micro (.setPhase .initializing)).play
        ((initHead s.params s.transport
          ++ (initByte s.params s.transport s.params.opDctrl
          ++ initByte s.params s.transport s.params.opClear)
          ++ initByte s.params s.transport (s.params.opEntry ||| s.params.emId)
          ++ initByte s.params s.transport (s.params.opDctrl ||| s.params.dcD)).map .event)).micro
        (.setFlags false false false)).micro (.setEntry .cursor .inc)).micro (.setDisp true)).micro
        (.setPhase .ready) := by
    rw [initSeq_eq, play_cons_quiet s (.setPhase .initializing) _ h]
    generalize initHead s.params s.transport = A at *
    generalize (initByte s.params s.transport s.params.opDctrl
          ++ initByte s.params s.transport s.params.opClear) = B at *
    generalize initByte s.params s.transport (s.params.opEntry ||| s.params.emId) = C at *
    generalize initByte s.params s.transport (s.params.opDctrl ||| s.params.dcD) = D at *
    have h0 : (s.micro (.setPhase .initializing)).hung = false := h
    have b0 : (s.micro (.setPhase .initializing)).bus = s.bus := rfl
    generalize s.micro (.setPhase .initializing) = r at *
    have ok : ∀ evs, transmitsIn evs ≤ transmitsIn A + transmitsIn B + transmitsIn C + transmitsIn D →
        (r.play (evs.map .event)).hung = false := by
      intro evs hle
      rw [play_events evs r h0 (fun n hn => le_trans hle (by
        have := hb n (b0 ▸ hn)
        simp only [transmitsIn_append] at this
        omega))]
      exact h0
    simp only [List.map_append]
    have oA := ok A (by omega)
    have oB := ok (A ++ B) (by simp; omega)
    have oC := ok (A ++ B ++ C) (by simp; omega)
    have oD := ok (A ++ B ++ C ++ D) (by simp; omega)
    simp only [List.map_append] at oB oC oD
    rw [play_append_of rfl oA, play_cons_quiet _ _ _ (by exact oA)]
    have hB : ((r.play (A.map .event)).micro (.setFlags false false false)).play (B.map .event) =
        (r.play (A.map .event ++ B.map .event)).micro (.setFlags false false false) := by
      rw [play_quiet _ _ rfl (by simp), play_append_of rfl oA]
    rw [play_append_of hB (by exact oB), play_cons_quiet _ _ _ (by exact oB)]
    have hC : (((r.play (A.map .event ++ B.map .event)).micro (.setFlags false false false)).micro
        (.setEntry .cursor .inc)).play (C.map .event) =
        ((r.play (A.map .event ++ B.map .event ++ C.map .event)).micro
          (.setFlags false false false)).micro (.setEntry .cursor .inc) := by
      rw [play_quiet _ _ rfl (by simp), play_quiet _ _ rfl (by simp), play_append_of rfl oB]
    rw [play_append_of hC (by exact oC), play_cons_quiet _ _ _ (by exact oC)]
    have hD : ((((r.play (A.map .event ++ B.map .event ++ C.map .event)).micro
        (.setFlags false false false)).micro (.setEntry .cursor .inc)).micro (.setDisp true)).play
        (D.map .event) =
        (((r.play (A.map .event ++ B.map .event ++ C.map .event ++ D.map .event)).micro
          (.setFlags false false false)).micro (.setEntry .cursor .inc)).micro (.setDisp true) := by
      rw [play_quiet _ _ rfl (by simp), play_quiet _ _ rfl (by simp), play_quiet _ _ rfl (by simp),
        play_append_of rfl oC]
    rw [play_append_of hD (by exact oD), play_cons_quiet _ _ _ (by exact oD)]
    rfl
  unfold State.run
  rw [q, hp]
  simp [State.micro, State.after, State.finish, Observer.onPhase, h]

/-- An `INIT` that did not hang was served. -/
theorem init_served (s : State) (h : s.hung = false)
    (hp : (s.run (initSeq s.params s.transport)).hung = false) (n : Nat) (hn : s.bus = some n) :
    transmitsIn (initTrace s.params s.transport) ≤ n := by
  simpa using served_of_play _ s h (play_of_run hp) n hn

theorem play_initializing (ms : List Micro) (r : State) (hr : r.phase = .initializing)
    (hn : ∀ p, .setPhase p ∉ ms) : (r.play ms).phase = .initializing := by
  induction ms generalizing r with
  | nil => exact hr
  | cons m ms ih =>
    have h1 : (r.micro m).phase = .initializing := by
      cases m with
      | event ev => exact (emit_frame r ev).2.2.2.1.trans hr
      | setPhase p => exact absurd (List.mem_cons_self ..) (hn p)
      | _ => exact hr
    simp only [State.play]
    split
    · exact h1
    · exact ih _ h1 fun p hp => hn p (List.mem_cons_of_mem _ hp)

/-- A stuck `INIT` stays in phase Initializing (R134, R136). -/
theorem init_stuck_phase (s : State) (hh : s.hung = false)
    (hpl : (s.play (initSeq s.params s.transport)).hung = true) :
    (s.play (initSeq s.params s.transport)).phase = .initializing := by
  obtain ⟨L, hL, hn⟩ : ∃ L, initSeq s.params s.transport
      = .setPhase .initializing :: (L ++ [.setPhase .ready]) ∧ ∀ p, .setPhase p ∉ L := by
    rw [initSeq_eq]
    refine ⟨(initHead s.params s.transport).map .event ++ (.setFlags false false false ::
      ((initByte s.params s.transport s.params.opDctrl
          ++ initByte s.params s.transport s.params.opClear).map .event
      ++ (.setEntry .cursor .inc :: ((initByte s.params s.transport (s.params.opEntry ||| s.params.emId)).map .event
      ++ (.setDisp true :: ((initByte s.params s.transport (s.params.opDctrl ||| s.params.dcD)).map .event)))))),
      by simp, fun p hp => ?_⟩
    simp at hp
  rw [hL, play_cons_quiet s (.setPhase .initializing) _ hh] at hpl ⊢
  have h0 : (s.micro (.setPhase .initializing)).hung = false := hh
  have h1 : (s.micro (.setPhase .initializing)).phase = .initializing := rfl
  generalize s.micro (.setPhase .initializing) = r at *
  by_cases hq : (r.play L).hung = true
  · rw [play_append_hung _ h0 hq]; exact play_initializing L r h1 hn
  · rw [Bool.not_eq_true] at hq
    rw [play_append_of rfl hq, play_cons_quiet _ (.setPhase .ready) [] hq] at hpl
    exact absurd (hpl.symm.trans hq) (by simp)

/-! ### Its trace at the pins -/

/-- The pins and latches after a lone nibble. -/
def afterNibble (t : Transport) (l : Bool) (n : Nibble) : Transport :=
  match t with
  | .ph _ => .ph ⟨some l, some false, some n⟩
  | .i2c port => .i2c { port with xp := port.layout.byte n l port.bl false }
  | .pf q => .pf q
  | .sr q => .sr q

theorem replay_nibble (p : Params) (t : Transport) (l : Bool) (n : Nibble)
    (h4 : t.variant.isFour = true) (h : t.linesIdle = true) :
    replay t (nibbleTrace p t l n) = (afterNibble t l n, [.nibble (some l) (some n)]) := by
  cases t with
  | ph q =>
    simp only [Transport.linesIdle, Bool.not_eq_true', decide_eq_false_iff_not] at h
    simp [nibbleTrace, afterNibble, replay, Transport.take, h]
  | i2c port =>
    simp only [Transport.linesIdle, Bool.not_eq_true'] at h
    rw [nibbleTrace, replay_frame port l n h]; rfl
  | pf q => simp [Transport.variant, Variant.isFour] at h4
  | sr q => simp [Transport.variant, Variant.isFour] at h4

@[simp] theorem afterNibble_variant (t : Transport) (l : Bool) (n : Nibble) :
    (afterNibble t l n).variant = t.variant := by cases t <;> rfl

theorem afterNibble_idle (t : Transport) (l : Bool) (n : Nibble) (h : t.linesIdle = true) :
    (afterNibble t l n).linesIdle = true := by
  cases t <;> simp_all [afterNibble, Transport.linesIdle]

@[simp] theorem nibbleTrace_afterNibble (p : Params) (t : Transport) (l m : Bool) (n k : Nibble) :
    nibbleTrace p (afterNibble t l n) m k = nibbleTrace p t m k := by cases t <;> rfl

@[simp] theorem byteTrace_afterNibble (p : Params) (t : Transport) (l m : Bool) (n : Nibble)
    (b : Byte) : byteTrace p (afterNibble t l n) m b = byteTrace p t m b := by cases t <;> rfl

@[simp] theorem afterByte_afterNibble (t : Transport) (l m : Bool) (n : Nibble) (b : Byte) :
    afterByte (afterNibble t l n) m b = afterByte t m b := by cases t <;> rfl

@[simp] theorem afterNibble_afterNibble (t : Transport) (l m : Bool) (n k : Nibble) :
    afterNibble (afterNibble t l n) m k = afterNibble t m k := by cases t <;> rfl

/-- A non-empty list of bytes sent at one register-select level. -/
theorem replay_bytes (p : Params) (t : Transport) (l : Bool) (w : Nat) (b : Byte) (bs : List Byte)
    (h : t.linesIdle = true) :
    replay t ((b :: bs).flatMap fun b => byteTrace p t l b ++ waitTrace w) =
      (afterByte t l ((b :: bs).getLast (by simp)), itemsOf t.variant l (b :: bs)) := by
  induction bs generalizing t b with
  | nil => simp [replay_append, replay_byte _ _ _ _ h, itemsOf]
  | cons c cs ih =>
    rw [List.flatMap_cons, replay_append, replay_append, replay_byte _ _ _ _ h]
    have := ih (afterByte t l b) c (by simp)
    simp only [byteTrace_afterByte] at this
    simp only [replay_wait, this]
    simp [itemsOf]

theorem replay_init (p : Params) (t : Transport) (h : t.linesIdle = true) :
    replay t (initTrace p t) =
      (afterByte t (instrLevel p) (p.opDctrl ||| p.dcD), initItems p t.variant) := by
  unfold initTrace initItems
  simp only [initBytes]
  generalize hx : (if t.variant.isFour then p.fsFinal4 else p.fsFinal8) = x
  cases h4 : t.variant.isFour with
  | true =>
    simp only [if_true]
    have n1 := replay_nibble p t (instrLevel p) (hiNibble p.fs8) h4 h
    have n2 := fun n m => replay_nibble p (afterNibble t (instrLevel p) n) (instrLevel p) m
      (by simpa using h4) (afterNibble_idle _ _ _ h)
    simp only [nibbleTrace_afterNibble] at n2
    have n3 := fun n => replay_bytes p (afterNibble t (instrLevel p) n) (instrLevel p) p.tSettle x
      [p.opDctrl, p.opClear, p.opEntry ||| p.emId, p.opDctrl ||| p.dcD] (afterNibble_idle _ _ _ h)
    simp only [byteTrace_afterNibble] at n3
    simp only [replay_append, replay_wait, n1, n2, afterNibble_afterNibble, n3]
    simp
  | false =>
    simp only [Bool.false_eq_true, if_false]
    have n1 := replay_byte p t (instrLevel p) p.fs8 h
    have n2 := fun n m => replay_byte p (afterByte t (instrLevel p) n) (instrLevel p) m (by simp)
    simp only [byteTrace_afterByte] at n2
    have n3 := fun n => replay_bytes p (afterByte t (instrLevel p) n) (instrLevel p) p.tSettle x
      [p.opDctrl, p.opClear, p.opEntry ||| p.emId, p.opDctrl ||| p.dcD] (by simp)
    simp only [byteTrace_afterByte] at n3
    simp only [replay_append, replay_wait, n1, n2, afterByte_afterByte, n3, replay]
    simp [itemsOf]

theorem transmitsIn_nibble (p : Params) (t : Transport) (l : Bool) (n : Nibble) :
    transmitsIn (nibbleTrace p t l n) = if t.variant = .i2c then 1 else 0 := by
  cases t <;> simp [nibbleTrace, Transport.variant, frameTrace, Event.transmits]

theorem transmitsIn_init (p : Params) (t : Transport) :
    transmitsIn (initTrace p t) = if t.variant = .i2c then initTransmits else 0 := by
  unfold initTrace initBytes
  cases t <;> simp [Transport.variant, Variant.isFour, transmitsIn_nibble, transmitsIn_byte,
    initTransmits]

/-! ### What the observer makes of it -/

/-- An instruction byte of a known class, to an observer between bytes that knows the width. -/
theorem arrive_instr {p : Params} {v : Variant} {b : Byte} {i : Instr} {o : Observer}
    (hp : o.pairing = .paired) (ho : o.iface = .matched) (hd : decodeLcdiFor p b = some i) :
    o.arrive p v (instrLevel p) b = Observer.onInstr p v { o with
      items := o.items ++ byteItems v (instrLevel p) b
      bytes := o.bytes ++ [⟨some (instrLevel p), some b⟩] } i := by
  rw [arrive_eq hp]
  simp [Observer.heed, Observer.obey, ho, hd]

/-- A byte sent while `INIT` runs is heard and held back (R151). -/
theorem onItems_booting (p : Params) (v : Variant) (l : Bool) (bs : List Byte) (o : Observer)
    (heard : List LogicalByte) (h : o.pairing = .booting 0 none heard) :
    o.onItems p v (itemsOf v l bs) = { o with
      items := o.items ++ itemsOf v l bs
      bytes := o.bytes ++ bs.map fun b => ⟨some l, some b⟩
      pairing := .booting 0 none (heard ++ bs.map fun b => ⟨some l, some b⟩) } := by
  induction bs generalizing o heard with
  | nil => cases o; cases h; simp [Observer.onItems, itemsOf]
  | cons b bs ih =>
    have e : itemsOf v l (b :: bs) = byteItems v l b ++ itemsOf v l bs := by simp [itemsOf]
    have e1 : o.onItems p v (byteItems v l b) = { o with
        items := o.items ++ byteItems v l b
        bytes := o.bytes ++ [⟨some l, some b⟩]
        pairing := .booting 0 none (heard ++ [⟨some l, some b⟩]) } := by
      unfold byteItems
      split <;>
        simp [Observer.onItems, Observer.onItem, Observer.takeItem, Observer.onByte, Observer.hear, h,
          pairRs, pairValue]
    rw [e, onItems_append, e1, ih _ _ rfl]
    simp [List.append_assoc]

/-- The logical bytes of `INIT` (R41, R125). -/
def initHeard (p : Params) (v : Variant) : List LogicalByte :=
  ((if v.isFour then [] else [p.fs8, p.fs8, p.fs8]) ++ initBytes p v).map
    fun b => ⟨some (instrLevel p), some b⟩

/-- What `INIT` sends, as the observer hears it. -/
theorem init_heard (p : Params) (v : Variant) (o : Observer) :
    (o.startInit v).onItems p v (initItems p v) =
      { o.forget with
        items := o.items ++ initItems p v, bytes := o.bytes ++ initHeard p v
        iface := .unknown, pairing := .booting 0 none (initHeard p v) } := by
  cases h4 : v.isFour with
  | true =>
    have e0 : ∀ a b c d : Item, (∃ n, a = .nibble (some (instrLevel p)) n) →
        (∃ n, b = .nibble (some (instrLevel p)) n) → (∃ n, c = .nibble (some (instrLevel p)) n) →
        (∃ n, d = .nibble (some (instrLevel p)) n) →
        (o.startInit v).onItems p v [a, b, c, d] = { o.forget with
          items := o.items ++ [a, b, c, d], iface := .unknown, pairing := .booting 0 none [] } := by
      rintro _ _ _ _ ⟨_, rfl⟩ ⟨_, rfl⟩ ⟨_, rfl⟩ ⟨_, rfl⟩
      simp [Observer.onItems, Observer.onItem, Observer.takeItem, Observer.startInit,
        Observer.forget, h4]
    simp only [initItems, initHeard, h4, if_true, List.map_cons, List.map_nil, onItems_append]
    rw [e0 _ _ _ _ ⟨_, rfl⟩ ⟨_, rfl⟩ ⟨_, rfl⟩ ⟨_, rfl⟩, onItems_booting _ _ _ _ _ _ rfl]
    simp [Observer.forget]
  | false =>
    simp only [initItems, initHeard, h4, Bool.false_eq_true, if_false]
    have e : itemsOf v (instrLevel p) [p.fs8, p.fs8, p.fs8] ++ itemsOf v (instrLevel p) (initBytes p v)
        = itemsOf v (instrLevel p) ([p.fs8, p.fs8, p.fs8] ++ initBytes p v) := by simp [itemsOf]
    rw [e, onItems_booting _ _ _ _ _ [] (by simp [Observer.startInit, h4])]
    simp [Observer.startInit, Observer.forget]

/-- The bytes of `INIT`, read back (R53). -/
theorem init_decode :
    [0x28#8, 0x38#8, 0x30#8, 0x08#8, 0x0C#8, 0x01#8, 0x06#8].map (decodeLcdiFor Params.default)
      = [.lcdFset false true false, .lcdFset true true false, .lcdFset true false false,
          .lcdDctrl false false false, .lcdDctrl true false false, .lcdClear,
          .lcdEntry true false].map some := by decide

/-- What the observer holds after `INIT` at the default parameters, whole (R41, R125, R151). -/
theorem init_observer (v : Variant) (o : Observer) :
    ((o.startInit v).onItems Params.default v (initItems Params.default v)).endInit Params.default v =
      { o with
        items := o.items ++ initItems Params.default v
        bytes := o.bytes ++ (if v.isFour then [0x28, 0x08, 0x01, 0x06, 0x0C]
          else [0x30, 0x30, 0x30, 0x38, 0x08, 0x01, 0x06, 0x0C]).map fun b => ⟨some false, some b⟩
        pairing := .paired, iface := .matched, space := none, ac := none, dir := some .inc
        ddram := [], cgram := [] } := by
  have d := init_decode
  simp only [List.map_cons, List.map_nil, List.cons.injEq, and_true] at d
  obtain ⟨d28, d38, d30, d08, d0C, d01, d06⟩ := d
  have q : ∀ (b : Byte) (i : Instr) (o : Observer), decodeLcdiFor Params.default b = some i →
      o.iface = .matched → o.heed (Observer.obey Params.default v ⟨some false, some b⟩)
        = o.onInstr Params.default v i := by
    intro b i o h1 h2
    have : Params.default.rsData = true := rfl
    simp [Observer.heed, Observer.obey, h1, h2, this]
  have q28 := fun o => q _ _ o d28
  have q38 := fun o => q _ _ o d38
  have q30 := fun o => q _ _ o d30
  have q08 := fun o => q _ _ o d08
  have q0C := fun o => q _ _ o d0C
  have q01 := fun o => q _ _ o d01
  have q06 := fun o => q _ _ o d06
  have hc : Params.default.clearHomes = false := rfl
  rw [init_heard]
  cases h4 : v.isFour with
  | true =>
    have e : initHeard Params.default v = [0x28#8, 0x08#8, 0x01#8, 0x06#8, 0x0C#8].map
        fun b => ⟨some false, some b⟩ := by cases v <;> first | rfl | cases h4
    rw [e]
    simp [hc, q28, q08, q01, q06, q0C, pairingOf, Observer.onInstr, Observer.onFset,
      Observer.onDctrl, Observer.onClear, Observer.onEntry, Observer.endInit, Observer.forget, h4]
  | false =>
    have e : initHeard Params.default v = [0x30#8, 0x30#8, 0x30#8, 0x38#8, 0x08#8, 0x01#8, 0x06#8,
        0x0C#8].map fun b => ⟨some false, some b⟩ := by cases v <;> first | rfl | cases h4
    rw [e]
    simp [hc, q30, q38, q08, q01, q06, q0C, pairingOf, Observer.onInstr, Observer.onFset,
      Observer.onDctrl, Observer.onClear, Observer.onEntry, Observer.endInit, Observer.forget, h4]

end Sys2Proof.Machine
end

