-- ==== Sys2Proof/Laws/PerInstr.lean ====
section
/-! SUPPORT. Statements made of every instruction, one lemma per constructor. -/

namespace Sys2Proof.Laws.EncodeFits

/-- A well-formed instruction encodes to at least one byte and at most the longest length (R52). -/
def Statement (i : Sys2Proof.Instr) : Prop :=
  i.wellFormed = true → 0 < (encode i).length ∧ (encode i).length ≤ maxInstrBytes

theorem snib (n : Nibble) : Statement (.snib n) := fun _ => ⟨Nat.succ_pos _, Nat.le_of_ble_eq_true rfl⟩
theorem sbyte (b : Byte) : Statement (.sbyte b) := fun _ => ⟨Nat.succ_pos _, Nat.le_of_ble_eq_true rfl⟩
theorem sshb (b : Byte) : Statement (.sshb b) := fun _ => ⟨Nat.succ_pos _, Nat.le_of_ble_eq_true rfl⟩
theorem si2cn (d : Bool) (n : Nibble) : Statement (.si2cn d n) := fun _ => ⟨Nat.succ_pos _, Nat.le_of_ble_eq_true rfl⟩
theorem winstr (b : Byte) : Statement (.winstr b) := fun _ => ⟨Nat.succ_pos _, Nat.le_of_ble_eq_true rfl⟩
theorem wdata (b : Byte) : Statement (.wdata b) := fun _ => ⟨Nat.succ_pos _, Nat.le_of_ble_eq_true rfl⟩
theorem wbuf (data : List Byte) : Statement (.wbuf data) := by
  intro h
  have h : data.length ≤ 255 := by simpa [Instr.wellFormed, wbufLengthFits] using h
  refine ⟨Nat.succ_pos _, ?_⟩
  simp only [encode, List.length_cons, maxInstrBytes]
  omega
theorem clear : Statement .clear := fun _ => ⟨Nat.succ_pos _, Nat.le_of_ble_eq_true rfl⟩
theorem home : Statement .home := fun _ => ⟨Nat.succ_pos _, Nat.le_of_ble_eq_true rfl⟩
theorem setcur (row col : Byte) : Statement (.setcur row col) := fun _ => ⟨Nat.succ_pos _, Nat.le_of_ble_eq_true rfl⟩
theorem mkchar (slot g0 g1 g2 g3 g4 g5 g6 g7 : Byte) : Statement (.mkchar slot g0 g1 g2 g3 g4 g5 g6 g7) := fun _ => ⟨Nat.succ_pos _, Nat.le_of_ble_eq_true rfl⟩
theorem dispon : Statement .dispon := fun _ => ⟨Nat.succ_pos _, Nat.le_of_ble_eq_true rfl⟩
theorem dispoff : Statement .dispoff := fun _ => ⟨Nat.succ_pos _, Nat.le_of_ble_eq_true rfl⟩
theorem disptgl : Statement .disptgl := fun _ => ⟨Nat.succ_pos _, Nat.le_of_ble_eq_true rfl⟩
theorem curon : Statement .curon := fun _ => ⟨Nat.succ_pos _, Nat.le_of_ble_eq_true rfl⟩
theorem curoff : Statement .curoff := fun _ => ⟨Nat.succ_pos _, Nat.le_of_ble_eq_true rfl⟩
theorem curtgl : Statement .curtgl := fun _ => ⟨Nat.succ_pos _, Nat.le_of_ble_eq_true rfl⟩
theorem blnkon : Statement .blnkon := fun _ => ⟨Nat.succ_pos _, Nat.le_of_ble_eq_true rfl⟩
theorem blnkoff : Statement .blnkoff := fun _ => ⟨Nat.succ_pos _, Nat.le_of_ble_eq_true rfl⟩
theorem blnktgl : Statement .blnktgl := fun _ => ⟨Nat.succ_pos _, Nat.le_of_ble_eq_true rfl⟩
theorem curinc : Statement .curinc := fun _ => ⟨Nat.succ_pos _, Nat.le_of_ble_eq_true rfl⟩
theorem curdec : Statement .curdec := fun _ => ⟨Nat.succ_pos _, Nat.le_of_ble_eq_true rfl⟩
theorem dspinc : Statement .dspinc := fun _ => ⟨Nat.succ_pos _, Nat.le_of_ble_eq_true rfl⟩
theorem dspdec : Statement .dspdec := fun _ => ⟨Nat.succ_pos _, Nat.le_of_ble_eq_true rfl⟩
theorem curl : Statement .curl := fun _ => ⟨Nat.succ_pos _, Nat.le_of_ble_eq_true rfl⟩
theorem curr : Statement .curr := fun _ => ⟨Nat.succ_pos _, Nat.le_of_ble_eq_true rfl⟩
theorem scrl : Statement .scrl := fun _ => ⟨Nat.succ_pos _, Nat.le_of_ble_eq_true rfl⟩
theorem scrr : Statement .scrr := fun _ => ⟨Nat.succ_pos _, Nat.le_of_ble_eq_true rfl⟩
theorem init : Statement .init := fun _ => ⟨Nat.succ_pos _, Nat.le_of_ble_eq_true rfl⟩
theorem blon : Statement .blon := fun _ => ⟨Nat.succ_pos _, Nat.le_of_ble_eq_true rfl⟩
theorem bloff : Statement .bloff := fun _ => ⟨Nat.succ_pos _, Nat.le_of_ble_eq_true rfl⟩
theorem bltgl : Statement .bltgl := fun _ => ⟨Nat.succ_pos _, Nat.le_of_ble_eq_true rfl⟩
theorem lcdClear : Statement .lcdClear := fun _ => ⟨Nat.succ_pos _, Nat.le_of_ble_eq_true rfl⟩
theorem lcdHome : Statement .lcdHome := fun _ => ⟨Nat.succ_pos _, Nat.le_of_ble_eq_true rfl⟩
theorem lcdEntry (i s : Bool) : Statement (.lcdEntry i s) := fun _ => ⟨Nat.succ_pos _, Nat.le_of_ble_eq_true rfl⟩
theorem lcdDctrl (d c b : Bool) : Statement (.lcdDctrl d c b) := fun _ => ⟨Nat.succ_pos _, Nat.le_of_ble_eq_true rfl⟩
theorem lcdShift (s r : Bool) : Statement (.lcdShift s r) := fun _ => ⟨Nat.succ_pos _, Nat.le_of_ble_eq_true rfl⟩
theorem lcdFset (l n f : Bool) : Statement (.lcdFset l n f) := fun _ => ⟨Nat.succ_pos _, Nat.le_of_ble_eq_true rfl⟩
theorem lcdSetcg (a : BitVec 6) : Statement (.lcdSetcg a) := fun _ => ⟨Nat.succ_pos _, Nat.le_of_ble_eq_true rfl⟩
theorem lcdSetdd (a : BitVec 7) : Statement (.lcdSetdd a) := fun _ => ⟨Nat.succ_pos _, Nat.le_of_ble_eq_true rfl⟩
theorem i2cCtrl (n : Nibble) (bl en rs : Bool) : Statement (.i2cCtrl n bl en rs) := fun _ => ⟨Nat.succ_pos _, Nat.le_of_ble_eq_true rfl⟩

end Sys2Proof.Laws.EncodeFits
end

