-- ==== Sys2Proof/Laws/Step.lean ====
section
/-! SUPPORT. What one step does, one lemma per case, and the host decoder's reductions. -/

namespace Sys2Proof.Machine

variable {s : State}

/-- Nothing intrudes: no second agent, and the host waits for done or presents nothing while a command
runs. -/
theorem intrusion_none (hs : s.shared = false) (hw : s.upc = 0 ∨ s.hostWaits = true ∨ s.hostIn = []) :
    s.intrusion = none := by
  unfold State.intrusion
  rw [if_neg]
  rintro (h | ⟨h1, h2, h3⟩)
  · rw [hs] at h; cases h
  · rcases hw with h | h | h
    · exact h1 h
    · rw [h] at h2; cases h2
    · exact h3 h

theorem step_alone (hs : s.shared = false) (hw : s.upc = 0 ∨ s.hostWaits = true ∨ s.hostIn = []) :
    step s = stepAlone s := by simp [step, intrusion_none hs hw]

theorem step_shared (hs : s.shared = true) : step s = .refused .busy := by
  simp [step, State.intrusion, hs]

theorem step_presented (hu : s.upc ≠ 0) (hw : s.hostWaits = false) (hi : s.hostIn ≠ []) :
    step s = .refused .busy := by
  simp [step, State.intrusion, hu, hw, hi]

theorem step_hung (hs : s.shared = false) (hw : s.hostWaits = true ∨ s.hostIn = [])
    (h : s.hung = true) : step s = .fault .i2cStuck := by
  simp [step_alone hs (.inr hw), stepAlone, h]

theorem step_running (hs : s.shared = false) (hw : s.hostWaits = true ∨ s.hostIn = [])
    (h : s.hung = false) (hu : s.upc ≠ 0) : step s = .next s.tick := by
  simp [step_alone hs (.inr hw), stepAlone, h, hu]

theorem step_device {d : DeviceByte} {ds : List DeviceByte} (hs : s.shared = false)
    (h : s.hung = false) (hu : s.upc = 0) (hd : s.devIn = d :: ds) :
    step s = stepDevice d { s with devIn := ds } := by
  simp [step_alone hs (.inl hu), stepAlone, h, hu, hd]

theorem step_idle (hs : s.shared = false) (h : s.hung = false) (hu : s.upc = 0) (hd : s.devIn = [])
    (hi : s.hostIn = []) : step s = .next s := by
  simp [step_alone hs (.inl hu), stepAlone, h, hu, hd, stepHost, hi]

/-- The outcome stands where the host waits, or has no more to present, or the command has no event. -/
theorem pressed_eq (r : Host.Outcome State Fault Refusal) (h : s.hostWaits = true ∨ s.hostIn = []) :
    pressed s r = r := by
  cases r <;> simp only [pressed]
  rcases h with h | h <;> simp [h]

theorem pressed_next {r : Host.Outcome State Fault Refusal} {t : State} (h : pressed s r = .next t) :
    r = .next t := by
  cases r <;> simp only [pressed] at h
  · split at h
    · cases h
    · exact h
  · cases h
  · cases h

theorem step_host {i : Instr} {rest : List Byte} (hs : s.shared = false) (h : s.hung = false)
    (hu : s.upc = 0) (hd : s.devIn = []) (hi : decode s.hostIn = .ok i rest) :
    step s = pressed { s with hostIn := rest } (exec i { s with hostIn := rest }) := by
  cases hx : s.hostIn with
  | nil => rw [hx] at hi; cases hi
  | cons b bs =>
    rw [step_alone hs (.inl hu)]
    rw [hx] at hi
    simp only [stepAlone, h, hu, hd, stepHost, hx, hi]; simp

theorem step_command {i : Instr} {rest : List Byte} (hs : s.shared = false)
    (hw : s.hostWaits = true ∨ rest = []) (h : s.hung = false) (hu : s.upc = 0) (hd : s.devIn = [])
    (hi : decode s.hostIn = .ok i rest) : step s = exec i { s with hostIn := rest } := by
  rw [step_host hs h hu hd hi, pressed_eq _ hw]

theorem step_bad {e : DecodeError} (hs : s.shared = false) (h : s.hung = false) (hu : s.upc = 0)
    (hd : s.devIn = []) (hn : s.hostIn ≠ []) (hi : decode s.hostIn = .bad e) :
    step s = .refused (refusalOf e) := by
  cases hx : s.hostIn with
  | nil => exact absurd hx hn
  | cons b bs =>
    rw [step_alone hs (.inl hu)]
    rw [hx] at hi
    simp only [stepAlone, h, hu, hd, stepHost, hx, hi]; simp

/-- Every next state comes from one of these. -/
theorem step_next {t : State} (h : step s = .next t) :
    s.hung = false ∧
      ((s.upc ≠ 0 ∧ t = s.tick)
        ∨ (s.upc = 0 ∧ ∃ d ds, s.devIn = d :: ds ∧ stepDevice d { s with devIn := ds } = .next t)
        ∨ (s.upc = 0 ∧ s.devIn = [] ∧ s.hostIn = [] ∧ t = s)
        ∨ (s.upc = 0 ∧ s.devIn = [] ∧ ∃ i rest, decode s.hostIn = .ok i rest
            ∧ exec i { s with hostIn := rest } = .next t)) := by
  unfold step at h
  split at h
  · cases h
  unfold stepAlone at h
  split at h
  · cases h
  rename_i hh
  refine ⟨by simpa using hh, ?_⟩
  split at h
  · rename_i hu
    exact .inl ⟨hu, by cases h; rfl⟩
  rename_i hu
  have hu : s.upc = 0 := by simpa using hu
  split at h
  · rename_i d ds hd
    exact .inr (.inl ⟨hu, d, ds, hd, h⟩)
  rename_i hd
  unfold stepHost at h
  split at h
  · rename_i hi
    exact .inr (.inr (.inl ⟨hu, hd, hi, by cases h; rfl⟩))
  · split at h
    · rename_i i rest hdec
      exact .inr (.inr (.inr ⟨hu, hd, i, rest, hdec, pressed_next h⟩))
    · cases h

/-- A host command decodes to host commands only. -/
theorem decode_format {bs rest : List Byte} {i : Instr} (h : decode bs = .ok i rest) :
    i.format = .hc := by
  cases bs with
  | nil => cases h
  | cons op r =>
    simp only [decode] at h
    unfold decodeOpcode at h
    split at h <;>
      first
      | (cases h; rfl)
      | cases h
      | (unfold take1 at h; split at h <;> cases h; rfl)
      | (unfold takeSnib at h; split at h <;> (try split at h) <;> cases h; rfl)
      | (unfold takeSi2cn at h; split at h <;> (try split at h) <;> cases h; rfl)
      | (unfold takeWbuf at h; split at h <;> (try split at h) <;> cases h; rfl)
      | (unfold takeSetcur at h; split at h <;> cases h; rfl)
      | (unfold takeMkchar at h; split at h <;> cases h; rfl)

end Sys2Proof.Machine
end

