-- ==== Sys2Proof/Machine/Assembler.lean ====
section
/-! DEFINITION. The assembly syntax of `30_encoding.md` R68: one command a line, its mnemonic, its
operands separated by commas, each a decimal or `0x` hexadecimal number, `;` starting a comment, a
double-quoted string after `WBUF`. Text is a list of characters. Nothing in the machine uses it. -/

namespace Sys2Proof.Assembler

/-! ### Characters -/

/-- The double quote. -/
def quote : Char := Char.ofNat 34

def isBlank (c : Char) : Bool := c == ' ' || c == Char.ofNat 9 || c == Char.ofNat 13

/-- The value of a digit, in a base up to sixteen. -/
def digit (base : Nat) (c : Char) : Option Nat :=
  let n := c.toNat
  let v :=
    if 48 ≤ n ∧ n ≤ 57 then some (n - 48)
    else if 97 ≤ n ∧ n ≤ 102 then some (n - 87)
    else if 65 ≤ n ∧ n ≤ 70 then some (n - 55)
    else none
  v.bind fun d => if d < base then some d else none

/-- Digits, most significant first. -/
def digits (base : Nat) : Nat → List Char → Option Nat
  | acc, [] => some acc
  | acc, c :: cs => (digit base c).bind fun d => digits base (acc * base + d) cs

/-- Drop blanks at both ends. -/
def trim (cs : List Char) : List Char :=
  ((cs.dropWhile isBlank).reverse.dropWhile isBlank).reverse

/-! ### Operands -/

/-- A number that fits an operand (`OPW`, R6). -/
def operandByte (n : Nat) : Option Byte := if n < 256 then some (BitVec.ofNat 8 n) else none

/-- One operand: decimal, or hexadecimal with prefix `0x`. -/
def operand (cs : List Char) : Option Byte :=
  match trim cs with
  | [] => none
  | '0' :: 'x' :: [] => none
  | '0' :: 'x' :: c :: cs => (digits 16 0 (c :: cs)).bind operandByte
  | c :: cs => (digits 10 0 (c :: cs)).bind operandByte

/-- Cut a list at every separator; n separators give n + 1 parts. -/
def splitAt (sep : Char) : List Char → List (List Char)
  | [] => [[]]
  | c :: cs =>
    if c = sep then [] :: splitAt sep cs
    else
      match splitAt sep cs with
      | p :: ps => (c :: p) :: ps
      | [] => [[c]]

/-- All parts, or none of them. -/
def operandsOf : List (List Char) → Option (List Byte)
  | [] => some []
  | p :: ps => (operand p).bind fun b => (operandsOf ps).map fun bs => b :: bs

/-- The operands of a command: nothing, or parts separated by commas. -/
def operands (cs : List Char) : Option (List Byte) :=
  match trim cs with
  | [] => some []
  | c :: cs => operandsOf (splitAt ',' (c :: cs))

/-- A double-quoted string: the count of its characters, then their codes. -/
def stringOperands (cs : List Char) : Option (List Byte) :=
  let body := cs.takeWhile fun c => c != quote
  let rest := cs.drop body.length
  if rest = [] ∨ trim (rest.drop 1) ≠ [] then none
  else
    (operandsFit body).bind fun codes => (operandByte body.length).map fun n => n :: codes
where
  /-- Character codes, each in one byte. -/
  operandsFit : List Char → Option (List Byte)
    | [] => some []
    | c :: cs => (operandByte c.toNat).bind fun b => (operandsFit cs).map fun bs => b :: bs

/-! ### Commands -/

/-- How many operands a mnemonic takes: a fixed number, or a count and that many (R52). -/
inductive Arity where
  | fixed (n : Nat)
  | counted
deriving DecidableEq, Repr

/-- A row of the host opcode map of R51. -/
structure Row where
  name : List Char
  opcode : Byte
  arity : Arity
deriving DecidableEq, Repr

/-- Layers T and B. -/
def rowsByte : List Row :=
  [⟨['S','N','I','B'], 0x10, .fixed 1⟩, ⟨['S','B','Y','T','E'], 0x11, .fixed 1⟩,
   ⟨['S','S','H','B'], 0x12, .fixed 1⟩, ⟨['S','I','2','C','N'], 0x13, .fixed 2⟩,
   ⟨['W','I','N','S','T','R'], 0x20, .fixed 1⟩, ⟨['W','D','A','T','A'], 0x21, .fixed 1⟩,
   ⟨['W','B','U','F'], 0x22, .counted⟩]

/-- Layer C, clear to the display flags. -/
def rowsFlags : List Row :=
  [⟨['C','L','E','A','R'], 0x30, .fixed 0⟩, ⟨['H','O','M','E'], 0x31, .fixed 0⟩,
   ⟨['S','E','T','C','U','R'], 0x32, .fixed 2⟩, ⟨['M','K','C','H','A','R'], 0x33, .fixed 9⟩,
   ⟨['D','I','S','P','O','N'], 0x40, .fixed 0⟩, ⟨['D','I','S','P','O','F','F'], 0x41, .fixed 0⟩,
   ⟨['D','I','S','P','T','G','L'], 0x42, .fixed 0⟩, ⟨['C','U','R','O','N'], 0x43, .fixed 0⟩,
   ⟨['C','U','R','O','F','F'], 0x44, .fixed 0⟩, ⟨['C','U','R','T','G','L'], 0x45, .fixed 0⟩,
   ⟨['B','L','N','K','O','N'], 0x46, .fixed 0⟩, ⟨['B','L','N','K','O','F','F'], 0x47, .fixed 0⟩,
   ⟨['B','L','N','K','T','G','L'], 0x48, .fixed 0⟩]

/-- Layer C, entry mode to backlight. -/
def rowsMotion : List Row :=
  [⟨['C','U','R','I','N','C'], 0x50, .fixed 0⟩, ⟨['C','U','R','D','E','C'], 0x51, .fixed 0⟩,
   ⟨['D','S','P','I','N','C'], 0x52, .fixed 0⟩, ⟨['D','S','P','D','E','C'], 0x53, .fixed 0⟩,
   ⟨['C','U','R','L'], 0x54, .fixed 0⟩, ⟨['C','U','R','R'], 0x55, .fixed 0⟩,
   ⟨['S','C','R','L'], 0x56, .fixed 0⟩, ⟨['S','C','R','R'], 0x57, .fixed 0⟩,
   ⟨['I','N','I','T'], 0x60, .fixed 0⟩, ⟨['B','L','O','N'], 0x61, .fixed 0⟩,
   ⟨['B','L','O','F','F'], 0x62, .fixed 0⟩, ⟨['B','L','T','G','L'], 0x63, .fixed 0⟩]

/-- The mnemonics of R51 with their opcodes. -/
def rows : List Row := rowsByte ++ rowsFlags ++ rowsMotion

/-- The operand bytes of a row; `SI2CN d, n` packs its two operands into one byte (R68). -/
def operandBytes (r : Row) (ops : List Byte) : Option (List Byte) :=
  match r.arity, ops with
  | .fixed n, ops =>
    if ops.length ≠ n then none
    else if r.opcode = 0x13 then
      match ops with
      | [d, n] => some [(d <<< 4) ||| n]
      | _ => none
    else some ops
  | .counted, n :: bs => if bs.length = n.toNat then some (n :: bs) else none
  | .counted, [] => none

/-- Drop a comment, which does not start inside a string. -/
def uncomment : Bool → List Char → List Char
  | _, [] => []
  | inString, c :: cs =>
    if c = quote then c :: uncomment (!inString) cs
    else if c = ';' ∧ inString = false then []
    else c :: uncomment inString cs

/-- One line: no bytes for a blank line, else the opcode byte and the operand bytes; none where the
line is not a command of R68. -/
def assembleLine (line : List Char) : Option (List Byte) :=
  let text := trim (uncomment false line)
  let name := text.takeWhile fun c => !isBlank c
  let rest := trim (text.drop name.length)
  if text = [] then some []
  else
    (rows.find? fun r => decide (r.name = name)).bind fun r =>
      let ops :=
        match r.arity, rest with
        | .counted, c :: cs => if c = quote then stringOperands cs else operands rest
        | _, _ => operands rest
      ops.bind fun bs => (operandBytes r bs).map fun os => r.opcode :: os

/-- The lines of a program, in order. -/
def assembleLines : List (List Char) → Option (List Byte)
  | [] => some []
  | l :: ls => (assembleLine l).bind fun bs => (assembleLines ls).map fun cs => bs ++ cs

/-- A program: one command a line. -/
def assemble (text : List Char) : Option (List Byte) := assembleLines (splitAt (Char.ofNat 10) text)

end Sys2Proof.Assembler
end

