-- ==== Sys2Proof/Tests/Slice0.lean ====
section
/-! SUPPORT. Tests of single steps, their expected values from `spec/95_test_vectors.md` (named by
vector) or from the cited rule, and witnesses that the hypotheses of the obligations can be met. -/

namespace Sys2Proof.Tests

open Sys2Proof Sys2Proof.Machine Sys2Proof.Claims

/-! ### Small states -/

/-- Phase Ready with given flags, entry mode (cursor, inc), an observer between bytes: the start state
of the vectors. -/
def readyWith (p : Params) (w : Wiring) (d c b : Bool) : State :=
  { State.construct p w none with
    phase := .ready, disp := some d, cur := some c, blink := some b
    emTarget := some .cursor, emDir := some .inc
    obs := { Observer.powerOn with pairing := .paired, iface := .matched, dir := some .inc } }

/-- The I2C wiring with a backlight bit. -/
def wireI2c (bl : Bool) : Wiring := .i2c ⟨0, 0⟩ bl {}

def ready (w : Wiring) : State := readyWith Params.default w true false false

def fresh (w : Wiring) : State := State.construct Params.default w none

/-- The next state of an outcome. -/
def nextOf (r : Host.Outcome State Fault Refusal) : Option State :=
  match r with
  | .next s => some s
  | .fault _ => none
  | .refused _ => none

/-- The refusal of an outcome. -/
def refusalIn (r : Host.Outcome State Fault Refusal) : Option Refusal :=
  match r with
  | .refused x => some x
  | .next _ => none
  | .fault _ => none

/-- The trace a command leaves. -/
def traceOf (i : Instr) (s : State) : Option (List Event) := (nextOf (exec i s)).map (·.out)

/-- The flags and the logical bytes a command leaves. -/
def flagsOf (i : Instr) (s : State) :
    Option (Option Bool × Option Bool × Option Bool × List LogicalByte) :=
  (nextOf (exec i s)).map fun t => (t.disp, t.cur, t.blink, t.obs.bytes)

/-- The entry-mode bits and the logical bytes a command leaves. -/
def entryOf (i : Instr) (s : State) : Option (Option EmTarget × Option EmDir × List LogicalByte) :=
  (nextOf (exec i s)).map fun t => (t.emTarget, t.emDir, t.obs.bytes)

/-- What a host stream gives at a state. -/
def stepRefusal (s : State) (bs : List Byte) : Option Refusal :=
  refusalIn (step { s with hostIn := bs })

/-- `[P]` of the vectors. -/
def pulse : List Event := [.dly 1, .e true, .dly 1, .e false, .dly 1]

/-- One frame of the vectors, to the device of `wireI2c`. -/
def frame (a b c : Byte) : Event := .i2c ⟨0, 0⟩ a b c

/-- A logical instruction byte, a logical data byte. -/
def inst (b : Byte) : LogicalByte := ⟨some false, some b⟩
def data (b : Byte) : LogicalByte := ⟨some true, some b⟩

/-- One bit of `ShiftOut`. -/
def shiftedBit (l : Bool) : List Event := [.ser l, .sck true, .sck false]

/-! ### Decoding: words written out from the encodings of R51, R53, R62 -/

theorem test_decode_layerT : decode [0b00010010, 0b10100101] = .ok (.sshb 0xA5) [] := by decide
theorem test_decode_sbyte : decode [0b00010001, 0b00110000] = .ok (.sbyte 0x30) [] := by decide
theorem test_decode_winstr : decode [0b00100000, 0b11000101] = .ok (.winstr 0xC5) [] := by decide
theorem test_decode_wdata : decode [0b00100001, 0b01000001, 0x30] = .ok (.wdata 0x41) [0x30] := by
  decide
theorem test_decode_mkchar :
    decode [0b00110011, 3, 0, 0x0A, 0x1F, 0x1F, 0x0E, 4, 0, 1]
      = .ok (.mkchar 3 0 0x0A 0x1F 0x1F 0x0E 4 0 1) [] := by decide

theorem test_decode_clear_home :
    decode [0b00110000] = .ok .clear [] ∧ decode [0b00110001] = .ok .home [] := by decide
theorem test_decode_flags :
    [0x40, 0x41, 0x42, 0x43, 0x44, 0x45, 0x46, 0x47, 0x48].map (fun b => decode [b])
      = [.dispon, .dispoff, .disptgl, .curon, .curoff, .curtgl, .blnkon, .blnkoff, .blnktgl].map
          (fun i => Decoded.ok i []) := by decide
theorem test_decode_motion :
    [0x50, 0x51, 0x52, 0x53, 0x54, 0x55, 0x56, 0x57].map (fun b => decode [b])
      = [.curinc, .curdec, .dspinc, .dspdec, .curl, .curr, .scrl, .scrr].map
          (fun i => Decoded.ok i []) := by decide
theorem test_decode_system :
    [0x60, 0x61, 0x62, 0x63].map (fun b => decode [b])
      = [.init, .blon, .bloff, .bltgl].map (fun i => Decoded.ok i []) := by decide
theorem test_decode_lcdi :
    [0b00000001, 0b00000010, 0b00000101, 0b00001110, 0b00011100, 0b00111000, 0b01011000,
      0b11000101].map decodeLcdi
      = [.lcdClear, .lcdHome, .lcdEntry false true, .lcdDctrl true true false, .lcdShift true true,
          .lcdFset true true false, .lcdSetcg 0x18, .lcdSetdd 0x45].map some := by decide
/-- No class of R53: the byte 0, and shift or function-set with a low bit set (R66). -/
theorem test_decode_lcdi_none :
    [0x00, 0x11, 0x22].map decodeLcdi = [none, none, none] := by decide
/-- Vector T9. -/
theorem test_control_bytes :
    let layout : CtlLayout := {}
    [layout.byte 0 false false false, layout.byte 0 false false true, layout.byte 0 false true false,
      layout.byte 0 true false false, layout.byte 0xF true true true, layout.byte 0xC false true false,
      layout.byte 0x5 false true true, layout.byte 0x4 true true false]
      = [0x00, 0x04, 0x08, 0x01, 0xFD, 0xC8, 0x5C, 0x49] := by decide
/-- Other literals (U14, R6): an opcode base in another bit, an expander with the nibble low. -/
def otherParams : Params := { opDctrl := 0x04, opEntry := 0x08, emId := 0x04, emS := 0x02 }
def otherLayout : CtlLayout := { rsBit := 4, rwBit := 5, enBit := 6, blBit := 7, nibbleBit := 0 }
theorem test_other_literals :
    decodeLcdiFor otherParams 0x0C = some (.lcdEntry true false)
      ∧ (nextOf (exec .curinc (readyWith otherParams .pf true false false))).map
          (fun t => (t.out.take 2, t.obs.dir)) = some ([.rs false, .d8 0x0C], some .inc) := by decide
theorem test_other_layout :
    traceOf (.si2cn true 3) (fresh (.i2c ⟨0, 0⟩ true otherLayout))
        = some [.i2c ⟨0, 0⟩ 0x93 0xD3 0x93]
      ∧ otherLayout.decode 0xD3 = some (.i2cCtrl 3 true true true)
      ∧ otherLayout.decode 0x20 = none := by decide
/-- Bit 1 set is no control byte the adapter sends (R66 (a)). -/
theorem test_decode_ctl_read : decodeCtl 0x02 = none := by decide

/-! ### Well-formedness, the one check: a `WBUF` of 256 bytes has no count byte (R97) -/

theorem test_wbuf_too_long : (Instr.wbuf (List.replicate 256 0)).wellFormed = false := by
  show decide ((List.replicate 256 (0 : Byte)).length ≤ 255) = false
  rw [List.length_replicate]
  decide
theorem test_wbuf_longest : (Instr.wbuf (List.replicate 255 0)).wellFormed = true := by
  show decide ((List.replicate 255 (0 : Byte)).length ≤ 255) = true
  rw [List.length_replicate]
  decide

/-! ### Host words of the opcode table -/

theorem test_table_word_host : decodeTableWord 8 0x60 = some .init := by decide
theorem test_table_word_lcd : decodeTableWord 8 0x80 = some (.lcdSetdd 0) := by decide
theorem test_fetch_word_runs :
    step (State.reset.withFetchWord 16 0x0310) = exec (.snib 3) State.reset := rfl

/-! ### Layer T: vectors T1, T3 to T8, T10, T11 -/

theorem test_snib_trace : traceOf (.snib 3) (fresh .ph) = some (.d4 3 :: pulse) := by decide
theorem test_snib_unknown_rs :
    (nextOf (exec (.snib 3) (fresh .ph))).map (·.obs.items) = some [.nibble none (some 3)] := by decide
theorem test_sbyte_trace : traceOf (.sbyte 0x30) (fresh .pf) = some (.d8 0x30 :: pulse) := by decide
theorem test_sbyte_two_delays :
    traceOf (.sbyte 0x30) (State.construct { Params.default with tPre := 0 } .pf none)
      = some [.d8 0x30, .e true, .dly 1, .e false, .dly 1] := by decide
theorem test_sshb_trace :
    traceOf (.sshb 0xA5) (fresh .sr)
      = some ([true, false, true, false, false, true, false, true].flatMap shiftedBit
          ++ [.rck true, .rck false] ++ pulse) := by decide
theorem test_sshb_latch :
    (nextOf (exec (.sshb 0xA5) (fresh .sr))).map (·.obs.items) = some [.byte none (some 0xA5)] := by
  decide
theorem test_si2cn_backlight :
    traceOf (.si2cn false 3) (fresh (wireI2c true)) = some [frame 0x38 0x3C 0x38] := by decide
theorem test_si2cn_data :
    traceOf (.si2cn true 15) (fresh (wireI2c false)) = some [frame 0xF1 0xF5 0xF1] := by decide
theorem test_wrong_variant :
    [refusalIn (exec (.snib 3) (fresh .pf)), refusalIn (exec (.sbyte 0x30) (fresh .ph)),
      refusalIn (exec (.sshb 1) (fresh (wireI2c true))), refusalIn (exec (.si2cn false 3) (fresh .sr))]
      = [some .wrongVariant, some .wrongVariant, some .wrongVariant, some .wrongVariant] := by decide

/-! ### Layer B: vectors B1, B2, B4, B6 -/

theorem test_winstr_ph :
    traceOf (.winstr 0xC5) (ready .ph)
      = some ([.rs false, .d4 0xC] ++ pulse ++ [.d4 5] ++ pulse ++ [.dly 2]) := by decide
theorem test_winstr_i2c :
    traceOf (.winstr 0xC5) (ready (wireI2c true))
      = some [frame 0xC8 0xCC 0xC8, frame 0x58 0x5C 0x58, .dly 2] := by decide
theorem test_wdata_i2c :
    traceOf (.wdata 0x41) (ready (wireI2c false))
      = some [frame 0x41 0x45 0x41, frame 0x11 0x15 0x11] := by decide
theorem test_wdata_before_init : stepRefusal (fresh .pf) [0x21, 0x41] = some .notReady := by decide
theorem test_wbuf_pf :
    traceOf (.wbuf [0x41, 0x42]) (ready .pf)
      = some ([.rs true, .d8 0x41] ++ pulse ++ [.rs true, .d8 0x42] ++ pulse) := by decide
theorem test_wbuf_empty : traceOf (.wbuf []) (ready .pf) = some [] := by decide

/-! ### Display flags: vectors F1 to F3 -/

theorem test_dispon : flagsOf .dispon (readyWith {} .pf false true false)
    = some (some true, some true, some false, [inst 0x0E]) := by decide
theorem test_dispoff : flagsOf .dispoff (readyWith {} .pf true true true)
    = some (some false, some true, some true, [inst 0x0B]) := by decide
theorem test_disptgl : flagsOf .disptgl (readyWith {} .pf false true false)
    = some (some true, some true, some false, [inst 0x0E]) := by decide
theorem test_curon : flagsOf .curon (readyWith {} .pf false false false)
    = some (some false, some true, some false, [inst 0x0A]) := by decide
theorem test_curoff : flagsOf .curoff (readyWith {} .pf true true true)
    = some (some true, some false, some true, [inst 0x0D]) := by decide
theorem test_curtgl : flagsOf .curtgl (readyWith {} .pf false true false)
    = some (some false, some false, some false, [inst 0x08]) := by decide
theorem test_blnkon : flagsOf .blnkon (readyWith {} .pf false true false)
    = some (some false, some true, some true, [inst 0x0B]) := by decide
theorem test_blnkoff : flagsOf .blnkoff (readyWith {} .pf true true true)
    = some (some true, some true, some false, [inst 0x0E]) := by decide
theorem test_blnktgl : flagsOf .blnktgl (readyWith {} .pf true true true)
    = some (some true, some true, some false, [inst 0x0E]) := by decide
/-- R28: a flag nothing has written. -/
theorem test_unwritten_flag :
    exec .dispon { ready .pf with cur := none } = .fault .readUnwritten := rfl

/-! ### Entry mode: vector V-EM -/

theorem test_curinc : entryOf .curinc (ready .pf) = some (some .cursor, some .inc, [inst 0x06]) := by
  decide
theorem test_curdec : entryOf .curdec (ready .pf) = some (some .cursor, some .dec, [inst 0x04]) := by
  decide
theorem test_dspinc : entryOf .dspinc (ready .pf) = some (some .display, some .dec, [inst 0x05]) := by
  decide
theorem test_dspdec : entryOf .dspdec (ready .pf) = some (some .display, some .inc, [inst 0x07]) := by
  decide

/-! ### Clear, home, shifts: vectors H1 to H3 -/

theorem test_clear_ph : traceOf .clear (ready .ph)
    = some ([.rs false, .d4 0] ++ pulse ++ [.d4 1] ++ pulse ++ [.dly 2]) := by decide
theorem test_home_i2c : traceOf .home (ready (wireI2c false))
    = some [frame 0x00 0x04 0x00, frame 0x20 0x24 0x20, .dly 2] := by decide
theorem test_curl : traceOf .curl (ready .pf) = some ([.rs false, .d8 0x10] ++ pulse ++ [.dly 2]) := by
  decide
theorem test_curr : traceOf .curr (ready .pf) = some ([.rs false, .d8 0x14] ++ pulse ++ [.dly 2]) := by
  decide
theorem test_scrl : traceOf .scrl (ready .pf) = some ([.rs false, .d8 0x18] ++ pulse ++ [.dly 2]) := by
  decide
theorem test_scrr : traceOf .scrr (ready .pf) = some ([.rs false, .d8 0x1C] ++ pulse ++ [.dly 2]) := by
  decide

/-! ### Addressing: vectors D1 to D3, program P3 -/

theorem test_setcur : traceOf (.setcur 1 5) (ready .ph)
    = some ([.rs false, .d4 0xC] ++ pulse ++ [.d4 5] ++ pulse ++ [.dly 2]) := by decide
theorem test_setcur_arithmetic :
    [(0, 39), (1, 39), (2, 3), (255, 0), (0, 0x40), (1, 0x40), (0, 0xFF), (1, 0xC0)].map
        (fun x : Byte × Byte => encDdram {} (cursorAddr {} x.1 x.2))
      = [0xA7, 0xE7, 0xC3, 0xC0, 0xC0, 0x80, 0xFF, 0x80] := by decide
theorem test_mkchar_observer :
    (nextOf (exec (.mkchar 3 0 0x0A 0x1F 0x1F 0x0E 4 0 0) (ready .pf))).map
        (fun t => (t.obs.space, t.obs.ac, t.obs.cgram))
      = some (some .cgram, some 0x20, [(0x18, 0), (0x19, 0x0A), (0x1A, 0x1F), (0x1B, 0x1F),
          (0x1C, 0x0E), (0x1D, 4), (0x1E, 0), (0x1F, 0)]) := by decide
theorem test_mkchar_slots :
    [0, 7, 8, 15, 16, 31, 32, 255].map (fun k : Byte => encCgram {} (glyphAddr {} k))
      = [0x40, 0x78, 0x40, 0x78, 0xC0, 0xF8, 0x40, 0xF8] := by decide

/-! ### Initialisation: vectors I1, I4, I6, I7 -/

theorem test_init_i2c : traceOf .init (fresh (wireI2c true))
    = some [.dly 50, frame 0x38 0x3C 0x38, .dly 5, frame 0x38 0x3C 0x38, .dly 5,
        frame 0x38 0x3C 0x38, .dly 2, frame 0x28 0x2C 0x28, .dly 2,
        frame 0x28 0x2C 0x28, frame 0x88 0x8C 0x88, .dly 2,
        frame 0x08 0x0C 0x08, frame 0x88 0x8C 0x88, .dly 2,
        frame 0x08 0x0C 0x08, frame 0x18 0x1C 0x18, .dly 2,
        frame 0x08 0x0C 0x08, frame 0x68 0x6C 0x68, .dly 2,
        frame 0x08 0x0C 0x08, frame 0xC8 0xCC 0xC8, .dly 2] := by decide
set_option maxRecDepth 4000 in
theorem test_init_ph :
    (nextOf (exec .init (fresh .ph))).map (fun t => (t.out.length, requestedDelay t.out, t.phase))
      = some (103, 116, .ready) := by decide
theorem test_init_third_transmit_hangs :
    (nextOf (exec .init { fresh (wireI2c true) with bus := some 2 })).map
        (fun t => (t.out, t.phase, t.hung, t.upc))
      = some ([.dly 50, frame 0x38 0x3C 0x38, .dly 5, frame 0x38 0x3C 0x38, .dly 5,
          frame 0x38 0x3C 0x38], .initializing, true, 6) := by decide

/-! ### Backlight: vectors K1 to K3 -/

theorem test_blon : (nextOf (exec .blon (ready (wireI2c false)))).map
    (fun t => (backlightBit t.transport, t.out)) = some (some true, []) := by decide
theorem test_bloff : (nextOf (exec .bloff (ready (wireI2c true)))).map
    (fun t => (backlightBit t.transport, t.out)) = some (some false, []) := by decide
theorem test_bltgl : (nextOf (exec .bltgl (ready (wireI2c true)))).map
    (fun t => (backlightBit t.transport, t.out)) = some (some false, []) := by decide
theorem test_bltgl_pf : nextOf (exec .bltgl (ready .pf)) = some (ready .pf) := by decide
theorem test_blon_before_init : refusalIn (exec .blon (fresh .pf)) = some .notReady := by decide

/-! ### Refusals: vectors X1, X2, X4, D4, B4, P5 -/

theorem test_reserved_opcodes :
    [0x00, 0x0F, 0x14, 0x23, 0x34, 0x49, 0x58, 0x64, 0xFF].map
        (fun b : Byte => stepRefusal (ready .ph) [b])
      = List.replicate 9 (some .reservedOpcode) := by decide
theorem test_truncated :
    [[0x10], [0x20], [0x32], [0x32, 1], [0x22, 3, 0x41, 0x42], [0x33, 3, 0, 0x0A, 0x1F]].map
        (fun bs => stepRefusal (fresh .pf) bs)
      = List.replicate 6 (some .truncated) := by decide
theorem test_reserved_bits :
    [[0x10, 0x13], [0x13, 0x20]].map (fun bs => stepRefusal (fresh .pf) bs)
      = List.replicate 2 (some .reservedOperandBits) := by decide
/-- `RF6` before every other reason (R135): a reserved opcode and a cut-off command while busy. -/
theorem test_busy_first :
    [[0x00], [0x10], [0x60]].map (fun bs =>
        stepRefusal { ready .ph with upc := 1, hostWaits := false } bs)
      = List.replicate 3 (some .busy) := by decide
/-- A host that waits for done is not refused, one that sends two commands at once is. -/
theorem test_impatient_host :
    [true, false].map (fun w => stepRefusal { ready .pf with hostWaits := w } [0x30, 0x31])
      = [none, some .busy] := by decide
theorem test_init_twice : stepRefusal (ready .ph) [0x60] = some .alreadyInitialised := by decide

/-! ### The devices: R22, R38, R40, R42 -/

theorem test_lcd_clear :
    (nextOf (exec .lcdClear { ready .pf with obs := { (ready .pf).obs with
        space := some .ddram, ac := some 3 } })).map (fun t => (t.obs.space, t.obs.ac))
      = some (none, none) := by decide
theorem test_lcd_home :
    (nextOf (exec .lcdHome (readyWith { Params.default with clearHomes := true } .pf true true true))).map
        (fun t => (t.obs.space, t.obs.ac)) = some (some .ddram, some 0) := by decide
theorem test_lcd_entry :
    (nextOf (exec (.lcdEntry false true) (ready .pf))).map (fun t => (t.obs.dir, t.obs.bytes))
      = some (some .dec, [inst 0x05]) := by decide
theorem test_lcd_dctrl :
    (nextOf (exec (.lcdDctrl true false true) (ready .pf))).map (fun t => (t.disp, t.obs.bytes))
      = some (some true, [inst 0x0D]) := by decide
theorem test_lcd_shift :
    (nextOf (exec (.lcdShift false true) (ready .pf))).map (fun t => (t.obs.ac, t.obs.bytes))
      = some (none, [inst 0x14]) := by decide
theorem test_lcd_fset :
    (nextOf (exec (.lcdFset true true false) (ready .pf))).map (fun t => (t.obs.iface, t.obs.bytes))
      = some (.matched, [inst 0x38]) := by decide
/-- On a 4-bit transport the same byte names another width (R166). -/
theorem test_lcd_fset_wrong_width :
    (nextOf (exec (.lcdFset true true false) (ready .ph))).map (·.obs.iface) = some .unknown := by decide
theorem test_lcd_setcg :
    (nextOf (exec (.lcdSetcg 0x3F) (ready .pf))).map (fun t => (t.obs.space, t.obs.ac))
      = some (some .cgram, some 0x3F) := by decide
theorem test_lcd_setdd :
    [0x27, 0x28, 0x3F, 0x40, 0x67, 0x68].map (fun a : BitVec 7 =>
        (nextOf (exec (.lcdSetdd a) (ready .pf))).map (·.obs.ac))
      = [some (some 0x27), some none, some none, some (some 0x40), some (some 0x67), some none] := by
  decide
/-- R151: before `INIT` a set-DDRAM-address byte is recorded and teaches nothing. -/
theorem test_lcd_setdd_before_init :
    (nextOf (exec (.lcdSetdd 5) (fresh .pf))).map (fun t => (t.obs.space, t.obs.ac, t.obs.bytes))
      = some (none, none, [inst 0x85]) := by decide
/-- Parameters that adopt G9. -/
def homing : Params := { Params.default with clearHomes := true }
/-- R151: all bytes of `INIT` heard, its clear too, nothing is known until it has completed. -/
theorem test_init_teaches_at_its_end :
    let o := (Observer.powerOn.startInit .ph).onItems homing .ph (initItems homing .ph)
    (o.iface, o.pairing.known, o.ac, o.bytes.length) = (.unknown, false, none, 5)
      ∧ ((o.endInit homing .ph).iface, (o.endInit homing .ph).pairing, (o.endInit homing .ph).ac)
        = (.matched, .paired, some 0) := by decide
/-- The end of row 0 and of CGRAM (R40 (d)). -/
theorem test_counter_ends :
    [counterAfter {} .ddram (some .inc) 0x27, counterAfter {} .ddram (some .dec) 0x40,
      counterAfter {} .ddram (some .dec) 0, counterAfter {} .cgram (some .inc) 0x3F,
      counterAfter {} .cgram (some .inc) 0x3E] = [none, none, none, none, some 0x3F] := by decide
theorem test_i2c_ctrl :
    (nextOf (exec (.i2cCtrl 3 true false false)
        { fresh (wireI2c true) with transport := .i2c ⟨⟨0, 0⟩, {}, true, 0x3D⟩ })).map
        (fun t => (t.transport, t.obs.items))
      = some (.i2c ⟨⟨0, 0⟩, {}, true, 0x38⟩, [.nibble (some true) (some 3)]) := by decide

/-! ### Assembly: R68 -/

theorem test_assemble :
    Assembler.assemble (['S', 'E', 'T', 'C', 'U', 'R', ' ', '1', ',', ' ', '0', 'x', '0', '5', ' ',
        ';', 'x'] ++ [Char.ofNat 10] ++ ['W', 'B', 'U', 'F', ' ', Assembler.quote, 'A', 'B',
        Assembler.quote]) = some [0x32, 0x01, 0x05, 0x22, 0x02, 0x41, 0x42] := by decide
theorem test_assemble_si2cn :
    Assembler.assembleLine ['S', 'I', '2', 'C', 'N', ' ', '1', ',', '4'] = some [0x13, 0x14] := by
  decide

/-! ### Witnesses: states and operands that meet the hypotheses of each obligation -/

/-- The premise of the command statements, on every variant, for the longest script and beyond. -/
theorem witness_ReadyFor :
    ReadyFor 18 (ready .ph) ∧ ReadyFor 18 (ready .pf) ∧ ReadyFor 18 (ready .sr)
      ∧ ReadyFor 18 { ready (wireI2c true) with bus := some 18 } ∧ ReadyFor 510 (ready (wireI2c false)) := by
  decide

theorem witness_HostCommandsRoundTrip :
    (Instr.wbuf [0x41, 0x42]).format = .hc ∧ (Instr.wbuf [0x41, 0x42]).wellFormed = true := by decide
theorem witness_EmittedBytesRoundTrip :
    (Instr.lcdSetdd 0x45).format = .lcdi ∧ decodeLcdi 0xC5 = some (.lcdSetdd 0x45)
      ∧ (Instr.i2cCtrl 3 true true false).format = .i2cb
      ∧ decodeCtl 0x3C = some (.i2cCtrl 3 true true false) := by decide
/-- Both ends of the range of cuts. -/
theorem witness_TruncatedCommandsRefused :
    (Instr.setcur 1 5).format = .hc ∧ (Instr.setcur 1 5).wellFormed = true
      ∧ (Instr.setcur 1 5).lengthBytes = 3
      ∧ [1, 2].all (fun k => decide (stepRefusal (ready .ph) ((encode (.setcur 1 5)).take k)
          = some .truncated)) = true := by decide
/-- Both ends of every reserved range, and the least reserved operand of each kind. -/
theorem witness_ReservedEncodingsRefused :
    ([0x00, 0x0F, 0x14, 0x1F, 0x23, 0x2F, 0x34, 0x3F, 0x49, 0x4F, 0x58, 0x5F, 0x64, 0xFF].all
      fun op : Byte => decide (op.toNat ≤ 0x0F ∨ (0x14 ≤ op.toNat ∧ op.toNat ≤ 0x1F)
        ∨ (0x23 ≤ op.toNat ∧ op.toNat ≤ 0x2F) ∨ (0x34 ≤ op.toNat ∧ op.toNat ≤ 0x3F)
        ∨ (0x49 ≤ op.toNat ∧ op.toNat ≤ 0x4F) ∨ (0x58 ≤ op.toNat ∧ op.toNat ≤ 0x5F)
        ∨ 0x64 ≤ op.toNat)) = true
      ∧ 0x10 ≤ (0x10 : Byte).toNat ∧ 0x20 ≤ (0x20 : Byte).toNat
      ∧ (fresh .ph).shared = false ∧ (fresh .ph).upc = 0 ∧ (fresh .ph).hung = false
      ∧ (fresh .ph).devIn = [] := by decide
/-- A state for each clause: stuck, running, each device input, the host port, idle. -/
theorem witness_StepRunsDecodedInstruction :
    (∃ s : State, s.shared = false ∧ s.hostWaits = true ∧ s.hung = true)
      ∧ (∃ s : State, s.shared = false ∧ s.hostWaits = true ∧ s.hung = false ∧ s.upc ≠ 0)
      ∧ (decodeLcdiFor Params.default 0x06 = some (.lcdEntry true false)
        ∧ ∃ s : State, s.params = Params.default ∧ s.shared = false ∧ s.hung = false ∧ s.upc = 0
          ∧ s.devIn = [.controller 0x06])
      ∧ (∃ s : State, ∃ port, s.shared = false ∧ s.hung = false ∧ s.upc = 0
          ∧ s.transport = .i2c port ∧ s.devIn = [.expander 0x3C]
          ∧ port.layout.decode 0x3C = some (.i2cCtrl 3 true true false))
      ∧ (∃ s : State, s.shared = false ∧ s.hostWaits = true ∧ s.hung = false ∧ s.upc = 0 ∧ s.devIn = []
          ∧ decode s.hostIn = .ok .init [])
      ∧ ∃ s : State, s.shared = false ∧ s.hung = false ∧ s.upc = 0 ∧ s.devIn = [] ∧ s.hostIn = [] :=
  ⟨⟨{ fresh .ph with hung := true }, by decide⟩, ⟨{ fresh .ph with upc := 1 }, by decide⟩,
    ⟨by decide, { fresh .ph with devIn := [.controller 0x06] }, by decide⟩,
    ⟨{ fresh (wireI2c true) with devIn := [.expander 0x3C] }, ⟨⟨0, 0⟩, {}, true, 0⟩, by decide⟩,
    ⟨{ fresh .ph with hostIn := [0x60] }, by decide⟩, ⟨fresh .ph, by decide⟩⟩

/-- A controller byte and a control byte that stand for no instruction. -/
theorem witness_DeviceBytesOfNoClass :
    decodeLcdiFor Params.default 0x00 = none ∧ decodeLcdiFor Params.default 0x11 = none
      ∧ (0x02 : Byte).getLsbD (Transport.layout (fresh .ph).transport).rwBit = true
      ∧ (let s := { ready .pf with devIn := [.controller 0x00] }
        s.shared = false ∧ s.hung = false ∧ s.upc = 0
          ∧ (nextOf (step s)).map (fun t => (t.obs.iface, t.obs.bytes, t.devIn))
            = some (.unknown, [inst 0x00], []))
      ∧ (let s := { fresh .ph with devIn := [.expander 0x02] }
        s.shared = false ∧ s.hung = false ∧ s.upc = 0
          ∧ refusalIn (step s) = some .reservedControlBit) := by decide
/-- One state for each clause: while a command runs, a stream of two commands, a second agent. -/
theorem witness_BusyRefusesEveryHostCommand :
    (Instr.clear.format = .hc ∧ ({ ready .ph with upc := 1 } : State).upc ≠ 0)
      ∧ (let s := { ready .pf with hostWaits := false, hostIn := [0x30, 0x31] }
        s.shared = false ∧ s.hung = false ∧ s.upc = 0 ∧ s.devIn = [] ∧ s.hostIn ≠ []
          ∧ decode s.hostIn = .ok .clear [0x31]
          ∧ ((nextOf (exec .clear { s with hostIn := [0x31] })).map
              fun t => decide (s.out.length < t.out.length)) = some true)
      ∧ ({ fresh .ph with shared := true } : State).shared = true := by decide
theorem witness_PhaseAndVariantGate :
    (needsReady .clear = true ∧ (fresh .ph).upc = 0 ∧ (fresh .ph).phase ≠ .ready)
      ∧ ((ready .ph).upc = 0 ∧ (ready .ph).phase ≠ .uninitialized)
      ∧ primitiveOf (.snib 3) = some .ph ∧ (fresh .pf).transport.variant ≠ .ph := by decide
theorem witness_PrimitivesSendOneItem :
    [fresh .ph, fresh .pf, fresh .sr, { fresh (wireI2c true) with bus := some 1 }].all (fun s =>
      decide (s.upc = 0 ∧ s.hung = false ∧ s.transport.linesIdle = true ∧ s.busServes 1 = true)) = true := by
  decide
theorem witness_WbufIsWdataInOrder :
    ReadyFor (2 * (([0x42] : List Byte).length + 1)) { ready (wireI2c true) with bus := some 4 }
      ∧ (ready .ph).upc = 0 ∧ (ready .ph).hung = false ∧ (ready .ph).phase = .ready := by decide
theorem witness_FlagCommands :
    ReadyFor 2 (ready .pf) ∧ (ready .pf).disp = some true ∧ (ready .pf).cur = some false
      ∧ (ready .pf).blink = some false := by decide
/-- An observer between bytes, the premise of `arrivesWhole`. -/
theorem witness_arrivesWhole : (ready .ph).obs.pairing = .paired := by decide
theorem witness_ReadOfUnwrittenFlagFaults :
    [{ ready .pf with disp := none }, { ready .pf with cur := none },
      { ready .pf with blink := none }].all (fun s : State =>
        decide (s.upc = 0 ∧ s.phase = .ready ∧ (s.disp = none ∨ s.cur = none ∨ s.blink = none))) = true := by
  decide
theorem witness_TogglesAreInvolutive :
    ∃ t u, exec .bltgl (ready (wireI2c true)) = .next t ∧ exec .bltgl t = .next u := ⟨_, _, rfl, rfl⟩
theorem witness_InitReachesReady :
    [fresh .ph, fresh .pf, fresh .sr, { fresh (wireI2c true) with bus := some 14 }].all (fun s =>
      decide (s.upc = 0 ∧ s.hung = false ∧ s.phase = .uninitialized ∧ s.transport.linesIdle = true
        ∧ s.busServes initTransmits = true)) = true := by decide
theorem witness_InitLeavesObserverInStep :
    (fresh .ph).params = Params.default ∧ (fresh .ph).transport.variant.isFour = true
      ∧ ((nextOf (exec .init (fresh .ph))).map (·.hung)) = some false := by decide
theorem witness_StateAfterInit :
    (fresh .pf).transport.linesIdle = true ∧ (nextOf (exec .init (fresh .pf))).map
        (fun t => (t.hung, t.transport)) = some (false, .pf ⟨some false, some false, some 0x0C⟩) := by
  decide
/-- A command of each kind that finishes at the default parameters, with what it adds (R160). -/
theorem witness_RequestedDelaysAtDefaults :
    (ready .ph).params = Params.default ∧ (ready .ph).hung = false
      ∧ [(.winstr 0xC5, 8), (.clear, 8), (.home, 8), (.wdata 0x41, 6), (.snib 3, 3)].all
          (fun x : Instr × Nat => decide ((nextOf (exec x.1 (ready .ph))).map
            (fun t => (t.hung, requestedDelay t.out)) = some (false, x.2))) = true
      ∧ (nextOf (exec (.sbyte 1) (ready .pf))).map (·.hung) = some false
      ∧ (nextOf (exec (.sshb 1) (ready .sr))).map (·.hung) = some false
      ∧ (nextOf (exec (.si2cn true 1) (ready (wireI2c true)))).map (·.hung) = some false
      ∧ (nextOf (exec .init (fresh (wireI2c true)))).map
          (fun t => (t.hung, requestedDelay t.out)) = some (false, 74) := by decide
theorem witness_BacklightCommandsAreStateOnly :
    (ready (wireI2c true)).transport = .i2c ⟨⟨0, 0⟩, {}, true, 0⟩ ∧ (ready .pf).transport.variant ≠ .i2c
      ∧ (ready .pf).phase = .ready := by decide
theorem witness_BacklightFlipsOnlyBitThree :
    ∃ t, exec (.wdata 0x41) (ready (wireI2c true)) = .next t := ⟨_, rfl⟩
/-- One state for each way a byte arrives: between bytes, width unknown, while `INIT` runs. -/
theorem witness_arrivals :
    (nextOf (exec (.lcdSetdd 5) (ready .pf))).map (·.obs.ac) = some (some 5)
      ∧ (fresh .pf).obs.iface = .unknown ∧ (fresh .pf).obs.pairing = .unknown
      ∧ (let s := { fresh .pf with obs := (fresh .pf).obs.startInit .pf }
        s.obs.pairing = .booting 0 none []
          ∧ (nextOf (exec (.lcdSetdd 5) s)).map (fun t => (t.obs.ac, t.obs.pairing))
            = some (none, .booting 0 none [inst 0x85])) := by decide
/-- Each address clause at both ends of the ranges of R31 and R32, and both values of G9. -/
theorem witness_InstructionBytesAtTheController :
    [0x00, 0x27, 0x40, 0x67].all (fun a : BitVec 7 => ddramValid {} a.toNat) = true
      ∧ [0x28, 0x3F, 0x68, 0x7F].all (fun a : BitVec 7 => !ddramValid {} a.toNat) = true
      ∧ [0x00, 0x3F].all (fun a : BitVec 6 => cgramValid {} a.toNat) = true
      ∧ cgramValid { Params.default with cgSlots := 7 } (0x38 : BitVec 6).toNat = false
      ∧ Params.default.clearHomes = false
      ∧ ({ Params.default with clearHomes := true } : Params).clearHomes = true := by decide
theorem witness_ControlByteAtTheExpander :
    (0x3C : Byte).getLsbD 2 = true ∧ (0x38 : Byte).getLsbD 2 = false
      ∧ (fresh .ph).transport.variant ≠ .i2c := by decide
theorem witness_LatchedItemIsOnTheLines :
    ((Transport.ph ⟨some true, some true, some 3⟩).take (.e false)).2 = [.nibble (some true) (some 3)]
      ∧ ((I2cPort.mk ⟨0, 0⟩ {} true 0x3C).take 0x38).2 = [.nibble (some false) (some 3)] := by decide

/-- An observer in step whose counter is at an address. -/
def pointed (w : Wiring) (sp : Space) (a : Nat) : State :=
  { ready w with obs := { (ready w).obs with space := some sp, ac := some a } }

/-- The counter at the ends of the spaces, either direction. -/
theorem witness_DataByteWritesAtTheCounter :
    ReadyFor 2 (pointed .pf .ddram 0x27) ∧ (pointed .pf .ddram 0x27).inStep = true
      ∧ (pointed .pf .ddram 0x27).obs.ac = some 0x27
      ∧ (pointed .pf .cgram 0).obs.space = some .cgram
      ∧ (nextOf (exec (.wdata 0x41) (pointed .pf .ddram 0x27))).map
          (fun t => (t.obs.ddram, t.obs.ac)) = some ([(0x27, 0x41)], none) := by decide
/-- A known space with an unknown counter, and an unknown space. -/
theorem witness_DataByteToAnUnknownPlace :
    let s := { ready .pf with obs := { (ready .pf).obs with space := some .cgram, cgram := [(3, 7)] } }
    ReadyFor 2 s ∧ s.inStep = true ∧ s.obs.ac = none ∧ (ready .pf).obs.space = none
      ∧ (nextOf (exec (.wdata 0x41) s)).map (fun t => (t.obs.space, t.obs.cgram))
        = some (some .cgram, []) := by decide
theorem witness_UnknownWidthLearnsNothing :
    let s := { ready .ph with obs := { (ready .ph).obs with iface := .unknown } }
    ReadyFor 2 s ∧ s.obs.pairing = .paired
      ∧ (nextOf (exec (.winstr 0x80) s)).map (fun t => (t.obs.space, t.obs.bytes))
        = some (none, [inst 0x80])
      ∧ (nextOf (exec (.wdata 0x80) s)).map (·.obs.space) = some none := by decide
/-- A lone nibble (R167), then a byte: `0x3` is held, `0x3C` comes out, `0x5` is held. -/
theorem witness_LoneNibbleShiftsThePairing :
    let s := { ready .ph with transport := .ph ⟨some false, some false, some 0⟩ }
    s.transport.linesIdle = true ∧ s.hung = false ∧ s.obs.pairing = .paired
      ∧ (nextOf (exec (.snib 3) s)).map (·.obs.pairing) = some (.half (some false) (some 3))
      ∧ (nextOf (exec (.si2cn true 4) (ready (wireI2c true)))).map
          (fun t => (t.hung, t.obs.pairing)) = some (false, .half (some true) (some 4))
      ∧ (let h := { s with obs := { s.obs with pairing := .half (some false) (some 3) } }
        ReadyFor 2 h ∧ h.transport.variant.isFour = true
          ∧ (nextOf (exec (.winstr 0xC5) h)).map (fun t => (t.obs.pairing, t.obs.bytes))
            = some (.half (some false) (some 5), [inst 0x3C])
          ∧ (nextOf (exec (.wdata 0x41) h)).map (·.obs.bytes)
            = some [⟨none, some 0x34⟩]) := by decide
theorem witness_memories_wf : (pointed .pf .ddram 0x27).obs.ddram.wf
    ∧ (pointed .pf .ddram 0x27).obs.cgram.wf := ⟨Memory.wf_nil, Memory.wf_nil⟩
theorem witness_SetcurPointsTheCounter :
    ReadyFor 2 (ready .ph) ∧ (ready .ph).params = Params.default ∧ (ready .ph).inStep = true
      ∧ (nextOf (exec (.setcur 1 39) (ready .ph))).map (fun t => (t.obs.space, t.obs.ac))
        = some (some .ddram, some 0x67) := by decide
theorem witness_InstructionCommandsStoreNothing :
    (ReadyFor 2 (ready .ph) ∧ (ready .ph).inStep = true ∧ (ready .ph).params = Params.default) ∧ ∃ t u, exec .dispon (ready .ph) = .next t
      ∧ exec .clear (ready .ph) = .next u := ⟨by decide, _, _, rfl, rfl⟩
/-- A byte of a class and one of none, over the wire. -/
theorem witness_WireBytesActAsTheirRow :
    ReadyFor 2 (ready .ph) ∧ (ready .ph).inStep = true ∧ (ready .ph).params = Params.default
      ∧ decodeLcdiFor Params.default 0x85 = some (.lcdSetdd 5) ∧ decodeLcdiFor Params.default 0x00 = none
      ∧ (nextOf (exec (.winstr 0x85) (ready .ph))).map (fun t => (t.obs.ac, t.obs.bytes))
        = some (some 5, [inst 0x85])
      ∧ (nextOf (exec (.winstr 0x00) (ready .ph))).map (·.obs.iface) = some .unknown := by decide
/-- One command for each clause: direction, counter, function-set of the other width. -/
theorem witness_CommandsActOnTheObserver :
    ReadyFor 2 (pointed .ph .ddram 3) ∧ (pointed .ph .ddram 3).inStep = true
      ∧ [.curinc, .curdec, .dspinc, .dspdec, .curl, .scrl, .curtgl, .clear, .winstr 0x38].map
          (fun i => (nextOf (exec i (pointed .ph .ddram 3))).map
            fun t => (t.obs.dir, t.obs.ac, t.obs.iface))
        = [some (some .inc, some 3, .matched), some (some .dec, some 3, .matched),
          some (some .dec, some 3, .matched), some (some .inc, some 3, .matched),
          some (some .inc, none, .matched), some (some .inc, some 3, .matched),
          some (some .inc, some 3, .matched), some (none, none, .matched),
          some (none, none, .unknown)]
      ∧ decodeLcdi 0x38 = some (.lcdFset true true false)
      ∧ (pointed .ph .ddram 3).transport.variant.isFour = true := by decide
theorem witness_MkcharLeavesCounterInCgram :
    ReadyFor 18 (ready .pf) ∧ (ready .pf).params = Params.default ∧ (ready .pf).inStep = true
      ∧ (ready .pf).obs.dir = some .inc ∧ ((0 : Byte).toNat < 8 ∧ (7 : Byte).toNat < 8)
      ∧ (nextOf (exec (.mkchar 7 1 2 3 4 5 6 7 8) (ready .pf))).map (fun t => t.obs.ac)
        = some none := by decide
theorem witness_NothingMovesWhileEnableIsHigh :
    Instr.clear.format = .hc ∧ (ready .sr).hung = false ∧ ∃ t, exec .clear (ready .sr) = .next t :=
  ⟨rfl, rfl, _, rfl⟩
theorem witness_step_next :
    ∃ t, step { ready .ph with hostIn := [0x21, 0x41] } = .next t := ⟨_, rfl⟩
theorem witness_EachFieldHasItsWriters :
    Instr.clear ≠ .init ∧ isFlagCommand .clear = false ∧ isEntryCommand .clear = false
      ∧ isBacklightCommand .clear = false ∧ ∃ t, exec .clear (ready .ph) = .next t :=
  ⟨by decide, by decide, by decide, by decide, _, rfl⟩
theorem witness_ExpansionsHaveTheSameTrace :
    (ready .pf).hung = false ∧ (ready .pf).params = Params.default
      ∧ (∃ t, exec (.wdata 1) (ready .pf) = .next t ∧ t.hung = false
        ∧ ∃ u, exec (.wbuf [2]) t = .next u)
      ∧ (∃ t, exec (.winstr 0x58) (ready .pf) = .next t ∧ t.hung = false
        ∧ ∃ u, exec (.wbuf [1, 2, 3, 4, 5, 6, 7, 8]) t = .next u)
      ∧ isFlagCommand .curon = true ∧ ∃ t, exec .curon (ready .pf) = .next t :=
  ⟨rfl, rfl, ⟨_, rfl, by decide, _, rfl⟩, ⟨_, rfl, by decide, _, rfl⟩, rfl, _, rfl⟩
/-- The invariants hold in a state with a known counter, between commands. -/
theorem witness_invariants :
    MemoriesPlaced (ready .ph) ∧ Sequenced (ready .ph) ∧ LinesRest (ready .ph)
      ∧ TraceExplains (fresh .ph) ∧ UnknownBeforeInit (ready .ph) ∧ UnknownBeforeInit (fresh .ph) := by
  refine ⟨⟨Memory.wf_nil, Memory.wf_nil, ?_, ?_, ?_⟩, ?_, ?_, ?_, ?_, ?_⟩
  · intro c h; cases h
  · intro c h; cases h
  · intro sp a h; cases h
  · unfold Sequenced; decide
  · unfold LinesRest; decide
  · unfold TraceExplains; decide
  · unfold UnknownBeforeInit; decide
  · unfold UnknownBeforeInit; decide
/-- A step from such a state. -/
def oneCommand : State := { fresh .pf with hostIn := [0x11, 0x30] }
theorem witness_invariant_steps :
    MemoriesPlaced oneCommand ∧ Sequenced oneCommand ∧ LinesRest oneCommand
      ∧ TraceExplains oneCommand ∧ UnknownBeforeInit oneCommand ∧ ∃ t, step oneCommand = .next t := by
  refine ⟨⟨Memory.wf_nil, Memory.wf_nil, ?_, ?_, ?_⟩, ?_, ?_, ?_, ?_, _, rfl⟩
  · intro c h; cases h
  · intro c h; cases h
  · intro sp a h; cases h
  · unfold Sequenced; decide
  · unfold LinesRest; decide
  · unfold TraceExplains; decide
  · unfold UnknownBeforeInit; decide
theorem witness_GpioVariantsNeverStick :
    Instr.home.format = .hc ∧ (ready .pf).transport.variant ≠ .i2c ∧ (ready .pf).hung = false
      ∧ ∃ t, exec .home (ready .pf) = .next t := ⟨rfl, by decide, rfl, _, rfl⟩
theorem witness_EventStepsGiveTheWholeCommand :
    (fresh (wireI2c true)).upc = 0 ∧ (fresh (wireI2c true)).hung = false
      ∧ 1 < (initSeq {} (fresh (wireI2c true)).transport).countP Micro.isEvent := by decide
theorem witness_StuckStateIsFinal :
    (nextOf (exec .clear { ready (wireI2c true) with bus := some 1 })).map
      (fun t => (t.hung, t.upc)) = some (true, 2) := by decide
theorem witness_StuckDisponHasWrittenItsFlag :
    let s := { ready (wireI2c true) with bus := some 0 }
    s.upc = 0 ∧ s.hung = false ∧ s.phase = .ready ∧ s.transport = .i2c ⟨⟨0, 0⟩, {}, true, 0⟩
      ∧ s.bus = some 0 ∧ s.cur = some false ∧ s.blink = some false := by decide
theorem witness_LogicalBytesDoNotDependOnTheTransport :
    needsReady .curtgl = true ∧ (ready .ph).params = (ready .sr).params
      ∧ (ready .ph).disp = (ready .sr).disp ∧ (ready .sr).obs.pairing = .paired
      ∧ (nextOf (exec .curtgl (ready .ph))).map (·.obs.bytes) = some [inst 0x0E]
      ∧ (nextOf (exec .curtgl (ready .sr))).map (·.obs.bytes) = some [inst 0x0E] := by decide
/-- A state that mirrors what was sent last. -/
def mirroring : State :=
  { ready .pf with obs := { (ready .pf).obs with bytes := [inst 0x06, inst 0x0C] } }
theorem witness_FlagsMirrorTheLastInstructionSent :
    Mirrors mirroring ∧ instrFacade .curon = true ∧ mirroring.params = Params.default
      ∧ ∃ t, exec .curon mirroring = .next t ∧ t.hung = false :=
  ⟨⟨rfl, rfl, rfl, rfl, true, false, false, .cursor, .inc, rfl, rfl, rfl, rfl, rfl, by decide, by decide⟩,
    rfl, rfl, _, rfl, by decide⟩
theorem witness_OnlyInitMovesThePhase :
    ∃ t, exec .init (fresh (wireI2c false)) = .next t
      ∧ (fresh (wireI2c false)).transport = .i2c ⟨⟨0, 0⟩, {}, false, 0⟩ := ⟨_, rfl, rfl⟩

end Sys2Proof.Tests
end

section
/-! A script's sends are computed from parameters and display flags alone, and a finished script adds
its sends, and no more, to the logical bytes. So the transport does not show in them (R1, R89). -/

namespace Sys2Proof.Machine

/-- The logical byte of one send (R41, R89). -/
def Send.logical (x : Send) : LogicalByte := ⟨some x.level, some x.byte⟩

/-- A finished list of sends, heard between bytes, arrives as those logical bytes (R41, R89). -/
theorem run_sends_bytes {s : State} {l : List Send} (h : s.hung = false)
    (hl : s.transport.linesIdle = true) (ho : s.obs.pairing = .paired)
    (ht : (s.run ((sendsTrace s.params s.transport l).map .event)).hung = false) :
    (s.run ((sendsTrace s.params s.transport l).map .event)).obs.bytes
      = s.obs.bytes ++ l.map Send.logical := by
  rw [run_ok _ s h ht]
  simp only
  rw [onItems_sends _ _ _ _ hl ho]
  exact (foldl_arrive_history _ _ _ _ ho).1

/-- What a finished layer B or C command adds to the logical bytes: the sends of its script. -/
theorem exec_bytes_of_script {i : Instr} {s t : State} (hi : needsReady i = true)
    (h : s.hung = false) (hl : s.transport.linesIdle = true) (ho : s.obs.pairing = .paired)
    (he : exec i s = .next t) (ht : t.hung = false) :
    ∃ l, (scriptOf i s).map Prod.snd = some l
      ∧ t.obs.bytes = s.obs.bytes ++ l.map Send.logical := by
  obtain ⟨_, _, s0, l, hs, rfl⟩ := exec_script hi he
  obtain ⟨_, _, _, _, hidle, _, _, _, _, hobs, hhung, _⟩ := scriptOf_core hs
  refine ⟨l, by rw [hs]; rfl, ?_⟩
  rw [← hobs] at ho ⊢
  exact run_sends_bytes (hhung.trans h) (hidle.trans hl) ho ht

/-- The display-control byte is computed from parameters and flags (R57). -/
theorem dctrlSend_congr {s u : State} (hp : s.params = u.params) (hd : s.disp = u.disp)
    (hc : s.cur = u.cur) (hb : s.blink = u.blink) : dctrlSend s = dctrlSend u := by
  simp only [dctrlSend, State.dctrlByte, hp, hd, hc, hb]

/-- What a script sends does not depend on the transport, nor on anything but parameters and display
flags (R1). -/
theorem scriptOf_sends_congr (i : Instr) {s u : State} (hp : s.params = u.params)
    (hd : s.disp = u.disp) (hc : s.cur = u.cur) (hb : s.blink = u.blink) :
    (scriptOf i s).map Prod.snd = (scriptOf i u).map Prod.snd := by
  have hdctrl : ∀ a b : State, dctrlSend a = dctrlSend b →
      ((dctrlSend a).map fun l => (a, l)).map Prod.snd
        = ((dctrlSend b).map fun l => (b, l)).map Prod.snd := by
    intro a b hab
    simp [hab, Function.comp_def]
  cases i
  case dispon | dispoff => exact hdctrl _ _ (dctrlSend_congr hp rfl hc hb)
  case disptgl => exact hdctrl _ _ (dctrlSend_congr hp (congrArg (Option.map not) hd) hc hb)
  case curon | curoff => exact hdctrl _ _ (dctrlSend_congr hp hd rfl hb)
  case curtgl => exact hdctrl _ _ (dctrlSend_congr hp hd (congrArg (Option.map not) hc) hb)
  case blnkon | blnkoff => exact hdctrl _ _ (dctrlSend_congr hp hd hc rfl)
  case blnktgl => exact hdctrl _ _ (dctrlSend_congr hp hd hc (congrArg (Option.map not) hb))
  all_goals simp only [scriptOf, Option.map_some, Option.map_none, hp]

end Sys2Proof.Machine

namespace Sys2Proof.Claims

open Sys2Proof.Machine

/-- Settles O47: both runs add the sends of one script, and the script is the same. -/
theorem logicalBytesDoNotDependOnTheTransport :
    Obligations.LogicalBytesDoNotDependOnTheTransport := by
  intro i s1 s2 t1 t2 hi hp hd hc hb _ h1 hl1 ho1 _ h2 hl2 ho2 he1 he2 ht1 ht2
  obtain ⟨l1, hs1, hbytes1⟩ := exec_bytes_of_script hi h1 hl1 ho1 he1 ht1
  obtain ⟨l2, hs2, hbytes2⟩ := exec_bytes_of_script hi h2 hl2 ho2 he2 ht2
  have hsame : l1 = l2 :=
    Option.some.inj (hs1.symm.trans ((scriptOf_sends_congr i hp hd hc hb).trans hs2))
  exact ⟨l1.map Send.logical, hbytes1, hsame ▸ hbytes2⟩

end Sys2Proof.Claims
end

section
/-! What a step leaves between commands: idle or stuck, and every flag written once the phase is Ready
(R15, R28, R136). -/

namespace Sys2Proof.Machine

/-! ### What a script starts from, field by field -/

section

variable {i : Instr} {s s0 : State} {l : List Send}

theorem scriptOf_params (hs : scriptOf i s = some (s0, l)) : s0.params = s.params := by
  obtain ⟨hp, _⟩ := scriptOf_core hs
  exact hp

theorem scriptOf_hung (hs : scriptOf i s = some (s0, l)) : s0.hung = s.hung := by
  obtain ⟨_, _, _, _, _, _, _, _, _, _, hh, _⟩ := scriptOf_core hs
  exact hh

theorem scriptOf_out (hs : scriptOf i s = some (s0, l)) : s0.out = s.out := by
  obtain ⟨_, _, _, _, _, _, _, _, ho, _⟩ := scriptOf_core hs
  exact ho

theorem scriptOf_obs (hs : scriptOf i s = some (s0, l)) : s0.obs = s.obs := by
  obtain ⟨_, _, _, _, _, _, _, _, _, hobs, _⟩ := scriptOf_core hs
  exact hobs

theorem scriptOf_phase (hs : scriptOf i s = some (s0, l)) : s0.phase = s.phase := by
  obtain ⟨_, _, _, _, _, _, _, hph, _⟩ := scriptOf_core hs
  exact hph

theorem scriptOf_bus (hs : scriptOf i s = some (s0, l)) : s0.bus = s.bus := by
  obtain ⟨_, _, _, _, _, _, _, _, _, _, _, _, hb, _⟩ := scriptOf_core hs
  exact hb

theorem scriptOf_linesIdle (hs : scriptOf i s = some (s0, l)) :
    s0.transport.linesIdle = s.transport.linesIdle := by
  obtain ⟨_, _, _, _, hl, _⟩ := scriptOf_core hs
  exact hl

end

/-- Events leave the phase. -/
theorem run_events_phase (s : State) (evs : List Event) :
    (s.run (evs.map .event)).phase = s.phase := by
  obtain ⟨_, _, _, _, _, hph⟩ := run_sameFlags s evs
  exact hph

/-- No micro-sequence touches the backlight bit. -/
theorem run_backlight (s : State) (ms : List Micro) :
    backlightBit (s.run ms).transport = backlightBit s.transport := by
  obtain ⟨_, _, _, _, hbl, _⟩ := run_sameDevice s ms
  exact hbl

/-! ### Sources of a next state -/

/-- A byte waiting at a device is an instruction that runs, or one of no class that is heard. -/
theorem stepDevice_next {d : DeviceByte} {s t : State} (h : stepDevice d s = .next t) :
    (∃ i, exec i s = .next t) ∨ ∃ b, t = s.receive b Observer.lose := by
  unfold stepDevice at h
  split at h <;> split at h
  · exact .inl ⟨_, h⟩
  · cases h; exact .inr ⟨_, rfl⟩
  · exact .inl ⟨_, h⟩
  · cases h

/-- Where each next state comes from, whatever the input it was taken from: the sequencer, nothing, an
instruction, or a byte of no class at the controller. -/
theorem step_next_sources {s t : State} (h : step s = .next t) :
    s.hung = false ∧
      ((s.upc ≠ 0 ∧ t = s.tick) ∨ t = s
        ∨ (s.upc = 0 ∧ ∃ ds r i, exec i { s with devIn := ds, hostIn := r } = .next t)
        ∨ ∃ ds b, t = { s with devIn := ds }.receive b Observer.lose) := by
  obtain ⟨hh, hrun | ⟨hu, d, ds, _, hd⟩ | ⟨_, _, _, hidle⟩ | ⟨hu, _, i, r, _, he⟩⟩ := step_next h
  · exact ⟨hh, .inl hrun⟩
  · rcases stepDevice_next hd with ⟨i, he⟩ | ⟨b, hb⟩
    · exact ⟨hh, .inr (.inr (.inl ⟨hu, ds, _, i, he⟩))⟩
    · exact ⟨hh, .inr (.inr (.inr ⟨ds, b, hb⟩))⟩
  · exact ⟨hh, .inr (.inl hidle)⟩
  · exact ⟨hh, .inr (.inr (.inl ⟨hu, s.devIn, r, i, he⟩))⟩

/-- A whole command ends idle or stuck inside a transmit (R15, R136). -/
theorem run_idle_or_stuck (ms : List Micro) {s : State} (h : s.hung = false) :
    ((s.run ms).hung = false → (s.run ms).upc = 0)
      ∧ ((s.run ms).hung = true → (s.run ms).upc ≠ 0) := by
  refine ⟨run_upc ms s, fun hstuck => ?_⟩
  obtain ⟨hrun, hplay⟩ := run_stuck ms s hstuck
  rw [hrun]
  exact (play_stuck ms s h hplay).1

/-- Every flag and entry-mode bit is written once the phase is Ready (R28). -/
def State.WrittenOnceReady (s : State) : Prop := s.phase = .ready → s.FlagsWritten

theorem SameFlags.writtenOnceReady {a b : State} (h : SameFlags a b) (ha : a.WrittenOnceReady) :
    b.WrittenOnceReady := by
  obtain ⟨hd, hc, hb, ht, hm, hp⟩ := h
  simpa only [State.WrittenOnceReady, State.FlagsWritten, hd, hc, hb, ht, hm, hp] using ha

/-- `INIT` reaches phase Ready with every flag written, or stays in phase Initializing (R125, R136). -/
theorem init_writtenOnceReady {s : State} (h : s.hung = false) :
    (s.run (initSeq s.params s.transport)).WrittenOnceReady := by
  intro hready
  cases ht : (s.run (initSeq s.params s.transport)).hung with
  | true =>
    obtain ⟨hrun, hplay⟩ := run_stuck _ s ht
    rw [hrun, init_stuck_phase s h hplay] at hready
    cases hready
  | false =>
    rw [run_init s h (init_served s h ht)]
    exact ⟨rfl, rfl, rfl, rfl, rfl⟩

end Sys2Proof.Machine

namespace Sys2Proof.Claims

open Sys2Proof.Machine

/-- Every instruction, at a state between commands, leaves the machine idle or stuck, and the flags
written once the phase is Ready. -/
theorem exec_keeps_sequenced {i : Instr} {s t : State} (h : s.hung = false) (hs : Sequenced s)
    (he : exec i s = .next t) : Sequenced t := by
  obtain ⟨hidle, hstuck, hw⟩ := hs
  rcases exec_next_cases he with ⟨s0, l, hsc, _, hr, rfl⟩ | ⟨_, _, rfl⟩ | ⟨_, _, _, rfl⟩ | ⟨_, b, rfl⟩
    | ⟨_, bs, rfl⟩
  · have hend := run_idle_or_stuck ((sendsTrace s0.params s0.transport l).map .event)
      ((scriptOf_hung hsc).trans h)
    exact ⟨hend.1, hend.2,
      (run_sameFlags s0 _).writtenOnceReady fun _ => scriptOf_flags hsc (hw hr)⟩
  · have hend := run_idle_or_stuck ((primTrace i s).map .event) h
    exact ⟨hend.1, hend.2, (run_sameFlags s _).writtenOnceReady hw⟩
  · have hend := run_idle_or_stuck (initSeq s.params s.transport) h
    exact ⟨hend.1, hend.2, init_writtenOnceReady h⟩
  · exact ⟨hidle, hstuck, hw⟩
  · exact ⟨hidle, hstuck, hw⟩

/-- Settles O39: an instruction keeps the invariant, and under it no step is one of the event-by-event
sequencer. -/
theorem stepKeepsSequenced : Obligations.StepKeepsSequenced := by
  intro s t hs ht
  have ⟨hidle, _, _⟩ := hs
  obtain ⟨hh, ⟨hu, _⟩ | rfl | ⟨_, ds, r, i, he⟩ | ⟨ds, b, rfl⟩⟩ := step_next_sources ht
  · exact absurd (hidle hh) hu
  · exact hs
  · exact exec_keeps_sequenced (s := { s with devIn := ds, hostIn := r }) hh hs he
  · exact hs

end Sys2Proof.Claims
end

section
/-! The trace explains pins, latches and logical stream (R20 to R22, R38): an event adds to both sides
alike, and the backlight bit shows in neither. -/

namespace Sys2Proof.Machine

/-! ### The backlight bit and the pins -/

theorem takeAll_setBacklight (f : Bool → Bool) (port : I2cPort) (bs : List Byte) :
    I2cPort.takeAll { port with bl := f port.bl } bs
      = ({ (port.takeAll bs).1 with bl := f (port.takeAll bs).1.bl }, (port.takeAll bs).2) := by
  induction bs generalizing port with
  | nil => rfl
  | cons b bs ih => simp only [I2cPort.takeAll, I2cPort.take, ih { port with xp := b }]

/-- What an event does to pins and latches, and what is latched, does not look at the backlight bit:
the transmit carries it (R18, R62). -/
theorem take_setBacklight (f : Bool → Bool) (t : Transport) (ev : Event) :
    (t.setBacklight f).take ev = ((t.take ev).1.setBacklight f, (t.take ev).2) := by
  cases t with
  | i2c port =>
    cases ev with
    | i2c d b0 b1 b2 =>
      simp only [Transport.setBacklight, Transport.take, Transport.takeBytes, takeAll_setBacklight]
    | _ => rfl
  | _ => cases ev <;> rfl

theorem replay_setBacklight (f : Bool → Bool) (t : Transport) (evs : List Event) :
    replay (t.setBacklight f) evs = ((replay t evs).1.setBacklight f, (replay t evs).2) := by
  induction evs generalizing t with
  | nil => rfl
  | cons ev evs ih => simp only [replay, take_setBacklight, ih]

@[simp] theorem blank_setBacklight (f : Bool → Bool) (t : Transport) :
    (t.setBacklight f).blank = t.blank.setBacklight f := by cases t <;> rfl

/-- Where a replay starts is fixed at construction, but for the backlight bit. -/
@[simp] theorem blank_take (t : Transport) (ev : Event) : (t.take ev).1.blank = t.blank := by
  cases t with
  | i2c port =>
    cases ev with
    | i2c d b0 b1 b2 => rfl
    | _ => rfl
  | _ => cases ev <;> rfl

/-! ### One element of a micro-sequence -/

/-- Unless stuck, replaying the trace gives the pins, the latches and the logical stream. -/
def State.Explained (s : State) : Prop :=
  s.hung = false → replay s.transport.blank s.out = (s.transport, s.obs.items)

theorem replay_singleton (t : Transport) (ev : Event) : replay t [ev] = t.take ev := by
  simp [replay]

/-- A stuck transmit never moves on (R137). -/
theorem emit_keeps_hung (s : State) (ev : Event) (h : (s.emit ev).hung = false) : s.hung = false := by
  rw [emit_served s ev (served_of_emit s ev h)] at h
  exact h

theorem State.Explained.emit {s : State} (h : s.Explained) (ev : Event) : (s.emit ev).Explained := by
  intro hh
  have he := h (emit_keeps_hung s ev hh)
  rw [emit_served s ev (served_of_emit s ev hh)]
  simp [State.after, replay_append, he, replay_singleton, onItems_history]

theorem State.Explained.micro {s : State} (m : Micro) (h : s.Explained) : (s.micro m).Explained := by
  cases m with
  | event ev => exact h.emit ev
  | setPhase p =>
    intro hh
    have he := h hh
    rwa [← (onPhase_history s.params s.transport.variant s.obs p).1] at he
  | setFlags d c b => exact h
  | setDisp d => exact h
  | setEntry t d => exact h

theorem State.Explained.run {s : State} (ms : List Micro) (h : s.Explained) : (s.run ms).Explained :=
  run_induct (fun _ m h => h.micro m) (fun _ _ h => h) (fun _ h => h) s ms h

theorem State.Explained.tick {s : State} (h : s.Explained) : s.tick.Explained :=
  tick_induct (fun _ m h => h.micro m) (fun _ _ h => h) (fun _ h => h) s h

theorem tick_devIn (s : State) : s.tick.devIn = s.devIn := by
  have hkept : SameDevice s s.tick :=
    tick_induct (P := SameDevice s) (fun _ m h => h.micro m) (fun _ _ h => h) (fun _ h => h) s
      ⟨rfl, rfl, rfl, rfl, rfl, rfl, rfl, rfl, rfl⟩
  obtain ⟨_, _, _, _, _, hdev, _⟩ := hkept
  exact hdev

/-- What a script writes before its first event leaves the trace explained: a backlight command moves
the bit at the start of the replay and at its end. -/
theorem State.Explained.script {i : Instr} {s s0 : State} {l : List Send} (h : s.Explained)
    (hs : scriptOf i s = some (s0, l)) : s0.Explained := by
  obtain ⟨_, f, ht⟩ := scriptOf_frame hs
  intro hh
  rw [ht, scriptOf_out hs, scriptOf_obs hs, blank_setBacklight, replay_setBacklight,
    h ((scriptOf_hung hs).symm.trans hh)]

/-- Every host command leaves the trace explained. -/
theorem exec_explained {i : Instr} {s t : State} (hf : i.format = .hc) (h : s.Explained)
    (he : exec i s = .next t) : t.Explained := by
  rcases exec_next_cases he with ⟨s0, l, hsc, _, _, rfl⟩ | ⟨_, _, rfl⟩ | ⟨_, _, _, rfl⟩ | ⟨hl, _⟩
    | ⟨hc, _⟩
  · exact (h.script hsc).run _
  · exact h.run _
  · exact h.run _
  · rw [hf] at hl; cases hl
  · rw [hf] at hc; cases hc

end Sys2Proof.Machine

namespace Sys2Proof.Claims

open Sys2Proof.Machine

/-- Settles O41: with no byte at a device, a step is events of the sequencer, nothing, or a host
command. -/
theorem stepKeepsTraceExplains : Obligations.StepKeepsTraceExplains := by
  intro s t hs ht
  obtain ⟨hdev, hex⟩ := hs
  obtain ⟨_, ⟨_, rfl⟩ | ⟨_, d, ds, hd, _⟩ | ⟨_, _, _, rfl⟩ | ⟨_, _, i, r, hdec, he⟩⟩ := step_next ht
  · exact ⟨(tick_devIn s).trans hdev, State.Explained.tick hex⟩
  · rw [hdev] at hd; cases hd
  · exact ⟨hdev, hex⟩
  · exact ⟨(exec_devIn he).trans hdev,
      exec_explained (s := { s with hostIn := r }) (decode_format hdec) hex he⟩

end Sys2Proof.Claims
end

section
/-! Flags and entry-mode bits mirror what was sent last (R27): a facade command re-sends what it
writes, and sends nothing of the two kinds otherwise. -/

namespace Sys2Proof.Machine

/-! ### The last byte of a kind -/

open Sys2Proof.Claims

theorem lastOf_append (f : LogicalByte → Bool) (a b : List LogicalByte) :
    lastOf f (a ++ b) = (lastOf f b).or (lastOf f a) := by
  simp [lastOf, List.getLast?_append]

theorem lastOf_append_quiet {f : LogicalByte → Bool} (a : List LogicalByte) {b : List LogicalByte}
    (h : ∀ x ∈ b, f x = false) : lastOf f (a ++ b) = lastOf f a := by
  have hnone : lastOf f b = none := by
    simp only [lastOf, List.getLast?_eq_none_iff, List.filter_eq_nil_iff]
    intro x hx
    simp [h x hx]
  rw [lastOf_append, hnone, Option.none_or]

theorem lastOf_append_hit {f : LogicalByte → Bool} (a : List LogicalByte) {x : LogicalByte}
    (h : f x = true) : lastOf f (a ++ [x]) = some x := by
  rw [lastOf_append]
  simp [lastOf, h]

/-! ### The kinds of byte, at the default parameters -/

/-- The logical byte of an instruction, at the default parameters (R76). -/
def instrByte (b : Byte) : LogicalByte := ⟨some false, some b⟩

theorem instrSend_logical (b : Byte) : (instrSend Params.default b).logical = instrByte b := rfl

/-- Neither a display-control nor an entry-mode instruction. -/
def LogicalByte.Quiet (x : LogicalByte) : Prop := isDctrlByte x = false ∧ isEntryByte x = false

theorem dataSend_quiet (b : Byte) : (dataSend Params.default b).logical.Quiet := ⟨rfl, rfl⟩

/-- A display-control byte of three flags is of its kind and not of the other (R57). -/
theorem dctrl_kind (d c b : Bool) :
    isDctrlByte (instrByte (encDctrl Params.default d c b)) = true
      ∧ isEntryByte (instrByte (encDctrl Params.default d c b)) = false := by
  revert d c b
  decide

/-- An entry-mode byte is of its kind and not of the other (R56). -/
theorem entry_kind (t : EmTarget) (m : EmDir) :
    isDctrlByte (instrByte (encEntry Params.default t m)) = false
      ∧ isEntryByte (instrByte (encEntry Params.default t m)) = true := by
  cases t <;> cases m <;> decide

/-- An instruction byte outside the ranges of the two kinds. -/
theorem instrByte_quiet {b : Byte} (h : b.toNat < 4 ∨ 16 ≤ b.toNat) : (instrByte b).Quiet := by
  unfold LogicalByte.Quiet isDctrlByte isEntryByte instrByte
  simp
  omega

/-- A byte with bit 6 or bit 7 set stands for no instruction of the two kinds. -/
theorem addressed_quiet (m b : Byte) (h : m = 0x80 ∨ m = 0x40) : (instrByte (m ||| b)).Quiet := by
  apply instrByte_quiet
  have hle : m.toNat ≤ (m ||| b).toNat := by
    rw [BitVec.toNat_or]; exact Nat.left_le_or
  right
  rcases h with rfl | rfl <;> simp at hle ⊢ <;> omega

theorem shift_quiet (w : ShiftWhat) (d : ShiftSide) :
    (instrByte (encShift Params.default w d)).Quiet := by
  cases w <;> cases d <;> exact ⟨by decide, by decide⟩

/-! ### What a facade command sends -/

theorem dctrlSend_some {s : State} {l : List Send} (h : dctrlSend s = some l) :
    ∃ d c b, s.disp = some d ∧ s.cur = some c ∧ s.blink = some b
      ∧ l = [instrSend s.params (encDctrl s.params d c b)] := by
  unfold dctrlSend State.dctrlByte at h
  split at h
  · rename_i d c b hd hc hb
    exact ⟨d, c, b, hd, hc, hb, by simpa using h.symm⟩
  · cases h

/-- The script writes no flag, and sends no instruction of the two kinds. -/
def SendsNeither (s s0 : State) (l : List Send) : Prop :=
  SameFlags s s0 ∧ ∀ x ∈ l, x.logical.Quiet

/-- The script leaves the entry-mode bits, and sends the display-control byte of its flags. -/
def SendsFlags (s s0 : State) (l : List Send) : Prop :=
  s0.emTarget = s.emTarget ∧ s0.emDir = s.emDir
    ∧ ∃ d c b, s0.disp = some d ∧ s0.cur = some c ∧ s0.blink = some b
      ∧ l = [instrSend Params.default (encDctrl Params.default d c b)]

/-- The script leaves the flags, and sends the entry-mode byte of its entry-mode bits. -/
def SendsEntry (s s0 : State) (l : List Send) : Prop :=
  s0.disp = s.disp ∧ s0.cur = s.cur ∧ s0.blink = s.blink
    ∧ ∃ t m, s0.emTarget = some t ∧ s0.emDir = some m
      ∧ l = [instrSend Params.default (encEntry Params.default t m)]

theorem sendsFlags_of_dctrl {s s1 s0 : State} {l : List Send}
    (h : (dctrlSend s1).map (fun l => (s1, l)) = some (s0, l)) (hp : s1.params = Params.default)
    (ht : s1.emTarget = s.emTarget) (hm : s1.emDir = s.emDir) : SendsFlags s s0 l := by
  obtain ⟨l', hl, heq⟩ := Option.map_eq_some_iff.1 h
  cases heq
  obtain ⟨d, c, b, hd, hc, hb, rfl⟩ := dctrlSend_some hl
  exact ⟨ht, hm, d, c, b, hd, hc, hb, by rw [hp]⟩

theorem sendsNeither_one {s : State} {b : Byte} (hb : (instrByte b).Quiet) :
    SendsNeither s s [instrSend Params.default b] :=
  ⟨⟨rfl, rfl, rfl, rfl, rfl, rfl⟩, fun x hx => by rw [List.mem_singleton.1 hx]; exact hb⟩

/-- A facade command but `INIT` is one of three kinds (R16, R17, R144 (7)). -/
theorem facade_script_kinds {i : Instr} {s s0 : State} {l : List Send} (hi : instrFacade i = true)
    (hp : s.params = Params.default) (hs : scriptOf i s = some (s0, l)) :
    SendsNeither s s0 l ∨ SendsFlags s s0 l ∨ SendsEntry s s0 l := by
  cases i
  case snib | sbyte | sshb | si2cn | winstr => cases hi
  case init | lcdClear | lcdHome | lcdEntry | lcdDctrl | lcdShift | lcdFset | lcdSetcg | lcdSetdd
      | i2cCtrl => cases hs
  case dispon | dispoff | disptgl | curon | curoff | curtgl | blnkon | blnkoff | blnktgl =>
    exact .inr (.inl (sendsFlags_of_dctrl hs hp rfl rfl))
  all_goals
    cases hs
    rw [hp]
  case curinc | curdec | dspinc | dspdec => exact .inr (.inr ⟨rfl, rfl, rfl, _, _, rfl, rfl, rfl⟩)
  case clear | home => exact .inl (sendsNeither_one ⟨by decide, by decide⟩)
  case curl | curr | scrl | scrr => exact .inl (sendsNeither_one (shift_quiet _ _))
  case setcur => exact .inl (sendsNeither_one (addressed_quiet _ _ (.inl rfl)))
  case wdata =>
    refine .inl ⟨⟨rfl, rfl, rfl, rfl, rfl, rfl⟩, fun x hx => ?_⟩
    rw [List.mem_singleton.1 hx]
    exact dataSend_quiet _
  case wbuf =>
    refine .inl ⟨⟨rfl, rfl, rfl, rfl, rfl, rfl⟩, fun x hx => ?_⟩
    obtain ⟨b, _, rfl⟩ := List.mem_map.1 hx
    exact dataSend_quiet b
  case mkchar =>
    refine .inl ⟨⟨rfl, rfl, rfl, rfl, rfl, rfl⟩, fun x hx => ?_⟩
    rcases List.mem_cons.1 hx with rfl | hx
    · exact addressed_quiet _ _ (.inr rfl)
    · obtain ⟨b, _, rfl⟩ := List.mem_map.1 hx
      exact dataSend_quiet b
  case blon | bloff | bltgl =>
    exact .inl ⟨⟨rfl, rfl, rfl, rfl, rfl, rfl⟩, fun x hx => by cases hx⟩

/-- A finished list of sends, heard between bytes, leaves the adapter idle and the observer between
bytes again. -/
theorem run_sends_rests {s : State} {l : List Send} (h : s.hung = false)
    (hl : s.transport.linesIdle = true) (ho : s.obs.pairing = .paired)
    (ht : (s.run ((sendsTrace s.params s.transport l).map .event)).hung = false) :
    (s.run ((sendsTrace s.params s.transport l).map .event)).upc = 0
      ∧ (s.run ((sendsTrace s.params s.transport l).map .event)).transport.linesIdle = true
      ∧ (s.run ((sendsTrace s.params s.transport l).map .event)).obs.pairing = .paired := by
  refine ⟨run_upc _ s ht, ?_⟩
  rw [run_ok _ s h ht]
  refine ⟨replay_sends_idle _ _ _ hl, ?_⟩
  simp only
  rw [onItems_sends _ _ _ _ hl ho]
  exact (foldl_arrive_history _ _ _ _ ho).2

end Sys2Proof.Machine

namespace Sys2Proof.Claims

open Sys2Proof.Machine

/-- The flags and entry-mode bits of a state are those of the last bytes of their kind in a list. -/
def FlagsLastIn (s : State) (bs : List LogicalByte) : Prop :=
  ∃ d c b t m, s.disp = some d ∧ s.cur = some c ∧ s.blink = some b
    ∧ s.emTarget = some t ∧ s.emDir = some m
    ∧ lastOf isDctrlByte bs = some (instrByte (encDctrl Params.default d c b))
    ∧ lastOf isEntryByte bs = some (instrByte (encEntry Params.default t m))

theorem FlagsLastIn.of_sameFlags {s u : State} {bs : List LogicalByte} (h : SameFlags s u)
    (hs : FlagsLastIn s bs) : FlagsLastIn u bs := by
  obtain ⟨hd, hc, hb, ht, hm, _⟩ := h
  simpa only [FlagsLastIn, hd, hc, hb, ht, hm] using hs

/-- `Mirrors`, at the default parameters, with its statement about the flags named. -/
theorem mirrors_iff {s : State} (hp : s.params = Params.default) :
    Mirrors s ↔ s.phase = .ready ∧ s.upc = 0 ∧ s.transport.linesIdle = true
      ∧ s.obs.pairing = .paired ∧ FlagsLastIn s s.obs.bytes := by
  unfold Mirrors FlagsLastIn
  rw [hp]
  rfl

/-- A facade script keeps the flags those of the last bytes of their kind. -/
theorem facade_script_flagsLast {i : Instr} {s s0 : State} {l : List Send} {bs : List LogicalByte}
    (hi : instrFacade i = true) (hp : s.params = Params.default) (hs : scriptOf i s = some (s0, l))
    (h : FlagsLastIn s bs) : FlagsLastIn s0 (bs ++ l.map Send.logical) := by
  obtain ⟨d, c, b, t, m, hd, hc, hb, ht, hm, hdc, hen⟩ := h
  rcases facade_script_kinds hi hp hs with ⟨hsame, hquiet⟩ | ⟨hkt, hkm, d', c', b', hd', hc', hb', rfl⟩
    | ⟨hkd, hkc, hkb, t', m', ht', hm', rfl⟩
  · refine FlagsLastIn.of_sameFlags hsame ⟨d, c, b, t, m, hd, hc, hb, ht, hm, ?_, ?_⟩
    · rw [lastOf_append_quiet _ (by simpa using fun x hx => (hquiet x hx).1), hdc]
    · rw [lastOf_append_quiet _ (by simpa using fun x hx => (hquiet x hx).2), hen]
  · obtain ⟨hit, hmiss⟩ := dctrl_kind d' c' b'
    refine ⟨d', c', b', t, m, hd', hc', hb', hkt.trans ht, hkm.trans hm, ?_, ?_⟩
    · exact lastOf_append_hit _ hit
    · rw [lastOf_append_quiet _ (by simpa [instrSend_logical] using hmiss), hen]
  · obtain ⟨hmiss, hit⟩ := entry_kind t' m'
    refine ⟨d, c, b, t', m', hkd.trans hd, hkc.trans hc, hkb.trans hb, ht', hm', ?_, ?_⟩
    · rw [lastOf_append_quiet _ (by simpa [instrSend_logical] using hmiss), hdc]
    · exact lastOf_append_hit _ hit

/-- Every finished facade command keeps the mirror. -/
theorem facade_keeps_mirrors {i : Instr} {s t : State} (hf : i.format = .hc)
    (hi : instrFacade i = true) (hp : s.params = Params.default) (h : s.hung = false)
    (hm : Mirrors s) (he : exec i s = .next t) (ht : t.hung = false) : Mirrors t := by
  obtain ⟨hphase, _, hl, ho, hlast⟩ := (mirrors_iff hp).1 hm
  rcases exec_next_cases he with ⟨s0, l, hsc, _, _, rfl⟩ | ⟨hprim, _, _⟩ | ⟨_, _, hfresh, _⟩
    | ⟨hlcdi, _⟩ | ⟨hctl, _⟩
  · rw [← scriptOf_obs hsc] at ho hlast
    have hh0 := (scriptOf_hung hsc).trans h
    have hl0 := (scriptOf_linesIdle hsc).trans hl
    obtain ⟨hparams, _⟩ := run_sameDevice s0 ((sendsTrace s0.params s0.transport l).map .event)
    have hsame := run_sameFlags s0 (sendsTrace s0.params s0.transport l)
    obtain ⟨hu, hlt, hot⟩ := run_sends_rests hh0 hl0 ho ht
    refine (mirrors_iff (hparams.trans ((scriptOf_params hsc).trans hp))).2
      ⟨(run_events_phase s0 _).trans ((scriptOf_phase hsc).trans hphase), hu, hlt, hot, ?_⟩
    rw [run_sends_bytes hh0 hl0 ho ht]
    exact .of_sameFlags hsame (facade_script_flagsLast hi hp hsc hlast)
  · cases i <;> first | cases hprim | cases hi
  · rw [hphase] at hfresh; cases hfresh
  · rw [hf] at hlcdi; cases hlcdi
  · rw [hf] at hctl; cases hctl

/-- A finished `INIT` establishes the mirror: its last display-control byte is `0x0C`, its one
entry-mode byte `0x06` (R125). -/
theorem init_mirrors {s t : State} (hp : s.params = Params.default) (h : s.hung = false)
    (hl : s.transport.linesIdle = true) (he : exec .init s = .next t) (ht : t.hung = false) :
    Mirrors t := by
  obtain ⟨_, hrun, _⟩ := hostCommand_next he
  cases hrun
  rw [run_init s h (init_served s h ht), replay_init _ _ hl]
  refine (mirrors_iff (by exact hp)).2 ⟨rfl, rfl, afterByte_linesIdle _ _ _, ?_⟩
  simp only [hp, init_observer]
  refine ⟨trivial, true, false, false, .cursor, .inc, rfl, rfl, rfl, rfl, rfl, ?_, ?_⟩ <;>
    rw [lastOf_append] <;> cases s.transport.variant.isFour <;> rfl

/-- Settles O48: `INIT` establishes the mirror, every other facade command keeps it. -/
theorem flagsMirrorTheLastInstructionSent : Obligations.FlagsMirrorTheLastInstructionSent :=
  ⟨fun _ _ hp _ h hl he ht => init_mirrors hp h hl he ht,
    fun _ _ _ hf hi hp h hm he ht => facade_keeps_mirrors hf hi hp h hm he ht⟩

end Sys2Proof.Claims
end

section
/-! A command as its script, in the other direction, and what of the state a script writes (R16 to
R18). -/

namespace Sys2Proof.Machine

open Sys2Proof.Claims

/-- Only the commands of layers B and C but `INIT` have a script. -/
theorem needsReady_of_script {i : Instr} {s s0 : State} {l : List Send}
    (hs : scriptOf i s = some (s0, l)) : needsReady i = true := by
  cases i <;> first | rfl | cases hs

/-- A display-flag command sends what `dctrlSend` says. -/
theorem sendDctrl_of_send {s s0 : State} {l : List Send}
    (h : (dctrlSend s).map (fun l => (s, l)) = some (s0, l)) :
    s.sendDctrl = .next (s0.run ((sendsTrace s0.params s0.transport l).map .event)) := by
  obtain ⟨l', hl, heq⟩ := Option.map_eq_some_iff.1 h
  cases heq
  obtain ⟨b, hb, rfl⟩ := Option.map_eq_some_iff.1 hl
  simp only [State.sendDctrl, hb, State.sendInstr, State.perform, winstrSeq_sends]

/-- Between commands in phase Ready, a command of layers B and C but `INIT` runs its script. -/
theorem exec_of_script {i : Instr} {s s0 : State} {l : List Send} (hu : s.upc = 0)
    (hp : s.phase = .ready) (hs : scriptOf i s = some (s0, l)) :
    exec i s = .next (s0.run ((sendsTrace s0.params s0.transport l).map .event)) := by
  cases i
  case snib | sbyte | sshb | si2cn | init | lcdClear | lcdHome | lcdEntry | lcdDctrl | lcdShift
      | lcdFset | lcdSetcg | lcdSetdd | i2cCtrl => cases hs
  all_goals refine (hostCommand_ready hu hp).trans ?_
  case dispon | dispoff | disptgl | curon | curoff | curtgl | blnkon | blnkoff | blnktgl =>
    exact sendDctrl_of_send hs
  all_goals cases hs
  case wdata => rw [← wdataSeq_sends]; rfl
  case wbuf => rw [← wbufSeq_sends]; rfl
  case mkchar =>
    rw [winstrSeq_sends, wbufSeq_sends, ← List.map_append, ← sendsTrace_append]
    rfl
  case blon | bloff | bltgl => rfl
  all_goals
    rw [← winstrSeq_sends]
    rfl

/-- The state a display-flag command's events start from is the one its flags were written in. -/
theorem dctrl_script_state {s s0 : State} {l : List Send}
    (h : (dctrlSend s).map (fun l => (s, l)) = some (s0, l)) : s0 = s := by
  obtain ⟨_, _, heq⟩ := Option.map_eq_some_iff.1 h
  cases heq
  rfl

/-- Flags, entry-mode bits and backlight bit are written by the scripts of their own commands alone;
a backlight command sends nothing (R16 to R18, R126). -/
theorem scriptOf_writers {i : Instr} {s s0 : State} {l : List Send}
    (hs : scriptOf i s = some (s0, l)) :
    (isFlagCommand i = false → s0.disp = s.disp ∧ s0.cur = s.cur ∧ s0.blink = s.blink)
      ∧ (isEntryCommand i = false → s0.emTarget = s.emTarget ∧ s0.emDir = s.emDir)
      ∧ (isBacklightCommand i = false → s0.transport = s.transport)
      ∧ (isBacklightCommand i = true → l = []) := by
  cases i
  case snib | sbyte | sshb | si2cn | init | lcdClear | lcdHome | lcdEntry | lcdDctrl | lcdShift
      | lcdFset | lcdSetcg | lcdSetdd | i2cCtrl => cases hs
  case dispon | dispoff | disptgl | curon | curoff | curtgl | blnkon | blnkoff | blnktgl =>
    cases dctrl_script_state hs
    exact ⟨nofun, fun _ => ⟨rfl, rfl⟩, fun _ => rfl, nofun⟩
  all_goals cases hs
  case curinc | curdec | dspinc | dspdec =>
    exact ⟨fun _ => ⟨rfl, rfl, rfl⟩, nofun, fun _ => rfl, nofun⟩
  case blon | bloff | bltgl =>
    exact ⟨fun _ => ⟨rfl, rfl, rfl⟩, fun _ => ⟨rfl, rfl⟩, nofun, fun _ => rfl⟩
  all_goals exact ⟨fun _ => ⟨rfl, rfl, rfl⟩, fun _ => ⟨rfl, rfl⟩, fun _ => rfl, nofun⟩

end Sys2Proof.Machine
end

section
/-! The backlight bit in the trace (R18, R87, R128): the same command with the bit inverted sends the
same events with that bit flipped in every control byte. -/

namespace Sys2Proof.Machine

open Sys2Proof.Claims

/-! ### Flipping the events of a run -/

/-- One element of a micro-sequence with its event changed. -/
def Micro.mapEvent (f : Event → Event) : Micro → Micro
  | .event ev => .event (f ev)
  | .setPhase p => .setPhase p
  | .setFlags d c b => .setFlags d c b
  | .setDisp d => .setDisp d
  | .setEntry t d => .setEntry t d

@[simp] theorem map_mapEvent_events (f : Event → Event) (evs : List Event) :
    (evs.map Micro.event).map (Micro.mapEvent f) = (evs.map f).map .event := by
  simp [Micro.mapEvent]

/-- An event adds itself to the trace, and a write nothing (R20). -/
theorem micro_out (s : State) (m : Micro) : (s.micro m).out = s.out ++ eventsOf [m] := by
  cases m with
  | event ev => exact (emit_frame s ev).1
  | _ => exact (List.append_nil _).symm

theorem eventsOf_mapEvent (f : Event → Event) (m : Micro) :
    eventsOf [m.mapEvent f] = (eventsOf [m]).map f := by cases m <;> rfl

/-- Whether a transmit hangs does not depend on its bytes (R81). -/
theorem emit_flip_congr (y : CtlLayout) {s u : State} (hb : s.bus = u.bus) (hh : s.hung = u.hung)
    (ev : Event) :
    (s.emit ev).bus = (u.emit (flipBacklight y ev)).bus
      ∧ (s.emit ev).hung = (u.emit (flipBacklight y ev)).hung := by
  cases ev with
  | i2c d b0 b1 b2 =>
    simp only [flipBacklight, State.emit, State.transmit, hb]
    split <;> simp [hh, hb]
  | _ => exact emit_congr hb hh _

theorem micro_flip_congr (y : CtlLayout) {s u : State} (hb : s.bus = u.bus) (hh : s.hung = u.hung)
    (m : Micro) :
    (s.micro m).bus = (u.micro (m.mapEvent (flipBacklight y))).bus
      ∧ (s.micro m).hung = (u.micro (m.mapEvent (flipBacklight y))).hung := by
  cases m with
  | event ev => exact emit_flip_congr y hb hh ev
  | _ => exact ⟨hb, hh⟩

/-- Two states with the same engine, one running a micro-sequence and the other the same with the bit
flipped, add the same events but for that bit, and stop at the same one. -/
theorem play_flip_out (y : CtlLayout) (ms : List Micro) {s u : State} (hb : s.bus = u.bus)
    (hh : s.hung = u.hung) :
    ∃ evs, (s.play ms).out = s.out ++ evs
      ∧ (u.play (ms.map (Micro.mapEvent (flipBacklight y)))).out
        = u.out ++ evs.map (flipBacklight y) := by
  induction ms generalizing s u with
  | nil => exact ⟨[], by simp [State.play]⟩
  | cons m ms ih =>
    obtain ⟨hb1, hh1⟩ := micro_flip_congr y hb hh m
    have ho1 := micro_out s m
    have ho2 := micro_out u (m.mapEvent (flipBacklight y))
    rw [eventsOf_mapEvent] at ho2
    simp only [List.map_cons, State.play, ← hh1]
    split
    · exact ⟨_, ho1, ho2⟩
    · obtain ⟨evs, h1, h2⟩ := ih hb1 hh1
      exact ⟨eventsOf [m] ++ evs, by rw [h1, ho1, List.append_assoc],
        by rw [h2, ho2, List.map_append, List.append_assoc]⟩

theorem run_flip_out (y : CtlLayout) (ms : List Micro) {s u : State} (hb : s.bus = u.bus)
    (hh : s.hung = u.hung) (ho : u.out = s.out) :
    ∃ evs, (s.run ms).out = s.out ++ evs
      ∧ (u.run (ms.map (Micro.mapEvent (flipBacklight y)))).out
        = s.out ++ evs.map (flipBacklight y) := by
  rw [run_out, run_out]
  simpa only [ho] using play_flip_out y ms hb hh

/-! ### The frames with the bit flipped -/

/-- The port with its backlight bit inverted. -/
def I2cPort.flipped (port : I2cPort) : I2cPort := { port with bl := !port.bl }

/-- Inverting the backlight bit inverts exactly bit `blBit` of a control byte (R62). -/
theorem byte_not_bl (y : CtlLayout) (n : Nibble) (rs bl en : Bool) :
    y.byte n rs (!bl) en = y.byte n rs bl en ^^^ oneBit y.blBit := by
  apply BitVec.eq_of_getLsbD_eq
  intro i hi
  rw [BitVec.getLsbD_xor, oneBit, BitVec.getLsbD_twoPow]
  by_cases h : i = y.blBit
  · subst h
    rw [CtlLayout.byte_bl, CtlLayout.byte_bl]
    simp [hi]
  · rw [CtlLayout.byte_bit _ _ _ _ _ _ hi, CtlLayout.byte_bit _ _ _ _ _ _ hi]
    simp [h, Ne.symm h]

theorem frameTrace_flipped (port : I2cPort) (level : Bool) (n : Nibble) :
    frameTrace port.flipped level n = flipBacklight port.layout (frameTrace port level n) := by
  simp [frameTrace, flipBacklight, I2cPort.flipped, byte_not_bl]

@[simp] theorem waitTrace_flip (y : CtlLayout) (n : Nat) :
    (waitTrace n).map (flipBacklight y) = waitTrace n := by
  unfold waitTrace
  split <;> rfl

theorem byteTrace_flipped (p : Params) (port : I2cPort) (level : Bool) (b : Byte) :
    byteTrace p (.i2c port.flipped) level b
      = (byteTrace p (.i2c port) level b).map (flipBacklight port.layout) := by
  simp [byteTrace, frameTrace_flipped]

theorem nibbleTrace_flipped (p : Params) (port : I2cPort) (level : Bool) (n : Nibble) :
    nibbleTrace p (.i2c port.flipped) level n
      = (nibbleTrace p (.i2c port) level n).map (flipBacklight port.layout) := by
  simp [nibbleTrace, frameTrace_flipped]

theorem sendsTrace_flipped (p : Params) (port : I2cPort) (l : List Send) :
    sendsTrace p (.i2c port.flipped) l
      = (sendsTrace p (.i2c port) l).map (flipBacklight port.layout) := by
  simp [sendsTrace, byteTrace_flipped, List.map_flatMap]

theorem initSeq_flipped (p : Params) (port : I2cPort) :
    initSeq p (.i2c port.flipped)
      = (initSeq p (.i2c port)).map (Micro.mapEvent (flipBacklight port.layout)) := by
  have hhead : initHead p (.i2c port.flipped)
      = (initHead p (.i2c port)).map (flipBacklight port.layout) := by
    simp [initHead, Transport.variant, Variant.isFour, nibbleTrace_flipped, byteTrace_flipped]
  have hbyte (b : Byte) : initByte p (.i2c port.flipped) b
      = (initByte p (.i2c port) b).map (flipBacklight port.layout) := by
    simp [initByte, byteTrace_flipped]
  simp only [initSeq_eq, hhead, hbyte, List.map_cons, List.map_append, map_mapEvent_events,
    List.map_nil, Micro.mapEvent]

/-! ### The same command from the flipped state -/

/-- The state with the backlight bit inverted. -/
def State.flipped (s : State) (port : I2cPort) : State := { s with transport := .i2c port.flipped }

/-- A script from the flipped state sends the same bytes, and its frames have the bit flipped. -/
theorem script_flipped {i : Instr} {s s0 : State} {l : List Send} {port : I2cPort}
    (ht : s.transport = .i2c port) (hs : scriptOf i s = some (s0, l)) :
    ∃ u0, scriptOf i (s.flipped port) = some (u0, l)
      ∧ sendsTrace u0.params u0.transport l
        = (sendsTrace s0.params s0.transport l).map (flipBacklight port.layout) := by
  have hsame := scriptOf_sends_congr i (s := s) (u := s.flipped port) rfl rfl rfl rfl
  rw [hs] at hsame
  obtain ⟨⟨u0, l'⟩, hu, rfl⟩ := Option.map_eq_some_iff.1 hsame.symm
  refine ⟨u0, hu, ?_⟩
  obtain ⟨_, _, hkeep, hnone⟩ := scriptOf_writers hs
  obtain ⟨_, _, hkeepu, _⟩ := scriptOf_writers hu
  cases hb : isBacklightCommand i with
  | true => rw [hnone hb]; rfl
  | false =>
    have ht0 : s0.transport = .i2c port := (hkeep hb).trans ht
    have hu0 : u0.transport = .i2c port.flipped := hkeepu hb
    have hp0 : u0.params = s0.params := (scriptOf_params hu).trans (scriptOf_params hs).symm
    rw [ht0, hu0, hp0, sendsTrace_flipped]

end Sys2Proof.Machine

namespace Sys2Proof.Claims

open Sys2Proof.Machine

/-- Settles O26: the flipped state runs the same script, primitive or `INIT`, with the bit flipped in
every frame. -/
theorem backlightFlipsOnlyBitThree : Obligations.BacklightFlipsOnlyBitThree := by
  intro i s port t hf ht he
  show ∃ t' evs, exec i (s.flipped port) = .next t' ∧ _
  rcases exec_next_cases he with ⟨s0, l, hs, hu, hp, rfl⟩ | ⟨hprim, hu, rfl⟩ | ⟨rfl, hu, hp, rfl⟩
    | ⟨hl, _⟩ | ⟨hc, _⟩
  · obtain ⟨u0, hsu, htrace⟩ := script_flipped ht hs
    obtain ⟨evs, h1, h2⟩ := run_flip_out port.layout
      ((sendsTrace s0.params s0.transport l).map .event) (s := s0) (u := u0)
      ((scriptOf_bus hs).trans (scriptOf_bus hsu).symm)
      ((scriptOf_hung hs).trans (scriptOf_hung hsu).symm)
      ((scriptOf_out hsu).trans (scriptOf_out hs).symm)
    rw [map_mapEvent_events, ← htrace, scriptOf_out hs] at h2
    exact ⟨_, evs, exec_of_script hu hp hsu, by rw [h1, scriptOf_out hs], h2⟩
  · rw [ht] at hprim
    cases i <;> cases hprim
    rename_i d n
    have hgo : exec (.si2cn d n) (s.flipped port)
        = .next ((s.flipped port).run ([frameTrace port.flipped (rsLevel s.params d) n].map .event)) :=
      hostCommand_primitive hu rfl
    have hframe : primTrace (.si2cn d n) s = [frameTrace port (rsLevel s.params d) n] := by
      simp [primTrace, ht]
    obtain ⟨evs, h1, h2⟩ := run_flip_out port.layout ((primTrace (.si2cn d n) s).map .event)
      (s := s) (u := s.flipped port) rfl rfl rfl
    rw [map_mapEvent_events, hframe, List.map_singleton, ← frameTrace_flipped] at h2
    exact ⟨_, evs, hgo, h1, h2⟩
  · obtain ⟨evs, h1, h2⟩ := run_flip_out port.layout (initSeq s.params s.transport)
      (s := s) (u := s.flipped port) rfl rfl rfl
    refine ⟨_, evs, hostCommand_construction hu hp, h1, ?_⟩
    rw [ht, ← initSeq_flipped] at h2
    exact h2
  · rw [hf] at hl; cases hl
  · rw [hf] at hc; cases hc

end Sys2Proof.Claims
end

section
/-! What a step leaves alone: history only grows (R20, R43), each field has its writers (R16 to R18),
the configuration is fixed and the phase moves through `INIT` alone (R12, R14). -/

namespace Sys2Proof.Machine

open Sys2Proof.Claims

/-! ### History -/

/-- The trace, the logical stream and the logical bytes of b extend those of a. -/
def Extends (a b : State) : Prop :=
  (∃ evs, b.out = a.out ++ evs) ∧ (∃ its, b.obs.items = a.obs.items ++ its)
    ∧ ∃ bs, b.obs.bytes = a.obs.bytes ++ bs

theorem Extends.of_eq {a b : State} (ho : b.out = a.out) (hb : b.obs = a.obs) : Extends a b :=
  ⟨⟨[], by simp [ho]⟩, ⟨[], by simp [hb]⟩, ⟨[], by simp [hb]⟩⟩

theorem Extends.trans {a b c : State} (hab : Extends a b) (hbc : Extends b c) : Extends a c := by
  obtain ⟨⟨e1, h1⟩, ⟨i1, h2⟩, ⟨b1, h3⟩⟩ := hab
  obtain ⟨⟨e2, h4⟩, ⟨i2, h5⟩, ⟨b2, h6⟩⟩ := hbc
  exact ⟨⟨e1 ++ e2, by rw [h4, h1, List.append_assoc]⟩, ⟨i1 ++ i2, by rw [h5, h2, List.append_assoc]⟩,
    ⟨b1 ++ b2, by rw [h6, h3, List.append_assoc]⟩⟩

theorem extends_latch (s : State) (r : Transport × List Item) : Extends s (s.latch r) := by
  obtain ⟨hi, hb⟩ := onItems_history s.params s.transport.variant s.obs r.2
  exact ⟨⟨[], by simp⟩, ⟨r.2, hi⟩, hb⟩

theorem extends_record (s : State) (ev : Event) : Extends s (s.record ev) :=
  ⟨⟨[ev], rfl⟩, ⟨[], by simp⟩, ⟨[], by simp⟩⟩

theorem extends_emit (s : State) (ev : Event) : Extends s (s.emit ev) := by
  cases ev with
  | i2c d b0 b1 b2 =>
    simp only [State.emit, State.transmit]
    split
    · exact (extends_latch s _).trans (extends_record _ _)
    · exact (extends_latch { s with bus := _ } _).trans (extends_record _ _)
    · exact (extends_latch { s with hung := true, freeCount := _ } _).trans (extends_record _ _)
  | _ => exact (extends_latch s _).trans (extends_record _ _)

theorem extends_micro (s : State) (m : Micro) : Extends s (s.micro m) := by
  cases m with
  | event ev => exact extends_emit s ev
  | setPhase p =>
    obtain ⟨hi, hb⟩ := onPhase_history s.params s.transport.variant s.obs p
    exact ⟨⟨[], by simp [State.micro]⟩, ⟨[], by simp [State.micro, hi]⟩, ⟨[], by simp [State.micro, hb]⟩⟩
  | _ => exact .of_eq rfl rfl

theorem extends_run (s : State) (ms : List Micro) : Extends s (s.run ms) :=
  run_induct (P := Extends s) (fun _ m h => h.trans (extends_micro _ m)) (fun _ _ h => h)
    (fun _ h => h) s ms (.of_eq rfl rfl)

theorem extends_tick (s : State) : Extends s s.tick :=
  tick_induct (P := Extends s) (fun _ m h => h.trans (extends_micro _ m)) (fun _ _ h => h)
    (fun _ h => h) s (.of_eq rfl rfl)

/-- A byte heard at the controller is recorded, whatever its effect, if that leaves the history. -/
theorem extends_receive (s : State) (b : Byte) {act : Observer → Observer}
    (hact : ∀ o, (act o).items = o.items ∧ (act o).bytes = o.bytes) :
    Extends s (s.receive b act) := by
  have hheed (o : Observer) : (o.heed act).items = o.items ∧ (o.heed act).bytes = o.bytes := by
    rcases heed_cases act o with ⟨_, h⟩ | ⟨_, h⟩ <;> rw [h]
    · exact ⟨rfl, rfl⟩
    · exact hact o
  refine ⟨⟨[], by simp⟩, ⟨[], ?_⟩, ⟨[⟨some (rsLevel s.params false), some b⟩], ?_⟩⟩ <;>
    rw [State.receive_obs] <;> rcases hear_cases _ act s.obs with ⟨_, _, _, _, h⟩ | ⟨_, h⟩ <;> rw [h]
  · simp
  · simp [hheed]
  · simp [hheed]

theorem extends_exec {i : Instr} {s t : State} (he : exec i s = .next t) : Extends s t := by
  rcases exec_next_cases he with ⟨s0, l, hs, _, _, rfl⟩ | ⟨_, _, rfl⟩ | ⟨_, _, _, rfl⟩ | ⟨_, b, rfl⟩
    | ⟨_, bs, rfl⟩
  · exact (Extends.of_eq (scriptOf_out hs) (scriptOf_obs hs)).trans (extends_run s0 _)
  · exact extends_run s _
  · exact extends_run s _
  · refine extends_receive s b fun o => ?_
    obtain ⟨hi, hb, _⟩ := onInstr_history s.params s.transport.variant o i
    exact ⟨hi, hb⟩
  · exact extends_latch s _

/-! ### Configuration and phase -/

/-- What construction fixes: parameters, variant, device and layout (R6, R12). -/
def SameConfig (a b : State) : Prop :=
  b.params = a.params ∧ b.transport.variant = a.transport.variant
    ∧ b.transport.dest = a.transport.dest ∧ b.transport.layout = a.transport.layout

theorem SameConfig.trans {a b c : State} (hab : SameConfig a b) (hbc : SameConfig b c) :
    SameConfig a c := by
  obtain ⟨hp1, hv1, hd1, hy1⟩ := hab
  obtain ⟨hp2, hv2, hd2, hy2⟩ := hbc
  exact ⟨hp2.trans hp1, hv2.trans hv1, hd2.trans hd1, hy2.trans hy1⟩

theorem run_sameConfig (s : State) (ms : List Micro) : SameConfig s (s.run ms) := by
  obtain ⟨hp, hv, hd, hy, _⟩ := run_sameDevice s ms
  exact ⟨hp, hv, hd, hy⟩

theorem exec_sameConfig {i : Instr} {s t : State} (he : exec i s = .next t) : SameConfig s t := by
  rcases exec_next_cases he with ⟨s0, l, hs, _, _, rfl⟩ | ⟨_, _, rfl⟩ | ⟨_, _, _, rfl⟩ | ⟨_, b, rfl⟩
    | ⟨_, bs, rfl⟩
  · obtain ⟨hp, hv, hd, hy, _⟩ := scriptOf_core hs
    exact SameConfig.trans ⟨hp, hv, hd, hy⟩ (run_sameConfig s0 _)
  · exact run_sameConfig s _
  · exact run_sameConfig s _
  · exact ⟨rfl, rfl, rfl, rfl⟩
  · exact ⟨rfl, Transport.takeBytes_variant _ _, takeBytes_dest _ _, takeBytes_layout _ _⟩

/-- The port of an I2C adapter keeps its device and its layout. -/
theorem SameConfig.port {a b : State} (h : SameConfig a b) {port : I2cPort}
    (ha : a.transport = .i2c port) :
    ∃ port', b.transport = .i2c port' ∧ port'.dest = port.dest ∧ port'.layout = port.layout := by
  obtain ⟨_, hv, hd, hy⟩ := h
  rw [ha] at hv hd hy
  cases hb : b.transport with
  | i2c port' =>
    rw [hb] at hd hy
    exact ⟨port', rfl, Option.some.inj hd, hy⟩
  | _ => rw [hb] at hv; cases hv

/-- Every command but `INIT` leaves the phase (R14). -/
theorem exec_phase {i : Instr} {s t : State} (hi : i ≠ .init) (he : exec i s = .next t) :
    t.phase = s.phase := by
  rcases exec_next_cases he with ⟨s0, l, hs, _, _, rfl⟩ | ⟨_, _, rfl⟩ | ⟨h, _⟩ | ⟨_, b, rfl⟩
    | ⟨_, bs, rfl⟩
  · exact (run_events_phase s0 _).trans (scriptOf_phase hs)
  · exact run_events_phase s _
  · exact absurd h hi
  · rfl
  · rfl

end Sys2Proof.Machine

namespace Sys2Proof.Claims

open Sys2Proof.Machine

/-- Settles O35: every source of a next state extends the history. -/
theorem stepOnlyAppends : Obligations.StepOnlyAppends := by
  intro s t ht
  obtain ⟨_, ⟨_, rfl⟩ | rfl | ⟨_, ds, r, i, he⟩ | ⟨ds, b, rfl⟩⟩ := step_next_sources ht
  · exact extends_tick s
  · exact Extends.of_eq (a := t) rfl rfl
  · exact extends_exec (s := { s with devIn := ds, hostIn := r }) he
  · exact extends_receive { s with devIn := ds } b fun _ => ⟨rfl, rfl⟩

/-- Settles O36: a script writes before its first event, the events write no flag, and only a backlight
command's script touches the backlight bit. -/
theorem eachFieldHasItsWriters : Obligations.EachFieldHasItsWriters := by
  intro i s t he
  rcases exec_next_cases he with ⟨s0, l, hs, _, _, rfl⟩ | ⟨_, _, rfl⟩ | ⟨rfl, _, _, rfl⟩ | ⟨_, b, rfl⟩
    | ⟨_, bs, rfl⟩
  · obtain ⟨hflags, hentry, hlight, _⟩ := scriptOf_writers hs
    obtain ⟨hd, hc, hb, ht, hm, _⟩ := run_sameFlags s0 (sendsTrace s0.params s0.transport l)
    refine ⟨fun _ hi => ?_, fun _ hi => ?_, fun hi => ?_⟩
    · obtain ⟨hd0, hc0, hb0⟩ := hflags hi
      exact ⟨hd.trans hd0, hc.trans hc0, hb.trans hb0⟩
    · obtain ⟨ht0, hm0⟩ := hentry hi
      exact ⟨ht.trans ht0, hm.trans hm0⟩
    · rw [run_backlight, hlight hi]
  · obtain ⟨hd, hc, hb, ht, hm, _⟩ := run_sameFlags s (primTrace i s)
    exact ⟨fun _ _ => ⟨hd, hc, hb⟩, fun _ _ => ⟨ht, hm⟩, fun _ => run_backlight s _⟩
  · exact ⟨fun hne => absurd rfl hne, fun hne => absurd rfl hne, fun _ => run_backlight s _⟩
  · exact ⟨fun _ _ => ⟨rfl, rfl, rfl⟩, fun _ _ => ⟨rfl, rfl⟩, fun _ => rfl⟩
  · exact ⟨fun _ _ => ⟨rfl, rfl, rfl⟩, fun _ _ => ⟨rfl, rfl⟩, fun _ => takeBytes_backlight _ _⟩

/-- Settles O49: no command changes the configuration, and the gate of `INIT` is the construction
phase. -/
theorem onlyInitMovesThePhase : Obligations.OnlyInitMovesThePhase := by
  intro i s t he
  have hconf := exec_sameConfig he
  have ⟨hp, hv, _, _⟩ := hconf
  refine ⟨hp, hv, fun hi => exec_phase hi he, ?_, fun port hport => hconf.port hport⟩
  rintro rfl
  obtain ⟨_, _, hphase⟩ := hostCommand_next he
  exact hphase

end Sys2Proof.Claims
end

section
/-! Event by event or whole, a micro-sequence gives the same state (R15, last sentence). -/

namespace Sys2Proof.Machine

/-- The writes that stand between events hang nothing. -/
theorem play_quiet_hung {ms : List Micro} {s : State} (hq : ms.any Micro.isEvent = false) :
    (s.play ms).hung = s.hung := by
  induction ms generalizing s with
  | nil => rfl
  | cons m ms ih =>
    simp only [List.any_cons, Bool.or_eq_false_iff] at hq
    obtain ⟨hm, hms⟩ := hq
    have hkept := micro_quiet_hung s m hm
    simp only [State.play]
    split
    · exact hkept
    · exact (ih hms).trans hkept

/-- A stuck state is where the sequencer stays (R137). -/
theorem tick_iterate_stuck {s : State} (h : s.hung = true) (n : Nat) : State.tick^[n] s = s :=
  Function.iterate_fixed (by simp [State.tick, h]) n

theorem run_cons_stuck {s : State} {m : Micro} (ms : List Micro) (h : (s.micro m).hung = true) :
    s.run (m :: ms) = { s.micro m with pending := ms } := by
  simp [State.run, State.play, h]

theorem run_cons {s : State} {m : Micro} (ms : List Micro) (h : (s.micro m).hung = false) :
    s.run (m :: ms) = (s.micro m).run ms := by
  simp [State.run, State.play, h]

theorem any_isEvent_iff {ms : List Micro} :
    ms.any Micro.isEvent = true ↔ 0 < ms.countP Micro.isEvent := by
  rw [List.countP_pos_iff, List.any_eq_true]

/-- As many steps of the sequencer as the sequence has events end where the whole run does. -/
theorem tickFrom_iterate_eq_run (ms : List Micro) {s : State} (h : s.hung = false) :
    State.tick^[ms.countP Micro.isEvent - 1] (s.tickFrom ms) = s.run ms := by
  induction ms generalizing s with
  | nil => simp [State.tickFrom, State.run, State.play, h]
  | cons m ms ih =>
    cases hm : (s.micro m).hung with
    | true =>
      rw [run_cons_stuck ms hm, State.tickFrom, if_pos hm]
      exact tick_iterate_stuck (s := { s.micro m with pending := ms }) hm _
    | false =>
      rw [run_cons ms hm, State.tickFrom, if_neg (by simp [hm])]
      cases he : m.isEvent with
      | false =>
        rw [if_neg (by simp), List.countP_cons_of_neg (by simp [he])]
        exact ih hm
      | true =>
        rw [if_pos rfl, List.countP_cons_of_pos he, Nat.add_sub_cancel]
        cases hrest : ms.any Micro.isEvent with
        | true =>
          obtain ⟨n, hn⟩ := Nat.exists_eq_succ_of_ne_zero (any_isEvent_iff.1 hrest).ne'
          have hstep : State.tick { s.micro m with pending := ms }
              = { s.micro m with pending := ms }.tickFrom ms := by simp [State.tick, hm]
          have hpend := ih (s := { s.micro m with pending := ms }) hm
          rw [hn, Nat.succ_sub_one] at hpend
          rw [if_pos rfl, hn, Function.iterate_succ_apply, hstep, hpend, run_pending ms ms _ hm]
        | false =>
          have hzero : ms.countP Micro.isEvent = 0 :=
            Nat.eq_zero_of_not_pos fun hpos => by simp [any_isEvent_iff.2 hpos] at hrest
          rw [if_neg (by simp), hzero, State.run, if_neg (by simp [play_quiet_hung hrest, hm])]
          rfl

end Sys2Proof.Machine

namespace Sys2Proof.Claims

open Sys2Proof.Machine

/-- Settles O43, by induction on the micro-sequence: an event that hangs stops both, any other leaves
the rest to both. -/
theorem eventStepsGiveTheWholeCommand : Obligations.EventStepsGiveTheWholeCommand :=
  fun _ ms _ h => tickFrom_iterate_eq_run ms h

/-! ### Unwritten flags -/

/-- The display-control byte has no value while one of its flags has none (R28). -/
theorem sendDctrl_unwritten {s : State} (h : s.disp = none ∨ s.cur = none ∨ s.blink = none) :
    s.sendDctrl = .fault .readUnwritten := by
  have hnone : s.dctrlByte = none := by
    unfold State.dctrlByte
    split
    · rename_i hd hc hb
      simp [hd, hc, hb] at h
    · rfl
  simp only [State.sendDctrl, hnone]

/-- Settles O16: past the gate each flag command reads the flags it does not write. -/
theorem readOfUnwrittenFlagFaults : Obligations.ReadOfUnwrittenFlagFaults := by
  intro s hu hp
  have hfault {s0 : State} (h : s0.disp = none ∨ s0.cur = none ∨ s0.blink = none) :
      hostCommand .ready s s0.sendDctrl = .fault .readUnwritten :=
    (hostCommand_ready hu hp).trans (sendDctrl_unwritten h)
  refine ⟨fun h => ?_, fun h => ?_, fun h => ?_, fun h => ?_⟩
  · exact ⟨hfault (.inr h), hfault (.inr h)⟩
  · exact ⟨hfault (h.imp_right .inr), hfault (h.imp_right .inr)⟩
  · exact ⟨hfault (h.imp_right .inl), hfault (h.imp_right .inl)⟩
  · refine ⟨hfault ?_, hfault ?_, hfault ?_⟩ <;> simpa using h

end Sys2Proof.Claims
end

section
/-! The controller's memories under the commands that send one instruction: a byte reads as before or
is no longer known (R24, R40, R101). -/

namespace Sys2Proof.Machine

open Sys2Proof.Claims

/-! ### One instruction byte, to an observer in step -/

theorem busServes_congr {s u : State} (ht : u.transport = s.transport) (hb : u.bus = s.bus) (k : Nat) :
    u.busServes k = s.busServes k := by
  simp only [State.busServes, ht, hb]

theorem heed_matched {o : Observer} (act : Observer → Observer) (h : o.iface = .matched) :
    o.heed act = act o := by
  simp [Observer.heed, h]

/-- An instruction byte of a class does what its row does (R40). -/
theorem obey_instr {p : Params} {v : Variant} {b : Byte} {i : Instr} {o : Observer}
    (h : decodeLcdiFor p b = some i) :
    o.obey p v ⟨some (instrLevel p), some b⟩ = o.onInstr p v i := by
  simp [Observer.obey, h]

/-- One of no class leaves nothing known (U6). -/
theorem obey_noClass {p : Params} {v : Variant} {b : Byte} {o : Observer}
    (h : decodeLcdiFor p b = none) :
    o.obey p v ⟨some (instrLevel p), some b⟩ = o.lose := by
  simp [Observer.obey, h]

/-- A command whose script is one instruction byte: an observer in step obeys that byte, its memories
as they were (R41). -/
theorem one_instruction_obeyed {i : Instr} {s s0 t : State} {b : Byte} (hr : ReadyFor 2 s)
    (hstep : s.inStep = true) (hs : scriptOf i s = some (s0, [instrSend s.params b]))
    (ht0 : s0.transport = s.transport) (he : exec i s = .next t) :
    ∃ o : Observer, o.ddram = s.obs.ddram ∧ o.cgram = s.obs.cgram
      ∧ t.obs = o.obey s.params s.transport.variant ⟨some (instrLevel s.params), some b⟩ := by
  obtain ⟨hu, hh, hp, hl, hb⟩ := hr
  obtain ⟨hpair, hiface⟩ := of_decide_eq_true hstep
  have hrun := exec_of_script hu hp hs
  rw [he, run_sends s0 [instrSend s.params b] ((scriptOf_hung hs).trans hh)
    ((busServes_congr ht0 (scriptOf_bus hs) 2).trans hb)] at hrun
  cases hrun
  simp only [ht0, scriptOf_params hs, scriptOf_obs hs]
  rw [onItems_sends _ _ _ _ hl hpair]
  refine ⟨_, ?_, ?_, (arrive_eq hpair).trans (heed_matched _ ?_)⟩
  · rfl
  · rfl
  · exact hiface

/-! ### What an instruction byte leaves of the memories -/

/-- Whatever the byte, each memory reads as before or nothing. -/
theorem obey_instr_read (p : Params) (v : Variant) (b : Byte) (o : Observer) (a : Nat) :
    ((o.obey p v ⟨some (instrLevel p), some b⟩).ddram.read a = o.ddram.read a
        ∨ (o.obey p v ⟨some (instrLevel p), some b⟩).ddram.read a = none)
      ∧ ((o.obey p v ⟨some (instrLevel p), some b⟩).cgram.read a = o.cgram.read a
        ∨ (o.obey p v ⟨some (instrLevel p), some b⟩).cgram.read a = none) := by
  cases hd : decodeLcdiFor p b with
  | some j => rw [obey_instr hd]; exact onInstr_read p v o j a
  | none => rw [obey_noClass hd]; exact ⟨.inr rfl, .inr rfl⟩

/-- At the default parameters the byte is an instruction that leaves both memories. -/
def LeavesMemories (b : Byte) : Prop :=
  ∃ j, decodeLcdiFor Params.default b = some j ∧ ∀ v (o : Observer),
    (o.onInstr Params.default v j).ddram = o.ddram ∧ (o.onInstr Params.default v j).cgram = o.cgram

theorem dctrl_leaves (d c b : Bool) : LeavesMemories (encDctrl Params.default d c b) :=
  ⟨.lcdDctrl d c b, by revert d c b; decide, fun _ _ => ⟨rfl, rfl⟩⟩

theorem entry_leaves (t : EmTarget) (m : EmDir) : LeavesMemories (encEntry Params.default t m) :=
  ⟨.lcdEntry (decide (m = .inc)) (decide (t = .display)), by cases t <;> cases m <;> decide,
    fun _ _ => ⟨rfl, rfl⟩⟩

theorem shift_leaves (w : ShiftWhat) (d : ShiftSide) :
    LeavesMemories (encShift Params.default w d) := by
  refine ⟨.lcdShift (decide (w = .display)) (decide (d = .right)), by cases w <;> cases d <;> decide,
    fun _ o => ?_⟩
  simp only [Observer.onInstr, Observer.onShift]
  split <;> exact ⟨rfl, rfl⟩

theorem setdd_leaves (x : Byte) : LeavesMemories (encDdram Params.default x) := by
  have hclass : encDdram Params.default x &&& ~~~0x7F = Params.default.opDdram := by
    revert x; decide
  exact ⟨_, by rw [decodeLcdiFor, if_pos hclass], fun _ _ => ⟨rfl, rfl⟩⟩

/-- The commands that send one instruction of those classes: flags, entry mode, shifts, `SETCUR`. -/
def leavesMemories : Instr → Bool
  | .curl | .curr | .scrl | .scrr | .setcur _ _ => true
  | i => isFlagCommand i || isEntryCommand i

theorem leavesMemories_not_light {i : Instr} (hi : leavesMemories i = true) :
    isBacklightCommand i = false := by
  cases i <;> first | rfl | cases hi

theorem leavesMemories_needsReady {i : Instr} (hi : leavesMemories i = true) :
    needsReady i = true := by
  cases i <;> first | rfl | cases hi

theorem dctrl_script_leaves {s s1 s0 : State} {l : List Send}
    (h : (dctrlSend s1).map (fun l => (s1, l)) = some (s0, l)) (hp : s1.params = s.params) :
    ∃ b, l = [instrSend s.params b] ∧ (s.params = Params.default → LeavesMemories b) := by
  obtain ⟨l', hl, heq⟩ := Option.map_eq_some_iff.1 h
  cases heq
  obtain ⟨d, c, b, _, _, _, rfl⟩ := dctrlSend_some hl
  rw [hp]
  exact ⟨_, rfl, fun hdef => hdef ▸ dctrl_leaves d c b⟩

theorem leavesMemories_script {i : Instr} {s s0 : State} {l : List Send}
    (hi : leavesMemories i = true) (hs : scriptOf i s = some (s0, l)) :
    ∃ b, l = [instrSend s.params b] ∧ (s.params = Params.default → LeavesMemories b) := by
  cases i <;> try (cases hi; done)
  case dispon | dispoff | disptgl | curon | curoff | curtgl | blnkon | blnkoff | blnktgl =>
    exact dctrl_script_leaves hs rfl
  all_goals
    cases hs
    refine ⟨_, rfl, fun hdef => ?_⟩
    rw [hdef]
  case curinc | curdec | dspinc | dspdec => exact entry_leaves _ _
  case setcur => exact setdd_leaves _
  all_goals exact shift_leaves _ _

/-- Clear and home, at the default parameters: nothing is known of either memory. -/
theorem wipe_read {b : Byte} (hb : b = encClear Params.default ∨ b = encHome Params.default)
    (v : Variant) (o : Observer) :
    (o.obey Params.default v ⟨some (instrLevel Params.default), some b⟩).ddram = []
      ∧ (o.obey Params.default v ⟨some (instrLevel Params.default), some b⟩).cgram = [] := by
  rcases hb with rfl | rfl
  · rw [obey_instr (i := .lcdClear) (by decide)]; exact ⟨rfl, rfl⟩
  · rw [obey_instr (i := .lcdHome) (by decide)]; exact ⟨rfl, rfl⟩

end Sys2Proof.Machine

namespace Sys2Proof.Claims

open Sys2Proof.Machine

/-- Under a command whose script is one instruction byte, each memory reads as before or nothing. -/
theorem one_instruction_read {i : Instr} {s s0 t : State} {b : Byte} (hr : ReadyFor 2 s)
    (hstep : s.inStep = true) (hs : scriptOf i s = some (s0, [instrSend s.params b]))
    (hlight : isBacklightCommand i = false) (he : exec i s = .next t) (a : Nat) :
    (t.obs.ddram.read a = s.obs.ddram.read a ∨ t.obs.ddram.read a = none)
      ∧ (t.obs.cgram.read a = s.obs.cgram.read a ∨ t.obs.cgram.read a = none) := by
  obtain ⟨_, _, hkeep, _⟩ := scriptOf_writers hs
  obtain ⟨o, hdd, hcg, hobs⟩ := one_instruction_obeyed hr hstep hs (hkeep hlight) he
  rw [hobs, ← hdd, ← hcg]
  exact obey_instr_read _ _ _ _ _

/-- Settles O32: each of these commands sends one instruction byte, and an instruction stores
nothing. -/
theorem instructionCommandsStoreNothing : Obligations.InstructionCommandsStoreNothing := by
  intro i s t a hr hstep he plain wipes
  have hplain (h : plain) : leavesMemories i = true := by
    rcases h with rfl | rfl | rfl | rfl | rfl | rfl | rfl | rfl | rfl | rfl | rfl | rfl | rfl | rfl
      | rfl | rfl | rfl | ⟨_, _, rfl⟩ <;> rfl
  refine ⟨?_, fun h hdef => ?_, fun h hdef => ?_⟩
  · rintro (h | (rfl | rfl) | ⟨b, rfl⟩)
    · obtain ⟨_, _, s0, l, hs, _⟩ := exec_script (leavesMemories_needsReady (hplain h)) he
      obtain ⟨b, rfl, _⟩ := leavesMemories_script (hplain h) hs
      exact one_instruction_read hr hstep hs (leavesMemories_not_light (hplain h)) he a
    all_goals exact one_instruction_read hr hstep rfl rfl he a
  · obtain ⟨_, _, s0, l, hs, _⟩ := exec_script (leavesMemories_needsReady (hplain h)) he
    obtain ⟨b, rfl, hleaves⟩ := leavesMemories_script (hplain h) hs
    obtain ⟨_, _, hkeep, _⟩ := scriptOf_writers hs
    obtain ⟨o, hdd, hcg, hobs⟩ :=
      one_instruction_obeyed hr hstep hs (hkeep (leavesMemories_not_light (hplain h))) he
    obtain ⟨j, hj, hmem⟩ := hleaves hdef
    rw [hobs, hdef, obey_instr hj, (hmem _ o).1, (hmem _ o).2, hdd, hcg]
    exact ⟨rfl, rfl⟩
  · have hsend : ∃ b, scriptOf i s = some (s, [instrSend s.params b])
        ∧ (b = encClear Params.default ∨ b = encHome Params.default) := by
      rcases h with rfl | rfl
      · exact ⟨_, rfl, .inl (congrArg encClear hdef)⟩
      · exact ⟨_, rfl, .inr (congrArg encHome hdef)⟩
    obtain ⟨b, hs, hb⟩ := hsend
    obtain ⟨o, _, _, hobs⟩ := one_instruction_obeyed hr hstep hs rfl he
    obtain ⟨hdd, hcg⟩ := wipe_read hb s.transport.variant o
    rw [hobs, hdef, hdd, hcg]
    exact ⟨rfl, rfl⟩

end Sys2Proof.Claims
end

section
/-! Construction, one step, one control byte (R15, R22, R23, R38, R45). -/

namespace Sys2Proof.Machine

/-- No pin is written at construction, and the external latches are 0, so no line is high. -/
theorem construct_linesIdle (w : Wiring) : (Transport.construct w).linesIdle = true := by
  cases w with
  | i2c dest bl layout => simp [Transport.construct, Transport.linesIdle]
  | _ => rfl

/-- A replay starts where construction does. -/
theorem construct_blank (w : Wiring) : (Transport.construct w).blank = Transport.construct w := by
  cases w <;> rfl

/-- One byte at the expander, in the state: it replaces `XP`, and the controller latches what the byte
before it held where the enable bit falls (R22, R38). -/
theorem takeByte_i2c (port : I2cPort) (b : Byte) :
    (Transport.i2c port).takeBytes [b]
      = (.i2c { port with xp := b },
          if port.xp.getLsbD port.layout.enBit && !b.getLsbD port.layout.enBit then
            [.nibble (some (port.xp.getLsbD port.layout.rsBit)) (some (port.layout.nibbleOf port.xp))]
          else []) := by
  simp [Transport.takeBytes, I2cPort.takeAll, I2cPort.take]

theorem execI2cCtrl_i2c {s : State} {port : I2cPort} (ht : s.transport = .i2c port) (n : Nibble)
    (bl en rs : Bool) :
    exec (.i2cCtrl n bl en rs) s
      = .next (s.latch ((Transport.i2c port).takeBytes [port.layout.byte n rs bl en])) := by
  simp only [exec, execI2cCtrl, ht]

/-- A control byte has no receiver on the other variants. -/
theorem execI2cCtrl_gpio {s : State} (hv : s.transport.variant ≠ .i2c) (n : Nibble)
    (bl en rs : Bool) : exec (.i2cCtrl n bl en rs) s = .refused .noExpander := by
  cases ht : s.transport with
  | i2c port => rw [ht] at hv; exact absurd rfl hv
  | _ => simp only [exec, execI2cCtrl, ht]

end Sys2Proof.Machine

namespace Sys2Proof.Claims

open Sys2Proof.Machine

/-- Settles O1: the record of construction, on each wiring. -/
theorem constructionLeavesFieldsUnwritten : Obligations.ConstructionLeavesFieldsUnwritten := by
  refine ⟨fun p w bus => ?_, rfl⟩
  refine ⟨rfl, rfl, rfl, rfl, rfl, rfl, rfl, rfl, rfl, rfl, rfl, rfl, ?_, rfl, rfl, rfl, rfl, rfl, rfl,
    rfl, rfl⟩
  cases w with
  | ph => exact ⟨rfl, rfl, rfl⟩
  | pf => exact ⟨rfl, rfl, rfl⟩
  | sr => exact ⟨rfl, rfl, rfl, rfl, rfl⟩
  | i2c dest bl layout => exact ⟨rfl, rfl, rfl⟩

/-- Settles O7: one lemma of `step` for each clause. -/
theorem stepRunsDecodedInstruction : Obligations.StepRunsDecodedInstruction := by
  refine ⟨fun s => step_hung, fun s => step_running, fun s i b ds hs hh hu hd hdec => ?_,
    fun s i b ds port hs hh hu ht hd hdec => ?_, fun s i r hs hw hh hu hd hdec => ?_,
    fun s => step_idle⟩
  · rw [step_device hs hh hu hd]
    simp only [stepDevice, hdec]
  · rw [step_device hs hh hu hd]
    simp only [stepDevice, ht, Transport.layout, hdec]
  · exact step_command hs hw hh hu hd hdec

/-- Settles O28: the byte at the expander, with and without a fall of the enable bit. -/
theorem controlByteAtTheExpander : Obligations.ControlByteAtTheExpander := by
  intro s n bl en rs
  refine ⟨fun port ht => ⟨fun hhigh hlow => ?_, fun hno => ?_⟩, fun hv => execI2cCtrl_gpio hv n bl en rs⟩
  · rw [execI2cCtrl_i2c ht, takeByte_i2c]
    simp only [CtlLayout.byte_en, hhigh, hlow, State.latch, ht]
    rfl
  · have hnone : (port.xp.getLsbD port.layout.enBit && !en) = false := by
      rcases hno with h | h <;> simp [h]
    rw [execI2cCtrl_i2c ht, takeByte_i2c, CtlLayout.byte_en, hnone]
    rfl

/-- Settles O42: power-on knows and has written nothing. -/
theorem constructionMeetsTheInvariants : Obligations.ConstructionMeetsTheInvariants := by
  intro p w bus
  refine ⟨placed_powerOn p, ⟨fun _ => rfl, nofun, nofun⟩, ⟨rfl, fun _ => ⟨rfl, construct_linesIdle w⟩⟩,
    ⟨rfl, fun _ => ?_⟩, ⟨fun _ => ⟨rfl, rfl, rfl, rfl, rfl, rfl, rfl⟩, fun _ => rfl⟩⟩
  show replay (Transport.construct w).blank [] = _
  rw [construct_blank]
  rfl

end Sys2Proof.Claims
end

section
/-! Every step keeps the observer's memories canonical and its addresses in place (R31, R32, R40). -/

namespace Sys2Proof.Machine

open Sys2Proof.Claims

/-- What an event means to the observer: some items, heard on the transport it is. -/
theorem emit_obs (s : State) (ev : Event) :
    ∃ its, (s.emit ev).obs = s.obs.onItems s.params s.transport.variant its := by
  cases ev with
  | i2c d b0 b1 b2 =>
    simp only [State.emit, State.transmit]
    split <;> exact ⟨_, rfl⟩
  | _ => exact ⟨_, rfl⟩

theorem memoriesPlaced_micro {s : State} (m : Micro) (h : MemoriesPlaced s) :
    MemoriesPlaced (s.micro m) := by
  cases m with
  | event ev =>
    obtain ⟨its, hobs⟩ := emit_obs s ev
    obtain ⟨_, _, hparams, _⟩ := emit_frame s ev
    show Observer.Placed (s.emit ev).params (s.emit ev).obs
    rw [hobs, hparams]
    exact placed_onItems _ its h
  | setPhase p => exact placed_onPhase _ p h
  | setFlags d c b => exact h
  | setDisp d => exact h
  | setEntry t d => exact h

theorem memoriesPlaced_run {s : State} (ms : List Micro) (h : MemoriesPlaced s) :
    MemoriesPlaced (s.run ms) :=
  run_induct (fun _ m h => memoriesPlaced_micro m h) (fun _ _ h => h) (fun _ h => h) s ms h

theorem memoriesPlaced_tick {s : State} (h : MemoriesPlaced s) : MemoriesPlaced s.tick :=
  tick_induct (fun _ m h => memoriesPlaced_micro m h) (fun _ _ h => h) (fun _ h => h) s h

theorem memoriesPlaced_exec {i : Instr} {s t : State} (h : MemoriesPlaced s)
    (he : exec i s = .next t) : MemoriesPlaced t := by
  rcases exec_next_cases he with ⟨s0, l, hs, _, _, rfl⟩ | ⟨_, _, rfl⟩ | ⟨_, _, _, rfl⟩ | ⟨_, b, rfl⟩
    | ⟨_, bs, rfl⟩
  · refine memoriesPlaced_run _ ?_
    show Observer.Placed s0.params s0.obs
    rw [scriptOf_params hs, scriptOf_obs hs]
    exact h
  · exact memoriesPlaced_run _ h
  · exact memoriesPlaced_run _ h
  · exact placed_hear _ (fun _ => placed_onInstr _ i) h
  · exact placed_onItems _ _ h

end Sys2Proof.Machine

namespace Sys2Proof.Claims

open Sys2Proof.Machine

/-- Settles O38: every source of a next state keeps the observer placed. -/
theorem stepKeepsMemoriesPlaced : Obligations.StepKeepsMemoriesPlaced := by
  intro s t hs ht
  obtain ⟨_, ⟨_, rfl⟩ | rfl | ⟨_, ds, r, i, he⟩ | ⟨ds, b, rfl⟩⟩ := step_next_sources ht
  · exact memoriesPlaced_tick hs
  · exact hs
  · exact memoriesPlaced_exec (s := { s with devIn := ds, hostIn := r }) hs he
  · exact placed_hear _ (fun o _ => placed_lose s.params o) hs

end Sys2Proof.Claims
end

section
/-! Host commands decode from their encoding in front of any stream (R50 to R52). -/

namespace Sys2Proof

/-- A nibble widened to a byte: its high half is zero, its low half itself (R7). -/
theorem setWidth_halves (n : Nibble) :
    hiNibble (n.setWidth 8) = 0 ∧ loNibble (n.setWidth 8) = n := by
  revert n
  decide

/-- The operand of `SI2CN` reads back: reserved bits zero, the data bit, the nibble (R65 (b), R87). -/
theorem si2cn_operand_fields (d : Bool) (n : Nibble) :
    (bitIf d 0x10 ||| n.setWidth 8).extractLsb' 5 3 = 0
      ∧ (bitIf d 0x10 ||| n.setWidth 8).getLsbD 4 = d
      ∧ loNibble (bitIf d 0x10 ||| n.setWidth 8) = n := by
  revert d n
  decide

theorem takeSnib_encode (n : Nibble) (rest : List Byte) :
    takeSnib (n.setWidth 8 :: rest) = .ok (.snib n) rest := by
  obtain ⟨hhi, hlo⟩ := setWidth_halves n
  rw [takeSnib, if_pos hhi, hlo]

theorem takeSi2cn_encode (d : Bool) (n : Nibble) (rest : List Byte) :
    takeSi2cn ((bitIf d 0x10 ||| n.setWidth 8) :: rest) = .ok (.si2cn d n) rest := by
  obtain ⟨hzero, hd, hn⟩ := si2cn_operand_fields d n
  rw [takeSi2cn, if_pos hzero, hd, hn]

/-- A buffer whose length fits the count byte reads back, and no byte of the rest is taken (R52). -/
theorem takeWbuf_encode {data : List Byte} (rest : List Byte) (h : data.length ≤ 255) :
    takeWbuf (BitVec.ofNat 8 data.length :: (data ++ rest)) = .ok (.wbuf data) rest := by
  have hcount : (BitVec.ofNat 8 data.length).toNat = data.length :=
    Nat.mod_eq_of_lt (by omega)
  rw [takeWbuf, hcount, if_neg (by simp), List.take_left, List.drop_left]

end Sys2Proof

namespace Sys2Proof.Claims

open Sys2Proof.Machine

/-- Settles O3: only `SNIB`, `SI2CN` and `WBUF` check what they read; every other host command takes
its operands as they stand. -/
theorem hostCommandsRoundTrip : Obligations.HostCommandsRoundTrip := by
  intro i rest hf hw
  cases i
  case snib n => exact takeSnib_encode n rest
  case si2cn d n => exact takeSi2cn_encode d n rest
  case wbuf data => exact takeWbuf_encode rest (of_decide_eq_true hw)
  case lcdClear | lcdHome | lcdEntry | lcdDctrl | lcdShift | lcdFset | lcdSetcg | lcdSetdd | i2cCtrl =>
    cases hf
  all_goals rfl

end Sys2Proof.Claims
end

section
/-! What an observer makes of one byte sent by a command (R40, R41), and what a data byte does to
memories and counter (R40 (c), (d)). -/

namespace Sys2Proof.Machine

open Sys2Proof.Claims

/-! ### One byte, as it is heard -/

/-- The observer with one byte of the wire in its history. -/
def Observer.withByte (v : Variant) (level : Bool) (b : Byte) (o : Observer) : Observer :=
  { o with items := o.items ++ byteItems v level b, bytes := o.bytes ++ [⟨some level, some b⟩] }

/-- To an observer in step a byte arrives and is obeyed (R41). -/
theorem arrive_obeyed {p : Params} {v : Variant} {l : Bool} {b : Byte} {o : Observer}
    (hpair : o.pairing = .paired) (hiface : o.iface = .matched) :
    o.arrive p v l b = (o.withByte v l b).obey p v ⟨some l, some b⟩ := by
  rw [arrive_eq hpair]
  exact heed_matched _ hiface

/-- The observer of a state with one byte of its wire in its history. -/
def State.heard (s : State) (level : Bool) (b : Byte) : Observer :=
  s.obs.withByte s.transport.variant level b

/-- A script that sends anything leaves the transport to its events: the backlight commands send
nothing (R126). -/
theorem scriptOf_transport {i : Instr} {s s0 : State} {x : Send} {l : List Send}
    (hs : scriptOf i s = some (s0, x :: l)) : s0.transport = s.transport := by
  obtain ⟨_, _, hkeep, hnone⟩ := scriptOf_writers hs
  cases hb : isBacklightCommand i with
  | true => cases hnone hb
  | false => exact hkeep hb

/-- A served script that sends: the observer takes the items of its bytes (R89). -/
theorem script_items {i : Instr} {s s0 t : State} {x : Send} {l : List Send}
    (hr : ReadyFor (2 * (x :: l).length) s) (hs : scriptOf i s = some (s0, x :: l))
    (he : exec i s = .next t) :
    t.obs = s.obs.onItems s.params s.transport.variant
      (replay s.transport (sendsTrace s.params s.transport (x :: l))).2 := by
  obtain ⟨hu, hh, hp, _, hb⟩ := hr
  have ht0 := scriptOf_transport hs
  have hrun := exec_of_script hu hp hs
  rw [he, run_sends s0 (x :: l) ((scriptOf_hung hs).trans hh)
    ((busServes_congr ht0 (scriptOf_bus hs) _).trans hb)] at hrun
  cases hrun
  simp only [ht0, scriptOf_params hs, scriptOf_obs hs]

/-- A command that sends one byte: the observer takes the items of that byte. -/
theorem one_send_items {i : Instr} {s s0 t : State} {x : Send} (hr : ReadyFor 2 s)
    (hs : scriptOf i s = some (s0, [x])) (he : exec i s = .next t) :
    t.obs = s.obs.onItems s.params s.transport.variant
      (byteItems s.transport.variant x.level x.byte) := by
  have ⟨_, _, _, hl, _⟩ := hr
  have hlatched := replay_sends s.params s.transport [] x hl
  simp only [List.nil_append, List.flatMap_singleton] at hlatched
  rw [script_items hr hs he, hlatched]

/-- An observer between bytes heeds that byte (R41). -/
theorem one_send_heeded {i : Instr} {s s0 t : State} {x : Send} (hr : ReadyFor 2 s)
    (hpair : s.obs.pairing = .paired) (hs : scriptOf i s = some (s0, [x]))
    (he : exec i s = .next t) :
    t.obs = (s.heard x.level x.byte).heed
      (Observer.obey s.params s.transport.variant ⟨some x.level, some x.byte⟩) := by
  rw [one_send_items hr hs he, onItems_byte _ _ _ _ _ hpair, arrive_eq hpair]
  rfl

/-- An observer in step obeys it. -/
theorem one_send_obeyed {i : Instr} {s s0 t : State} {x : Send} (hr : ReadyFor 2 s)
    (hstep : s.inStep = true) (hs : scriptOf i s = some (s0, [x])) (he : exec i s = .next t) :
    t.obs = (s.heard x.level x.byte).obey s.params s.transport.variant
      ⟨some x.level, some x.byte⟩ := by
  obtain ⟨hpair, hiface⟩ := of_decide_eq_true hstep
  rw [one_send_heeded hr hpair hs he]
  exact heed_matched (o := s.heard x.level x.byte) _ hiface

/-! ### A data byte -/

/-- A data byte is written and moves the counter (R40 (c)). -/
theorem obey_data (p : Params) (v : Variant) (b : Byte) (o : Observer) :
    o.obey p v ⟨some p.rsData, some b⟩ = o.onData p b := by
  simp [Observer.obey]

theorem wdata_obs {s t : State} {b : Byte} (hr : ReadyFor 2 s) (hstep : s.inStep = true)
    (he : exec (.wdata b) s = .next t) : t.obs = (s.heard s.params.rsData b).onData s.params b := by
  rw [one_send_obeyed hr hstep rfl he]
  exact obey_data _ _ _ _

/-- With DDRAM and a counter known, the write goes there (R40 (c)). -/
theorem onData_ddram {o : Observer} {a : Nat} (p : Params) (b : Byte)
    (hs : o.space = some .ddram) (ha : o.ac = some a) :
    o.onData p b
      = { o with ddram := o.ddram.write a b, ac := counterAfter p .ddram o.dir a } := by
  simp [Observer.onData, Observer.store, Observer.advance, hs, ha]

theorem onData_cgram {o : Observer} {a : Nat} (p : Params) (b : Byte)
    (hs : o.space = some .cgram) (ha : o.ac = some a) :
    o.onData p b
      = { o with cgram := o.cgram.write a b, ac := counterAfter p .cgram o.dir a } := by
  simp [Observer.onData, Observer.store, Observer.advance, hs, ha]

/-- With the counter unknown, the space it points into is unknown afterwards. -/
theorem onData_noCounter {o : Observer} {sp : Space} (p : Params) (b : Byte)
    (hs : o.space = some sp) (ha : o.ac = none) :
    o.onData p b = match sp with
      | .ddram => { o with ddram := [] }
      | .cgram => { o with cgram := [] } := by
  cases sp <;> simp [Observer.onData, Observer.store, Observer.advance, hs, ha]

/-- With the space unknown, both memories are. -/
theorem onData_noSpace {o : Observer} (p : Params) (b : Byte) (hs : o.space = none) :
    o.onData p b = { o with ddram := [], cgram := [], ac := none } := by
  simp [Observer.onData, Observer.store, Observer.advance, hs]

theorem counterAfter_inc (p : Params) (sp : Space) (a : Nat) :
    counterAfter p sp (some .inc) a = counterAt p sp (a + 1) := rfl

/-- Decrement moves down by one, to unknown below address 0 (R40 (d)). -/
theorem counterAfter_dec (p : Params) (sp : Space) (a : Nat) :
    counterAfter p sp (some .dec) a
      = if 0 < a ∧ addrValid p sp (a - 1) = true then some (a - 1) else none := by
  cases a with
  | zero => rfl
  | succ a => simp [counterAfter, counterAt]

/-- The moves of the counter, one for each direction. -/
theorem counterAfter_moves (p : Params) (sp : Space) (dir : Option EmDir) (a : Nat) :
    (dir = some .inc →
        counterAfter p sp dir a = if addrValid p sp (a + 1) then some (a + 1) else none)
      ∧ (dir = some .dec → counterAfter p sp dir a
          = if 0 < a ∧ addrValid p sp (a - 1) = true then some (a - 1) else none)
      ∧ (dir = none → counterAfter p sp dir a = none) := by
  refine ⟨?_, ?_, ?_⟩
  · rintro rfl; rfl
  · rintro rfl; exact counterAfter_dec p sp a
  · rintro rfl; rfl

end Sys2Proof.Machine

namespace Sys2Proof.Claims

open Sys2Proof.Machine

/-- Settles O30: the byte is heard as data, written at the counter, and the counter moves. -/
theorem dataByteWritesAtTheCounter : Obligations.DataByteWritesAtTheCounter := by
  intro s t b sp a hr hstep hwd hwc hsp hac he
  have hobs := wdata_obs hr hstep he
  have hmoves := counterAfter_moves s.params sp s.obs.dir a
  cases sp with
  | ddram =>
    rw [onData_ddram (o := s.heard _ b) _ _ hsp hac] at hobs
    rw [hobs]
    exact ⟨hsp, fun _ => ⟨Memory.read_write_same _ _ _ hwd, rfl,
      fun c hc => Memory.read_write_other _ _ _ _ hc⟩, nofun, hmoves⟩
  | cgram =>
    rw [onData_cgram (o := s.heard _ b) _ _ hsp hac] at hobs
    rw [hobs]
    exact ⟨hsp, nofun, fun _ => ⟨Memory.read_write_same _ _ _ hwc, rfl,
      fun c hc => Memory.read_write_other _ _ _ _ hc⟩, hmoves⟩

/-- Settles O51: what the write may have hit is forgotten, and the counter stays unknown. -/
theorem dataByteToAnUnknownPlace : Obligations.DataByteToAnUnknownPlace := by
  intro s t b hr hstep he
  have hobs := wdata_obs hr hstep he
  refine ⟨fun sp hsp hac => ?_, fun hsp => ?_⟩
  · rw [hobs, onData_noCounter (o := s.heard _ b) _ _ hsp hac]
    cases sp with
    | ddram => exact ⟨hsp, hac, fun _ => ⟨rfl, rfl⟩, nofun⟩
    | cgram => exact ⟨hsp, hac, nofun, fun _ => ⟨rfl, rfl⟩⟩
  · rw [hobs, onData_noSpace (o := s.heard _ b) _ _ hsp]
    exact ⟨hsp, rfl, rfl, rfl⟩

/-- Settles O52: with the width unknown the byte is recorded and everything else forgotten. -/
theorem unknownWidthLearnsNothing : Obligations.UnknownWidthLearnsNothing := by
  intro s t b hr hpair hiface blind
  have hblind {i : Instr} {s0 : State} {x : Send} (hs : scriptOf i s = some (s0, [x]))
      (hx : x.byte = b) (he : exec i s = .next t) : blind x.level := by
    have hforget : t.obs = (s.heard x.level x.byte).forget :=
      (one_send_heeded hr hpair hs he).trans (if_pos hiface)
    simp only [blind, hforget, ← hx]
    exact ⟨rfl, hiface, rfl, rfl, rfl, rfl, rfl⟩
  exact ⟨fun he => hblind rfl rfl he, fun he => hblind rfl rfl he⟩

end Sys2Proof.Claims
end

section
/-! The rows `LCD.*` at the controller, and an instruction byte of the wire as its row (R40, R53). -/

namespace Sys2Proof.Machine

open Sys2Proof.Claims

/-! ### What a row is at the controller -/

/-- The byte a row of the opcode table stands for under the parameters of an adapter (R53). -/
def rowByte (p : Params) : Instr → Byte
  | .lcdClear => encClear p
  | .lcdHome => encHome p
  | .lcdEntry x y => p.opEntry ||| bitIf x p.emId ||| bitIf y p.emS
  | .lcdDctrl d c b => encDctrl p d c b
  | .lcdShift x y => p.opShift ||| bitIf x p.shSc ||| bitIf y p.shRl
  | .lcdFset l n f => encFset p l n f
  | .lcdSetcg a => encCgram p (a.setWidth 8)
  | .lcdSetdd a => encDdram p (a.setWidth 8)
  | _ => 0

/-- A row completes as the arrival of its byte. -/
theorem exec_row {i : Instr} (s : State) (hf : i.format = .lcdi) :
    exec i s = .next (s.receive (rowByte s.params i)
      fun o => o.onInstr s.params s.transport.variant i) := by
  cases i <;> first | rfl | cases hf

/-- At the default parameters a byte is the byte of the row it decodes to (R53). -/
theorem rowByte_decode {b : Byte} {i : Instr} (h : decodeLcdiFor Params.default b = some i) :
    rowByte Params.default i = b := by
  have hall : ∀ b : Byte, (decodeLcdiFor Params.default b).all
      (fun i => rowByte Params.default i == b) = true := by decide
  have hb := hall b
  rw [h] at hb
  exact eq_of_beq hb

/-- How a byte at the controller is heard, by the three ways it can arrive (R41). -/
theorem receive_eq (s : State) (b : Byte) (act : Observer → Observer) :
    s.receive b act = { s with obs := afterArrival s b act } := by
  have hobs : s.obs.hear ⟨some (rsLevel s.params false), some b⟩ act = afterArrival s b act := by
    rcases hear_cases ⟨some (rsLevel s.params false), some b⟩ act s.obs with
      ⟨left, half, heard, hp, e⟩ | ⟨hp, e⟩ <;> rw [e, afterArrival]
    · rw [hp]
      rfl
    · split
      · rename_i h
        exact absurd h (hp _ _ _)
      · rfl
  rw [State.receive, hobs]

/-- To an observer in step the byte acts at once. -/
theorem receive_inStep {s : State} (hstep : s.inStep = true) (b : Byte) (act : Observer → Observer) :
    (s.receive b act).obs = act (recorded s b) := by
  obtain ⟨hpair, hiface⟩ := of_decide_eq_true hstep
  rw [State.receive_obs, hear_free (by simp [hpair])]
  exact heed_matched (o := recorded s b) _ hiface

/-- A row arrives with the effect it has on the observer. -/
theorem arrives_row {i : Instr} {s : State} {b : Byte} {act : Observer → Observer}
    (hf : i.format = .lcdi) (hb : rowByte s.params i = b)
    (hact : (fun o => o.onInstr s.params s.transport.variant i) = act) : Arrives i s b act := by
  rw [Arrives, exec_row s hf, receive_eq, hb, hact]

/-! ### The row on the wire -/

/-- An instruction acts alike whatever the history is, and leaves it. -/
theorem onInstr_withHistory (p : Params) (v : Variant) (o : Observer) (i : Instr) (its : List Item)
    (bs : List LogicalByte) :
    Observer.onInstr p v { o with items := its, bytes := bs } i
      = { o.onInstr p v i with items := its, bytes := bs } := by
  cases i
  case lcdClear | lcdHome =>
    simp only [Observer.onInstr, Observer.onClear, Observer.onHome]
    split <;> rfl
  case lcdShift => simp only [Observer.onInstr, Observer.onShift]; split <;> rfl
  case lcdFset =>
    simp only [Observer.onInstr, Observer.onFset]
    split
    · rfl
    · split <;> rfl
  all_goals rfl

/-- An observer in step takes an instruction byte of a class as its row (R40, R41). -/
theorem instruction_obs {i j : Instr} {s s0 t : State} {b : Byte} (hr : ReadyFor 2 s)
    (hstep : s.inStep = true) (hs : scriptOf i s = some (s0, [instrSend s.params b]))
    (hj : decodeLcdiFor s.params b = some j) (he : exec i s = .next t) :
    t.obs = (s.heard (instrLevel s.params) b).onInstr s.params s.transport.variant j := by
  rw [one_send_obeyed hr hstep hs he]
  exact obey_instr hj

end Sys2Proof.Machine

namespace Sys2Proof.Claims

open Sys2Proof.Machine

/-- Settles O27: each row is the arrival of its byte, with the effect `onInstr` gives it. -/
theorem instructionBytesAtTheController : Obligations.InstructionBytesAtTheController := by
  intro s p cleared
  refine ⟨?_, ?_, fun x y => ?_, fun x y z => ?_, fun y => ?_, fun y => ?_, fun l n f => ?_,
    fun a => ?_, fun a => ?_⟩
  · exact arrives_row rfl rfl rfl
  · exact arrives_row rfl rfl rfl
  · exact arrives_row rfl rfl rfl
  · exact arrives_row rfl rfl rfl
  · exact arrives_row rfl rfl rfl
  · exact arrives_row rfl (by simp [rowByte, bitIf, p]) rfl
  · refine arrives_row rfl rfl (funext fun o => ?_)
    simp only [Observer.onInstr, Observer.onFset]
    cases n <;> cases f <;> rfl
  · exact arrives_row rfl rfl rfl
  · exact arrives_row rfl rfl rfl

/-- Settles O55: the wire and the row give the observer one instruction; the history apart, which an
instruction leaves. -/
theorem wireBytesActAsTheirRow : Obligations.WireBytesActAsTheirRow := by
  intro s b t hr hstep he its bs
  refine ⟨fun i hi => ?_, fun hnone => ?_⟩
  · refine ⟨_, exec_row s (decodeLcdiFor_format hi), ?_, fun hdef => ?_⟩ <;>
      rw [receive_inStep hstep]
    · rw [instruction_obs hr hstep rfl hi he]
      exact onInstr_withHistory _ _ (recorded s (rowByte s.params i)) i its bs
    · obtain ⟨_, hbytes, _⟩ :=
        onInstr_history s.params s.transport.variant (recorded s (rowByte s.params i)) i
      rw [hdef] at hi
      rw [hbytes, hdef, rowByte_decode hi]
      rfl
  · rw [one_send_obeyed hr hstep rfl he]
    exact obey_noClass hnone

end Sys2Proof.Claims
end

section
/-! What the display commands do to an observer in step, at the default parameters (R112 to R120). -/

namespace Sys2Proof.Machine

open Sys2Proof.Claims

/-! ### The rows of the bytes that the commands send -/

theorem decode_encDctrl (d c b : Bool) :
    decodeLcdiFor Params.default (encDctrl Params.default d c b) = some (.lcdDctrl d c b) := by
  revert d c b
  decide

theorem decode_encEntry (t : EmTarget) (m : EmDir) :
    decodeLcdiFor Params.default (encEntry Params.default t m)
      = some (.lcdEntry (decide (m = .inc)) (decide (t = .display))) := by
  cases t <;> cases m <;> decide

theorem decode_encShift (w : ShiftWhat) (d : ShiftSide) :
    decodeLcdiFor Params.default (encShift Params.default w d)
      = some (.lcdShift (decide (w = .display)) (decide (d = .right))) := by
  cases w <;> cases d <;> decide

theorem decode_encClear : decodeLcdiFor Params.default (encClear Params.default) = some .lcdClear := by
  decide

theorem decode_encHome : decodeLcdiFor Params.default (encHome Params.default) = some .lcdHome := by
  decide

theorem decode_encDdram (x : Byte) :
    decodeLcdiFor Params.default (encDdram Params.default x)
      = some (.lcdSetdd (x.extractLsb' 0 7)) := by
  revert x
  decide

/-- Bit 7 clear is what R63 (b) asks of a CGRAM address: with bit 7 set the byte is a set-DDRAM. -/
theorem decode_encCgram {x : Byte} (h : x.toNat < 64) :
    decodeLcdiFor Params.default (encCgram Params.default x)
      = some (.lcdSetcg (x.extractLsb' 0 6)) := by
  revert x
  decide

/-! ### The commands -/

/-- A display-flag command sends one display-control instruction (R103 to R111). -/
theorem flag_script {i : Instr} {s s0 : State} {l : List Send} (hi : isFlagCommand i = true)
    (hs : scriptOf i s = some (s0, l)) :
    ∃ d c b, l = [instrSend s.params (encDctrl s.params d c b)] := by
  have hdctrl {s1 : State} (h : (dctrlSend s1).map (fun l => (s1, l)) = some (s0, l))
      (hp : s1.params = s.params) :
      ∃ d c b, l = [instrSend s.params (encDctrl s.params d c b)] := by
    obtain ⟨l', hl, heq⟩ := Option.map_eq_some_iff.1 h
    cases heq
    obtain ⟨d, c, b, _, _, _, rfl⟩ := dctrlSend_some hl
    exact ⟨d, c, b, by rw [hp]⟩
  cases i
  case dispon | dispoff | disptgl | curon | curoff | curtgl | blnkon | blnkoff | blnktgl =>
    exact hdctrl hs rfl
  all_goals cases hi

/-- The observer, one byte of the wire later, has obeyed the row j of the opcode table. -/
def ObeysRow (s t : State) (j : Instr) : Prop :=
  ∃ b, t.obs = (s.heard (instrLevel s.params) b).onInstr s.params s.transport.variant j

section

variable {i : Instr} {s t : State}

/-- A command whose script is one byte of a row makes it obey that row. -/
theorem obeysRow_of_script {j : Instr} {s0 : State} {b : Byte} (hr : ReadyFor 2 s)
    (hstep : s.inStep = true) (he : exec i s = .next t)
    (hs : scriptOf i s = some (s0, [instrSend s.params b]))
    (hj : decodeLcdiFor s.params b = some j) : ObeysRow s t j :=
  ⟨b, instruction_obs hr hstep hs hj he⟩

variable (hr : ReadyFor 2 s) (hstep : s.inStep = true) (he : exec i s = .next t)
  (hp : s.params = Params.default)
include hr hstep he hp

theorem flag_obeysRow (hi : isFlagCommand i = true) : ∃ d c b, ObeysRow s t (.lcdDctrl d c b) := by
  have hn : needsReady i = true := by cases i <;> first | rfl | cases hi
  obtain ⟨_, _, s0, l, hs, _⟩ := exec_script hn he
  obtain ⟨d, c, b, rfl⟩ := flag_script hi hs
  exact ⟨d, c, b, obeysRow_of_script hr hstep he hs (hp ▸ decode_encDctrl d c b)⟩

theorem shift_obeysRow {w : ShiftWhat} {d : ShiftSide}
    (hs : scriptOf i s = some (s, [instrSend s.params (encShift s.params w d)])) :
    ObeysRow s t (.lcdShift (decide (w = .display)) (decide (d = .right))) :=
  obeysRow_of_script hr hstep he hs (hp ▸ decode_encShift w d)

theorem entry_obeysRow {s0 : State} {m : EmTarget} {d : EmDir}
    (hs : scriptOf i s = some (s0, [instrSend s.params (encEntry s.params m d)])) :
    ObeysRow s t (.lcdEntry (decide (d = .inc)) (decide (m = .display))) :=
  obeysRow_of_script hr hstep he hs (hp ▸ decode_encEntry m d)

theorem wipe_obeysRow (hi : i = .clear ∨ i = .home) :
    ObeysRow s t .lcdClear ∨ ObeysRow s t .lcdHome := by
  rcases hi with rfl | rfl
  · exact .inl (obeysRow_of_script hr hstep he rfl (hp ▸ decode_encClear))
  · exact .inr (obeysRow_of_script hr hstep he rfl (hp ▸ decode_encHome))

end

/-- In range, the address is row base plus column, and has a place (R31, R120). -/
theorem cursorAddr_inRange {row col : Byte} (hrow : row.toNat ≤ 1) (hcol : col.toNat ≤ 39) :
    ((cursorAddr Params.default row col).extractLsb' 0 7).toNat = 0x40 * row.toNat + col.toNat
      ∧ ddramValid Params.default (0x40 * row.toNat + col.toNat) = true := by
  have hcases : row = 0 ∨ row = 1 := by
    have hle : row.toNat = 0 ∨ row.toNat = 1 := by omega
    exact hle.imp (fun h => BitVec.eq_of_toNat_eq h) (fun h => BitVec.eq_of_toNat_eq h)
  rcases hcases with rfl | rfl <;> revert col <;> decide

end Sys2Proof.Machine

namespace Sys2Proof.Claims

open Sys2Proof.Machine

/-- Settles O31: the byte sent is a set-DDRAM-address whose address has a place. -/
theorem setcurPointsTheCounter : Obligations.SetcurPointsTheCounter := by
  intro s t row col hr hp hstep hrow hcol he
  obtain ⟨b, hobs⟩ := obeysRow_of_script hr hstep he rfl (hp ▸ decode_encDdram _)
  obtain ⟨haddr, hplace⟩ := cursorAddr_inRange hrow hcol
  rw [hobs, hp]
  refine ⟨rfl, ?_⟩
  simp only [Observer.onInstr, Observer.onSetdd, haddr]
  exact if_pos hplace

/-- Settles O56: one row of the opcode table for each clause. -/
theorem commandsActOnTheObserver : Obligations.CommandsActOnTheObserver := by
  intro i s t hr hp hstep he counter turned
  obtain ⟨_, hiface⟩ := of_decide_eq_true hstep
  have hturned {s0 : State} {m : EmTarget} (d : EmDir)
      (hs : scriptOf i s = some (s0, [instrSend s.params (encEntry s.params m d)])) : turned d := by
    obtain ⟨b, hobs⟩ := entry_obeysRow hr hstep he hp hs
    simp only [turned, counter, hobs]
    cases d <;> exact ⟨rfl, ⟨rfl, rfl⟩, hiface⟩
  have hstill {j : Instr} (h : ObeysRow s t j)
      (hj : ∀ o : Observer, o.onInstr s.params s.transport.variant j = o) :
      counter ∧ t.obs.dir = s.obs.dir ∧ t.obs.iface = .matched := by
    obtain ⟨b, hobs⟩ := h
    simp only [counter, hobs, hj]
    exact ⟨⟨rfl, rfl⟩, rfl, hiface⟩
  refine ⟨?_, ?_, ?_, ?_, fun h => ?_, ?_⟩
  · rintro (rfl | rfl) <;> exact hturned .inc rfl
  · rintro (rfl | rfl) <;> exact hturned .dec rfl
  · rintro (rfl | rfl) <;>
    · obtain ⟨b, hobs⟩ := shift_obeysRow (w := .cursor) hr hstep he hp rfl
      rw [hobs]
      exact ⟨rfl, rfl, rfl, hiface⟩
  · rintro (rfl | rfl | hi)
    · exact hstill (shift_obeysRow (w := .display) hr hstep he hp rfl) fun _ => rfl
    · exact hstill (shift_obeysRow (w := .display) hr hstep he hp rfl) fun _ => rfl
    · obtain ⟨d, c, b, h⟩ := flag_obeysRow hr hstep he hp hi
      exact hstill h fun _ => rfl
  · rcases wipe_obeysRow hr hstep he hp h with ⟨b, hobs⟩ | ⟨b, hobs⟩ <;> rw [hobs, hp] <;>
      exact ⟨rfl, rfl, rfl, hiface⟩
  · rintro l n f ⟨b, rfl, hdec⟩ hwidth
    obtain ⟨_, hobs⟩ := obeysRow_of_script (j := .lcdFset l n f) hr hstep he rfl (hp ▸ hdec)
    simp only [hobs, Observer.onInstr, Observer.onFset, if_pos hwidth]
    exact ⟨rfl, rfl, rfl, rfl⟩

end Sys2Proof.Claims
end

section
/-! `MKCHAR` in CGRAM (R32, R40, R121): eight data bytes from an address on fill the cells from there,
and leave the counter behind them. -/

namespace Sys2Proof.Machine

open Sys2Proof.Claims

/-! ### Consecutive writes -/

/-- Bytes written one after another from an address on. -/
def Memory.fill (m : Memory) (a : Nat) : List Byte → Memory
  | [] => m
  | g :: gs => Memory.fill (m.write a g) (a + 1) gs

theorem Memory.read_fill_outside (gs : List Byte) (m : Memory) {a c : Nat}
    (h : c < a ∨ a + gs.length ≤ c) : (m.fill a gs).read c = m.read c := by
  induction gs generalizing m a with
  | nil => rfl
  | cons g gs ih =>
    rw [List.length_cons] at h
    rw [Memory.fill, ih _ (by omega), Memory.read_write_other _ _ _ _ (by omega)]

theorem Memory.read_fill_inside (gs : List Byte) {m : Memory} (hm : m.wf) (a : Nat) {j : Nat}
    (hj : j < gs.length) : (m.fill a gs).read (a + j) = gs[j]? := by
  induction gs generalizing m a j with
  | nil => cases hj
  | cons g gs ih =>
    cases j with
    | zero =>
      rw [Memory.fill, Memory.read_fill_outside _ _ (by omega)]
      exact Memory.read_write_same _ _ _ hm
    | succ j =>
      have hnext : a + (j + 1) = a + 1 + j := by omega
      rw [Memory.fill, hnext,
        ih (Memory.write_wf _ _ _ hm) (a + 1) (Nat.lt_of_succ_lt_succ hj)]
      rfl

/-! ### Data bytes in CGRAM, upwards -/

/-- An observer in step points into CGRAM at an address, upwards; where the address has no place, its
counter is unknown. -/
def Observer.InCgramAt (p : Params) (o : Observer) (a : Nat) : Prop :=
  o.pairing = .paired ∧ o.iface = .matched ∧ o.space = some .cgram ∧ o.dir = some .inc
    ∧ o.ac = counterAt p .cgram a

/-- One data byte. -/
theorem arrive_data_cgram {p : Params} {o : Observer} {a : Nat} (v : Variant) (g : Byte)
    (h : o.InCgramAt p a) (ha : cgramValid p a = true) :
    (o.arrive p v p.rsData g).InCgramAt p (a + 1)
      ∧ (o.arrive p v p.rsData g).cgram = o.cgram.write a g
      ∧ (o.arrive p v p.rsData g).ddram = o.ddram := by
  obtain ⟨hpair, hiface, hsp, hdir, hac⟩ := h
  have hknown : o.ac = some a := hac.trans (if_pos ha)
  have hnext : counterAfter p .cgram o.dir a = counterAt p .cgram (a + 1) := by
    rw [hdir, counterAfter_inc]
  rw [arrive_obeyed hpair hiface, obey_data,
    onData_cgram (o := o.withByte v p.rsData g) _ _ hsp hknown]
  exact ⟨⟨hpair, hiface, hsp, hdir, hnext⟩, rfl, rfl⟩

/-- Data bytes one after another, all of them at addresses with a place. -/
theorem foldl_data_cgram {p : Params} (v : Variant) (gs : List Byte) {o : Observer} {a : Nat}
    (h : o.InCgramAt p a) (ha : ∀ j, j < gs.length → cgramValid p (a + j) = true) :
    (gs.foldl (fun o g => o.arrive p v p.rsData g) o).InCgramAt p (a + gs.length)
      ∧ (gs.foldl (fun o g => o.arrive p v p.rsData g) o).cgram = o.cgram.fill a gs
      ∧ (gs.foldl (fun o g => o.arrive p v p.rsData g) o).ddram = o.ddram := by
  induction gs generalizing o a with
  | nil => exact ⟨h, rfl, rfl⟩
  | cons g gs ih =>
    obtain ⟨hat, hcg, hdd⟩ := arrive_data_cgram v g h (ha 0 (Nat.succ_pos _))
    obtain ⟨hat', hcg', hdd'⟩ := ih hat fun j hj => by
      have := ha (j + 1) (Nat.succ_lt_succ hj)
      rwa [Nat.add_right_comm]
    rw [List.length_cons, List.foldl_cons, Memory.fill, ← hcg, ← hdd, ← Nat.add_assoc,
      Nat.add_right_comm]
    exact ⟨hat', hcg', hdd'⟩

/-- A set-CGRAM-address instruction, before it. -/
theorem arrive_setcg {p : Params} {v : Variant} {o : Observer} {b : Byte} {a : BitVec 6}
    (hpair : o.pairing = .paired) (hiface : o.iface = .matched) (hdir : o.dir = some .inc)
    (hb : decodeLcdiFor p b = some (.lcdSetcg a)) :
    (o.arrive p v (instrLevel p) b).InCgramAt p a.toNat
      ∧ (o.arrive p v (instrLevel p) b).cgram = o.cgram
      ∧ (o.arrive p v (instrLevel p) b).ddram = o.ddram := by
  rw [arrive_instr hpair hiface hb]
  exact ⟨⟨hpair, hiface, rfl, hdir, rfl⟩, rfl, rfl⟩

/-! ### The command -/

/-- A slot below 8 is at eight times its number, inside CGRAM (R32, R60). -/
theorem glyphAddr_inRange {slot : Byte} (h : slot.toNat < 8) :
    (glyphAddr Params.default slot).toNat < 64
      ∧ ((glyphAddr Params.default slot).extractLsb' 0 6).toNat = 8 * slot.toNat := by
  revert slot
  decide

theorem cgramValid_default (a : Nat) : cgramValid Params.default a = decide (a < 64) := rfl

/-- The observer after `MKCHAR`: its eight data bytes, heard after the set-CGRAM-address. -/
theorem mkchar_obs {s t : State} {slot g0 g1 g2 g3 g4 g5 g6 g7 : Byte} (hr : ReadyFor 18 s)
    (hp : s.params = Params.default) (hstep : s.inStep = true) (hdir : s.obs.dir = some .inc)
    (hslot : slot.toNat < 8) (he : exec (.mkchar slot g0 g1 g2 g3 g4 g5 g6 g7) s = .next t) :
    t.obs.InCgramAt Params.default (8 * slot.toNat + 8)
      ∧ t.obs.cgram = s.obs.cgram.fill (8 * slot.toNat) [g0, g1, g2, g3, g4, g5, g6, g7]
      ∧ t.obs.ddram = s.obs.ddram := by
  have ⟨_, _, _, hl, _⟩ := hr
  obtain ⟨hpair, hiface⟩ := of_decide_eq_true hstep
  obtain ⟨hlt, haddr⟩ := glyphAddr_inRange hslot
  have hfold := script_items hr rfl he
  rw [onItems_sends _ _ _ _ hl hpair, hp, List.foldl_cons, List.foldl_map] at hfold
  obtain ⟨hat, hcg0, hdd0⟩ :=
    arrive_setcg (v := s.transport.variant) hpair hiface hdir (decode_encCgram hlt)
  rw [haddr] at hat
  obtain ⟨hend, hcg, hdd⟩ := foldl_data_cgram s.transport.variant
    [g0, g1, g2, g3, g4, g5, g6, g7] hat fun j (hj : j < 8) => by
      rw [cgramValid_default, decide_eq_true_iff]; omega
  rw [hcg0] at hcg
  rw [hfold]
  exact ⟨hend, hcg, hdd.trans hdd0⟩

end Sys2Proof.Machine

namespace Sys2Proof.Claims

open Sys2Proof.Machine

/-- Settles O33: the glyph is one fill of CGRAM from the slot's address. -/
theorem mkcharLeavesCounterInCgram : Obligations.MkcharLeavesCounterInCgram := by
  intro s t slot g0 g1 g2 g3 g4 g5 g6 g7 hr hp hstep hwf hdir hslot he
  obtain ⟨⟨_, _, hsp, _, hac⟩, hcg, hdd⟩ := mkchar_obs hr hp hstep hdir hslot he
  refine ⟨hsp, ?_, fun j hj => ?_, fun a ha => ?_, hdd⟩
  · have hplace : 8 * slot.toNat + 8 < 64 ↔ slot.toNat < 7 := by omega
    simp only [hac, counterAt, addrValid, cgramValid_default, decide_eq_true_iff, hplace]
  · rw [hcg]
    exact Memory.read_fill_inside _ hwf _ hj
  · rw [hcg]
    exact Memory.read_fill_outside _ _ ha

end Sys2Proof.Claims
end

section
/-! A lone nibble on a 4-bit transport, and every byte behind it (R36 (b), R41, R167). -/

namespace Sys2Proof.Machine

open Sys2Proof.Claims

/-- A transport primitive is a host command of layer T (R51). -/
theorem primitive_layer {i : Instr} {v : Variant} (hi : primitiveOf i = some v) :
    i.format = .hc ∧ needsReady i = false ∧ i ≠ .init := by
  cases i
  case snib | sbyte | sshb | si2cn => exact ⟨rfl, rfl, nofun⟩
  all_goals cases hi

/-- A primitive that completes runs its events on its own variant (R83). -/
theorem primitive_next {i : Instr} {s t : State} {v : Variant} (hi : primitiveOf i = some v)
    (he : exec i s = .next t) :
    s.transport.variant = v ∧ t = s.run ((primTrace i s).map .event) := by
  obtain ⟨hf, hn, hne⟩ := primitive_layer hi
  rcases exec_next_cases he with ⟨s0, l, hs, _⟩ | ⟨hv, _, hrun⟩ | ⟨hinit, _⟩ | ⟨hl, _⟩ | ⟨hc, _⟩
  · rw [needsReady_of_script hs] at hn; cases hn
  · exact ⟨Option.some.inj (hv.symm.trans hi), hrun⟩
  · exact absurd hinit hne
  · rw [hf] at hl; cases hl
  · rw [hf] at hc; cases hc

/-- A nibble between bytes is held as a high half. -/
theorem onItems_lone_nibble {o : Observer} (p : Params) (v : Variant) (rs : Option Bool)
    (n : Option Nibble) (h : o.pairing = .paired) :
    o.onItems p v [.nibble rs n]
      = { o with items := o.items ++ [.nibble rs n], pairing := .half rs n } := by
  simp [Observer.onItems, Observer.onItem, Observer.takeItem, h]

/-- Nothing is heard yet. -/
theorem lone_nibble_held {o : Observer} (p : Params) (v : Variant) (rs : Option Bool)
    (n : Option Nibble) (h : o.pairing = .paired) :
    (o.onItems p v [.nibble rs n]).pairing = .half rs n
      ∧ (o.onItems p v [.nibble rs n]).bytes = o.bytes := by
  rw [onItems_lone_nibble p v rs n h]
  exact ⟨rfl, rfl⟩

/-- A logical byte leaves an observer between bytes where it is. -/
theorem onByte_paired {o : Observer} (p : Params) (v : Variant) (b : LogicalByte)
    (h : o.pairing = .paired) : (o.onByte p v b).pairing = .paired := by
  obtain ⟨_, _, hpair⟩ := heed_obey_history p v b { o with bytes := o.bytes ++ [b] }
  rw [Observer.onByte, hear_free (by simp [h]), hpair, h]

theorem pairRs_some (rs : Option Bool) (l : Bool) :
    pairRs rs (some l) = if rs = some l then rs else none := rfl

theorem pairValue_some (hi : Option Nibble) (lo : Nibble) :
    pairValue hi (some lo) = hi.map fun h => joinNibbles h lo := by cases hi <;> rfl

/-- A byte behind a held half: its high half completes one logical byte, its low half is held. -/
theorem onItems_shifted {o : Observer} {v : Variant} {rs : Option Bool} {hi : Option Nibble}
    (p : Params) (l : Bool) (b : Byte) (h4 : v.isFour = true) (h : o.pairing = .half rs hi) :
    (o.onItems p v (byteItems v l b)).pairing = .half (some l) (some (loNibble b))
      ∧ (o.onItems p v (byteItems v l b)).bytes = o.bytes
          ++ [⟨if rs = some l then rs else none, hi.map fun h => joinNibbles h (hiNibble b)⟩] := by
  have hfirst : o.onItems p v [.nibble (some l) (some (hiNibble b))]
      = Observer.onByte p v ⟨pairRs rs (some l), pairValue hi (some (hiNibble b))⟩
        { o with
          items := o.items ++ [.nibble (some l) (some (hiNibble b))], pairing := .paired } := by
    simp only [Observer.onItems, List.foldl, Observer.onItem, Observer.takeItem, h]
  have hitems : byteItems v l b = [.nibble (some l) (some (hiNibble b))]
      ++ [.nibble (some l) (some (loNibble b))] := if_pos h4
  rw [hitems, onItems_append, hfirst, onItems_lone_nibble _ _ _ _ (onByte_paired _ _ _ rfl)]
  obtain ⟨_, hbytes⟩ := onByte_history p v ⟨pairRs rs (some l), pairValue hi (some (hiNibble b))⟩
    { o with items := o.items ++ [.nibble (some l) (some (hiNibble b))], pairing := .paired }
  exact ⟨rfl, by rw [hbytes, pairRs_some, pairValue_some]⟩

end Sys2Proof.Machine

namespace Sys2Proof.Claims

open Sys2Proof.Machine

/-- Settles O53: the primitive latches one nibble, and a byte behind it is two nibbles. -/
theorem loneNibbleShiftsThePairing : Obligations.LoneNibbleShiftsThePairing := by
  refine ⟨fun s q n t ht hl hh hpair he => ?_, fun s d n t hl hh hpair he hnot => ?_,
    fun s rs hi b t hr h4 hpair => ?_⟩
  · obtain ⟨_, rfl⟩ := primitive_next rfl he
    have hlow : q.e ≠ some true := by simpa [ht, Transport.linesIdle] using hl
    have hlatched : (replay s.transport (primTrace (.snib n) s)).2 = [.nibble q.rs (some n)] := by
      simp [ht, primTrace, replay, Transport.take, hlow]
    rw [run_events _ s hh (by simp [primTrace, Event.transmits]), hlatched]
    exact lone_nibble_held _ _ _ _ hpair
  · obtain ⟨hv, rfl⟩ := primitive_next rfl he
    cases ht : s.transport with
    | i2c port =>
      have hlow : port.xp.getLsbD port.layout.enBit = false := by
        simpa [ht, Transport.linesIdle] using hl
      have hlatched : (replay s.transport (primTrace (.si2cn d n) s)).2
          = [.nibble (some (rsLevel s.params d)) (some n)] := by
        simp [ht, primTrace, replay_frame _ _ _ hlow, replay]
      rw [run_ok _ s hh hnot, hlatched]
      exact lone_nibble_held _ _ _ _ hpair
    | _ => rw [ht] at hv; cases hv
  · intro shifted
    have hshift {i : Instr} {s0 : State} {x : Send} (hs : scriptOf i s = some (s0, [x]))
        (hx : x.byte = b) (he : exec i s = .next t) : shifted x.level := by
      simp only [shifted, one_send_items hr hs he, hx]
      exact onItems_shifted _ _ _ h4 hpair
    exact ⟨fun he => hshift rfl rfl he, fun he => hshift rfl rfl he⟩

end Sys2Proof.Claims
end

section
/-! One list of sends after another: `WBUF` as its `WDATA` commands (R97). -/

namespace Sys2Proof.Machine

open Sys2Proof.Claims

/-- What the platform serves is a matter of its engine alone, on the variant that transmits (R81). -/
theorem busServes_iff {s : State} {k : Nat} :
    s.busServes k = true ↔ (s.transport.variant = .i2c → ∀ n, s.bus = some n → k ≤ n) := by
  unfold State.busServes
  cases s.transport <;> cases s.bus <;> simp [Transport.variant]

theorem busServes_mono {s : State} {m n : Nat} (hmn : m ≤ n) (h : s.busServes n = true) :
    s.busServes m = true :=
  busServes_iff.2 fun hv k hk => hmn.trans (busServes_iff.1 h hv k hk)

/-- A platform that serves m + n transmits serves n more after m. -/
theorem busServes_after {s u : State} {m n : Nat} (hv : u.transport.variant = s.transport.variant)
    (hb : u.bus = busAfter s.transport s.bus m) (h : s.busServes (m + n) = true) :
    u.busServes n = true := by
  refine busServes_iff.2 fun hi2c k hk => ?_
  rw [hv] at hi2c
  rw [hb, ← bus_map_eq s.transport s.bus m m (by rw [if_pos hi2c])] at hk
  obtain ⟨k', hk', rfl⟩ := Option.map_eq_some_iff.1 hk
  have := busServes_iff.1 h hi2c k' hk'
  omega

/-- What is sent next does not depend on what ran before. -/
theorem sendsTrace_run (s : State) (ms : List Micro) (l : List Send) :
    sendsTrace (s.run ms).params (s.run ms).transport l = sendsTrace s.params s.transport l := by
  obtain ⟨hp, hv, hd, hy, hbl, _⟩ := run_sameDevice s ms
  rw [hp]
  exact sendsTrace_congr l fun x b => byteTrace_congr hv hd hy hbl s.params x b

/-- Sends that the platform serves leave the adapter ready for what it serves after them. -/
theorem readyFor_run_sends {s : State} {l : List Send} {n : Nat}
    (h : ReadyFor (2 * l.length + n) s) :
    ReadyFor n (s.run ((sendsTrace s.params s.transport l).map .event)) := by
  obtain ⟨_, hh, hp, hl, hb⟩ := h
  rw [run_sends s l hh (busServes_mono (Nat.le_add_right _ _) hb)]
  exact ⟨rfl, hh, hp, replay_sends_idle _ _ _ hl, busServes_after (replay_variant _ _) rfl hb⟩

/-- Two lists of events that the platform serves, in one command or in two. -/
theorem run_events_append (a b : List Event) {s : State} (h : s.hung = false)
    (hb : ∀ n, s.bus = some n → transmitsIn (a ++ b) ≤ n) :
    s.run ((a ++ b).map .event) = (s.run (a.map .event)).run (b.map .event) := by
  have hsum := transmitsIn_append a b
  have hfirst := run_events a s h fun n hn => by have := hb n hn; omega
  have hsecond := run_events b (s.run (a.map .event)) (by rw [hfirst]; exact h) fun n hn => by
    rw [hfirst] at hn
    obtain ⟨k, hk, rfl⟩ := Option.map_eq_some_iff.1 hn
    have := hb k hk
    omega
  rw [hsecond, hfirst, run_events (a ++ b) s h hb]
  simp [replay_append, onItems_append, Function.comp_def, Nat.sub_add_eq]

/-- Two lists of sends that the platform serves, in one command or in two. -/
theorem run_sends_append (a b : List Send) {s : State} (h : s.hung = false)
    (hb : s.busServes (2 * (a ++ b).length) = true) :
    s.run ((sendsTrace s.params s.transport (a ++ b)).map .event)
      = (s.run ((sendsTrace s.params s.transport a).map .event)).run
          ((sendsTrace s.params s.transport b).map .event) := by
  rw [sendsTrace_append]
  refine run_events_append _ _ h fun n hn => ?_
  rw [← sendsTrace_append]
  exact serves_of s _ hb n _ (transmitsIn_sends _ _ _) hn

end Sys2Proof.Machine

namespace Sys2Proof.Claims

open Sys2Proof.Machine

/-- Settles O13: `WBUF` is one list of sends, and its first byte is a command of its own. -/
theorem wbufIsWdataInOrder : Obligations.WbufIsWdataInOrder := by
  refine ⟨fun s hu hh hp => ?_, fun s b bs hr => ?_, fun s bs hr => ?_⟩
  · have hrun : s.run [] = { s with pending := [] } := by
      rw [State.run, if_neg (by simp [State.play, hh]), State.play, State.finish, ← hu]
    exact (exec_of_script hu hp rfl).trans (congrArg _ hrun)
  · have ⟨hu, hh, hp, _, hb⟩ := hr
    have hnext : ReadyFor (2 * bs.length)
        (s.run ((sendsTrace s.params s.transport [dataSend s.params b]).map .event)) := by
      refine readyFor_run_sends ?_
      rwa [List.length_singleton, ← Nat.mul_add, Nat.add_comm]
    have ⟨hu', _, hp', _, _⟩ := hnext
    refine ⟨_, exec_of_script hu hp rfl, hnext, ?_⟩
    rw [exec_of_script hu hp rfl, exec_of_script hu' hp' rfl, sendsTrace_run]
    obtain ⟨hparams, _⟩ :=
      run_sameDevice s ((sendsTrace s.params s.transport [dataSend s.params b]).map .event)
    rw [hparams]
    exact congrArg _ (run_sends_append [dataSend s.params b] (bs.map (dataSend s.params)) hh
      (by simpa [Nat.add_comm] using hb))
  · obtain ⟨hu, hh, hp, hl, hb⟩ := hr
    refine ⟨_, exec_of_script hu hp rfl, ?_⟩
    rw [run_sends s (bs.map (dataSend s.params)) hh (by simpa using hb)]
    exact ⟨rfl, hh, by simp [sendsTrace, dataSend, List.flatMap_map]⟩

end Sys2Proof.Claims
end

section
/-! What `INIT` leaves of the observer (R41, R125). -/

namespace Sys2Proof.Claims

open Sys2Proof.Machine

/-- Settles O22: what the observer holds after a finished `INIT`, and its items begin with the four
lone nibbles. -/
theorem initLeavesObserverInStep : Obligations.InitLeavesObserverInStep := by
  intro s t hp _ hh _ hl he ht
  obtain ⟨_, hrun, _⟩ := hostCommand_next he
  cases hrun
  rw [run_init s hh (init_served s hh ht), replay_init _ _ hl]
  simp only [hp, init_observer]
  refine ⟨trivial, trivial, trivial, trivial, trivial, fun h4 => ?_⟩
  rw [List.take_length_add_append, initItems, if_pos h4]
  rfl

end Sys2Proof.Claims
end

section
/-! The enable line in a trace (R37, R66, R87): every wire frame begins and ends with it low. -/

namespace Sys2Proof.Machine

open Sys2Proof.Claims

/-- A delay moves no line. -/
theorem strobesClean_wait (y : CtlLayout) (high : Bool) (n : Nat) (evs : List Event) :
    strobesClean y high (waitTrace n ++ evs) = strobesClean y high evs := by
  unfold waitTrace
  split <;> rfl

/-- An enable pulse, from a low line, ends low. -/
theorem strobesClean_pulse (y : CtlLayout) (p : Params) (evs : List Event) :
    strobesClean y false (pulseTrace p ++ evs) = strobesClean y false evs := by
  simp [pulseTrace, strobesClean_wait, strobesClean]

/-- The three bytes of a frame are one enable pulse with read/write 0 (R62, R87). -/
theorem strobesClean_frame (port : I2cPort) (level : Bool) (n : Nibble) (evs : List Event) :
    strobesClean port.layout false (frameTrace port level n :: evs)
      = strobesClean port.layout false evs := by
  have hrise : port.layout.byte n level port.bl true
      = port.layout.byte n level port.bl false ||| oneBit port.layout.enBit := by
    simp only [CtlLayout.byte, bitIf, if_true, Bool.false_eq_true, if_false]
    ac_rfl
  simp [frameTrace, strobesClean, hrise]

theorem strobesClean_shift (y : CtlLayout) (b : Byte) (evs : List Event) :
    strobesClean y false (shiftTrace b ++ evs) = strobesClean y false evs := by
  simp [shiftTrace, strobesClean]

theorem strobesClean_byte (p : Params) (t : Transport) (level : Bool) (b : Byte)
    (evs : List Event) :
    strobesClean t.layout false (byteTrace p t level b ++ evs) = strobesClean t.layout false evs := by
  cases t with
  | ph q => simp [byteTrace, strobesClean, strobesClean_pulse]
  | pf q => simp [byteTrace, strobesClean, strobesClean_pulse]
  | sr q => simp [byteTrace, strobesClean, strobesClean_pulse, strobesClean_shift]
  | i2c port => simp [byteTrace, Transport.layout, strobesClean_frame]

theorem strobesClean_nibble (p : Params) (t : Transport) (level : Bool) (n : Nibble)
    (evs : List Event) :
    strobesClean t.layout false (nibbleTrace p t level n ++ evs)
      = strobesClean t.layout false evs := by
  cases t with
  | ph q => simp [nibbleTrace, strobesClean, strobesClean_pulse]
  | i2c port => simp [nibbleTrace, Transport.layout, strobesClean_frame]
  | pf q => rfl
  | sr q => rfl

theorem strobesClean_sends (p : Params) (t : Transport) (l : List Send) :
    strobesClean t.layout false (sendsTrace p t l) = true := by
  induction l with
  | nil => rfl
  | cons x l ih =>
    rw [sendsTrace, List.flatMap_cons, List.append_assoc, strobesClean_byte, strobesClean_wait]
    exact ih

theorem strobesClean_prim (i : Instr) (s : State) :
    strobesClean s.transport.layout false (primTrace i s) = true := by
  cases i
  case snib n => simpa [primTrace, strobesClean] using strobesClean_pulse _ s.params []
  case sbyte b => simpa [primTrace, strobesClean] using strobesClean_pulse _ s.params []
  case sshb b =>
    simpa [primTrace, strobesClean_shift, strobesClean] using strobesClean_pulse _ s.params []
  case si2cn d n =>
    cases ht : s.transport with
    | i2c port => simp [primTrace, ht, Transport.layout, strobesClean_frame, strobesClean]
    | _ => simp [primTrace, ht, strobesClean]
  all_goals rfl

theorem strobesClean_init (p : Params) (t : Transport) :
    strobesClean t.layout false (initTrace p t) = true := by
  have hbyte (b : Byte) (evs : List Event) :
      strobesClean t.layout false (initByte p t b ++ evs) = strobesClean t.layout false evs := by
    rw [initByte, List.append_assoc, strobesClean_byte, strobesClean_wait]
  have hhead (evs : List Event) :
      strobesClean t.layout false (initHead p t ++ evs) = strobesClean t.layout false evs := by
    cases h4 : t.variant.isFour <;>
      simp [initHead, h4, strobesClean_wait, strobesClean_byte, strobesClean_nibble]
  have hlast := hbyte (p.opDctrl ||| p.dcD) []
  rw [List.append_nil] at hlast
  simp only [initTrace_eq, List.append_assoc, hhead, hbyte, hlast]
  rfl

/-- A clean trace cut behind a transmit is clean. -/
theorem strobesClean_cut (y : CtlLayout) {high : Bool} (pre rest : List Event) (d : I2cDest)
    (b0 b1 b2 : Byte) (h : strobesClean y high (pre ++ .i2c d b0 b1 b2 :: rest) = true) :
    strobesClean y high (pre ++ [.i2c d b0 b1 b2]) = true := by
  induction pre generalizing high with
  | nil => simp_all [strobesClean]
  | cons e pre ih =>
    cases e <;> simp only [List.cons_append, strobesClean, Bool.and_eq_true] at h ⊢
    case dly => exact ih h
    all_goals exact h.imp_right ih

/-- What a command adds to the trace is clean if its events are, stuck or not. -/
theorem run_strobesClean {y : CtlLayout} {ms : List Micro} {s : State} (hh : s.hung = false)
    (h : strobesClean y false (eventsOf ms) = true) :
    ∃ evs, (s.run ms).out = s.out ++ evs ∧ strobesClean y false evs = true := by
  obtain ⟨evs, hout, ⟨rest, hrest⟩, hstuck, hdone⟩ := play_out ms s hh
  refine ⟨evs, by rw [run_out, hout], ?_⟩
  cases hq : (s.play ms).hung with
  | true =>
    obtain ⟨pre, d, b0, b1, b2, rfl⟩ := hstuck hq
    rw [← hrest, List.append_assoc] at h
    exact strobesClean_cut y pre rest d b0 b1 b2 h
  | false => rw [hdone hq]; exact h

end Sys2Proof.Machine

namespace Sys2Proof.Claims

open Sys2Proof.Machine

/-- Settles O34: scripts, primitives and `INIT` are made of clean frames, and a stuck one ends with a
whole transmit. -/
theorem nothingMovesWhileEnableIsHigh : Obligations.NothingMovesWhileEnableIsHigh := by
  intro i s t hf hh he
  rcases exec_next_cases he with ⟨s0, l, hs, _, _, rfl⟩ | ⟨_, _, rfl⟩ | ⟨_, _, _, rfl⟩ | ⟨hl, _⟩
    | ⟨hc, _⟩
  · obtain ⟨_, _, _, hlayout, _⟩ := scriptOf_core hs
    rw [← hlayout, ← scriptOf_out hs]
    exact run_strobesClean ((scriptOf_hung hs).trans hh) (by
      rw [eventsOf_map]; exact strobesClean_sends _ _ _)
  · exact run_strobesClean hh (by rw [eventsOf_map]; exact strobesClean_prim _ _)
  · exact run_strobesClean hh (by rw [eventsOf_init]; exact strobesClean_init _ _)
  · rw [hf] at hl; cases hl
  · rw [hf] at hc; cases hc

end Sys2Proof.Claims
end

section
/-! What is latched is on the lines (R38, R39). -/

namespace Sys2Proof.Machine

open Sys2Proof.Claims

/-- One item is latched, or none. -/
theorem latched_iff {α : Type} {c : Bool} {x y : α} :
    (if c = true then [x] else []) = [y] ↔ c = true ∧ x = y := by
  cases c <;> simp

/-- An enable pin latches where it was high and goes low (R38). -/
theorem latched_at_pin {e : Option Bool} {l : Bool} {x y : Item}
    (h : (if fallsFrom e l = true then [x] else []) = [y]) :
    l = false ∧ e = some true ∧ x = y := by
  obtain ⟨hfall, hxy⟩ := latched_iff.1 h
  simp only [fallsFrom, Bool.and_eq_true, decide_eq_true_eq, Bool.not_eq_true'] at hfall
  exact ⟨hfall.2, hfall.1, hxy⟩

theorem loNibble_bit (b : Byte) {i : Nat} (hi : i < 4) : (loNibble b).getLsbD i = b.getLsbD i := by
  simp [loNibble, hi]

end Sys2Proof.Machine

namespace Sys2Proof.Claims

open Sys2Proof.Machine

/-- Settles O29: the enable pin and the expander latch the levels that stood on the lines, and a byte
sent leaves its own. -/
theorem latchedItemIsOnTheLines : Obligations.LatchedItemIsOnTheLines := by
  refine ⟨fun t l it h => ?_, fun port b it h => ?_,
    fun t l b => ⟨fun h8 i hi => ?_, fun h4 i hi => ?_⟩⟩
  · cases t with
    | ph q =>
      obtain ⟨hl, he, rfl⟩ := latched_at_pin h
      exact ⟨hl, he, rfl, fun w i hw _ => by simp [Transport.dataLine, hw]⟩
    | pf q =>
      obtain ⟨hl, he, rfl⟩ := latched_at_pin h
      exact ⟨hl, he, rfl, fun w i hw _ => by simp [Transport.dataLine, hw]⟩
    | sr q =>
      obtain ⟨hl, he, rfl⟩ := latched_at_pin h
      exact ⟨hl, he, rfl, fun w i hw _ => by cases hw; rfl⟩
    | i2c port => cases h
  · obtain ⟨hfall, rfl⟩ := latched_iff.1 h
    simp only [Bool.and_eq_true, Bool.not_eq_true'] at hfall
    obtain ⟨hhigh, hlow⟩ := hfall
    refine ⟨congrArg some hhigh, congrArg some hlow, rfl, fun w i hw _ => ?_⟩
    cases hw
    simp [Transport.dataLine]
  · cases t with
    | pf q => rfl
    | sr q => rfl
    | _ => cases h8
  · cases t with
    | ph q => simp [afterByte, Transport.dataLine, loNibble_bit b hi]
    | i2c port => simp [afterByte, Transport.dataLine, loNibble_bit b hi]
    | _ => cases h4

end Sys2Proof.Claims
end

section
/-! Streams that hold no whole command (R52, R65, R133): cut short, opened by a reserved opcode byte, or
with reserved operand bits set; and the sample words of the encodings. -/

namespace Sys2Proof

/-! ### Streams cut short -/

/-- The length of every encoding is the one R52 gives its opcode. -/
theorem length_encode (i : Instr) : (encode i).length = i.lengthBytes := by
  cases i
  case wbuf data => exact Nat.add_comm data.length 2
  all_goals rfl

theorem takeSetcur_short {r : List Byte} (h : r.length < 2) : takeSetcur r = .bad .truncated := by
  unfold takeSetcur
  split
  · simp only [List.length_cons] at h
    omega
  · rfl

theorem takeMkchar_short {r : List Byte} (h : r.length < 9) : takeMkchar r = .bad .truncated := by
  unfold takeMkchar
  split
  · simp only [List.length_cons] at h
    omega
  · rfl

/-- A buffer of which not every byte is there: the count byte asks for more than follow it (R97). -/
theorem takeWbuf_short {data : List Byte} {j : Nat} (hfit : data.length ≤ 255)
    (hj : j < data.length) :
    takeWbuf (BitVec.ofNat 8 data.length :: data.take j) = .bad .truncated := by
  have hcount : (BitVec.ofNat 8 data.length).toNat = data.length :=
    Nat.mod_eq_of_lt (by omega)
  rw [takeWbuf, hcount, if_pos (by rw [List.length_take]; omega)]

/-- A host command cut short is truncated: its opcode byte is there, and some of the operands that it
calls for are not. -/
theorem decode_take_encode {i : Instr} {k : Nat} (hf : i.format = .hc) (hw : i.wellFormed = true)
    (hpos : 0 < k) (hk : k < i.lengthBytes) : decode ((encode i).take k) = .bad .truncated := by
  obtain ⟨j, rfl⟩ := Nat.exists_eq_add_one_of_ne_zero hpos.ne'
  cases i
  case snib | sbyte | sshb | si2cn | winstr | wdata =>
    obtain rfl : j = 0 := Nat.lt_one_iff.1 (Nat.lt_of_succ_lt_succ hk)
    rfl
  case wbuf data =>
    have hlen : j + 1 < 2 + data.length := hk
    cases j with
    | zero => rfl
    | succ j => exact takeWbuf_short (of_decide_eq_true hw) (by omega)
  case setcur row col =>
    exact takeSetcur_short
      ((List.length_take_le j [row, col]).trans_lt (Nat.lt_of_succ_lt_succ hk))
  case mkchar slot g0 g1 g2 g3 g4 g5 g6 g7 =>
    exact takeMkchar_short ((List.length_take_le j [slot, g0, g1, g2, g3, g4, g5, g6, g7]).trans_lt
      (Nat.lt_of_succ_lt_succ hk))
  case lcdClear | lcdHome | lcdEntry | lcdDctrl | lcdShift | lcdFset | lcdSetcg | lcdSetdd | i2cCtrl =>
    cases hf
  all_goals exact absurd (Nat.lt_of_succ_lt_succ hk) (Nat.not_lt_zero j)

/-! ### Reserved encodings -/

/-- The opcode bytes that R65 (a) reserves. -/
def ReservedOpcode (n : Nat) : Prop :=
  n ≤ 0x0F ∨ (0x14 ≤ n ∧ n ≤ 0x1F) ∨ (0x23 ≤ n ∧ n ≤ 0x2F) ∨ (0x34 ≤ n ∧ n ≤ 0x3F)
    ∨ (0x49 ≤ n ∧ n ≤ 0x4F) ∨ (0x58 ≤ n ∧ n ≤ 0x5F) ∨ 0x64 ≤ n

/-- None of them has a row in the opcode map. -/
theorem decodeOpcode_reserved {n : Nat} (h : ReservedOpcode n) (r : List Byte) :
    decodeOpcode n r = .bad .reservedOpcode := by
  unfold ReservedOpcode at h
  unfold decodeOpcode
  split
  case h_33 => rfl
  all_goals omega

theorem takeSnib_reserved {b : Byte} (h : 0x10 ≤ b.toNat) (r : List Byte) :
    takeSnib (b :: r) = .bad .reservedOperandBits := by
  have hbits : hiNibble b ≠ 0 := by
    revert b
    decide
  rw [takeSnib, if_neg hbits]

theorem takeSi2cn_reserved {b : Byte} (h : 0x20 ≤ b.toNat) (r : List Byte) :
    takeSi2cn (b :: r) = .bad .reservedOperandBits := by
  have hbits : b.extractLsb' 5 3 ≠ 0 := by
    revert b
    decide
  rw [takeSi2cn, if_neg hbits]

end Sys2Proof

namespace Sys2Proof.Claims

open Sys2Proof.Machine

/-- Settles O2: the decoders, run on each word. -/
theorem sampleWordsDecode : Obligations.SampleWordsDecode := by
  unfold Obligations.SampleWordsDecode
  decide

/-- Settles O5: a command cut short has its opcode byte and lacks an operand. -/
theorem truncatedCommandsRefused : Obligations.TruncatedCommandsRefused := by
  refine ⟨length_encode, fun i s k hf hw hpos hk hs hu hh hd hin => ?_⟩
  have hsome : s.hostIn ≠ [] := by
    rw [hin, ← List.length_pos_iff, List.length_take, length_encode]
    omega
  exact step_bad hs hh hu hd hsome (hin ▸ decode_take_encode hf hw hpos hk)

/-- Settles O6: the decoder answers what it finds reserved, and the step refuses with it. -/
theorem reservedEncodingsRefused : Obligations.ReservedEncodingsRefused := by
  intro s op r hs hu hh hd hin
  have hbad {e : DecodeError} (h : decode (op :: r) = .bad e) : step s = .refused (refusalOf e) :=
    step_bad hs hh hu hd (by simp [hin]) (hin ▸ h)
  refine ⟨fun hop => hbad (decodeOpcode_reserved hop r), ?_, ?_⟩
  · rintro b r' rfl rfl hb
    exact hbad (takeSnib_reserved hb r')
  · rintro b r' rfl rfl hb
    exact hbad (takeSi2cn_reserved hb r')

end Sys2Proof.Claims
end

section
/-! The one-byte encodings, both ways (R53, R62), and the device bytes that are in neither (R66, U6). -/

namespace Sys2Proof

/-! ### Instruction bytes -/

/-- The encoder writes a row as the byte it stands for at the default parameters (R53). -/
theorem encode_row {i : Instr} (hf : i.format = .lcdi) :
    encode i = [Machine.rowByte Params.default i] := by
  cases i
  case lcdClear | lcdHome | lcdEntry | lcdDctrl | lcdShift | lcdFset | lcdSetcg | lcdSetdd => rfl
  all_goals cases hf

/-- At the default parameters the byte of a row decodes to that row (R53). -/
theorem decode_rowByte {i : Instr} (hf : i.format = .lcdi) :
    decodeLcdi (Machine.rowByte Params.default i) = some i := by
  cases i
  case lcdClear => exact Machine.decode_encClear
  case lcdHome => exact Machine.decode_encHome
  case lcdEntry incBit dispBit => cases incBit <;> cases dispBit <;> rfl
  case lcdDctrl d c b => exact Machine.decode_encDctrl d c b
  case lcdShift dispBit rightBit => cases dispBit <;> cases rightBit <;> rfl
  case lcdFset l n f => revert l n f; decide
  case lcdSetcg a =>
    have hlow : (a.setWidth 8 : Byte).toNat < 64 := by
      rw [BitVec.toNat_setWidth_of_le (by decide)]
      exact a.isLt
    exact (Machine.decode_encCgram hlow).trans (by rw [BitVec.extractLsb'_setWidth_of_le (by decide),
      BitVec.extractLsb'_eq_self])
  case lcdSetdd a =>
    exact (Machine.decode_encDdram _).trans (by rw [BitVec.extractLsb'_setWidth_of_le (by decide),
      BitVec.extractLsb'_eq_self])
  all_goals cases hf

/-! ### Control bytes -/

/-- A control byte decodes to the fields it was built from, under any layout (R62). -/
theorem CtlLayout.decode_byte (l : CtlLayout) (n : Nibble) (rs bl en : Bool) :
    l.decode (l.byte n rs bl en) = some (.i2cCtrl n bl en rs) := by
  simp [CtlLayout.decode]

/-- A byte that decodes is a control byte with write, and its fields are what it decodes to. -/
theorem CtlLayout.decode_some {l : CtlLayout} {b : Byte} {i : Instr} (h : l.decode b = some i) :
    b.getLsbD l.rwBit = false
      ∧ i = .i2cCtrl (l.nibbleOf b) (b.getLsbD l.blBit) (b.getLsbD l.enBit) (b.getLsbD l.rsBit) := by
  unfold CtlLayout.decode at h
  split at h
  · cases h
  · rename_i hrw
    exact ⟨by simpa using hrw, (Option.some.inj h).symm⟩

/-- A byte that reads decodes to nothing (R66 (a)). -/
theorem CtlLayout.decode_read {l : CtlLayout} {b : Byte} (h : b.getLsbD l.rwBit = true) :
    l.decode b = none := if_pos h

/-- At the default layout the fields and the read/write bit are all of the byte: built again from its
fields, a byte with write is itself (R62). -/
theorem ctlByte_fields {b : Byte} (h : b.getLsbD 1 = false) :
    CtlLayout.byte {} (CtlLayout.nibbleOf {} b) (b.getLsbD 0) (b.getLsbD 3) (b.getLsbD 2) = b := by
  revert b
  decide

end Sys2Proof

namespace Sys2Proof.Claims

open Sys2Proof.Machine

/-- Settles O4: an instruction byte is its row's byte, and a control byte its fields. -/
theorem emittedBytesRoundTrip : Obligations.EmittedBytesRoundTrip := by
  refine ⟨fun i hf => ⟨_, encode_row hf, decode_rowByte hf⟩, fun b i hi => ?_, fun i hf => ?_,
    fun b i hi => ?_⟩
  · have hf := decodeLcdiFor_format hi
    exact ⟨hf, by rw [encode_row hf, rowByte_decode hi]⟩
  · cases i
    case i2cCtrl n bl en rs => exact ⟨_, rfl, CtlLayout.decode_byte {} n rs bl en⟩
    all_goals cases hf
  · obtain ⟨hrw, rfl⟩ := CtlLayout.decode_some hi
    exact ⟨rfl, congrArg (· :: []) (ctlByte_fields hrw)⟩

/-- Settles O50: a byte of no class is heard with the effect that nothing is known; one that reads has
no decoding under any layout. -/
theorem deviceBytesOfNoClass : Obligations.DeviceBytesOfNoClass := by
  intro s b ds hs hh hu
  refine ⟨fun hd hnone => ?_, fun hd hread => ?_⟩
  · rw [step_device hs hh hu hd]
    simp only [stepDevice, hnone, receive_eq]
    rfl
  · rw [step_device hs hh hu hd]
    simp only [stepDevice, CtlLayout.decode_read hread]

end Sys2Proof.Claims
end

section
/-! One command's sends in place of another's: the state `MKCHAR` leaves (R121), and the expansions of
R70. -/

namespace Sys2Proof.Machine

open Sys2Proof.Claims

/-- A non-empty list of sends from a ready state, as a whole command: the pins are those after its last
byte, and the observer takes the items of every byte (R89). -/
theorem run_sends_ready {s : State} (l : List Send) (x : Send)
    (h : ReadyFor (2 * (l ++ [x]).length) s) :
    s.run ((sendsTrace s.params s.transport (l ++ [x])).map .event) = { s with
      out := s.out ++ sendsTrace s.params s.transport (l ++ [x])
      transport := afterByte s.transport x.level x.byte
      bus := busAfter s.transport s.bus (2 * (l ++ [x]).length)
      obs := s.obs.onItems s.params s.transport.variant
        ((l ++ [x]).flatMap fun y => byteItems s.transport.variant y.level y.byte)
      pending := [] } := by
  obtain ⟨hu, hh, _, hl, hb⟩ := h
  rw [run_sends s _ hh hb, replay_sends _ _ _ _ hl, hu]

/-- A command whose sends are those of two commands, the first of which finished, has the trace of the
two (R70). -/
theorem exec_out_of_scripts {i j k : Instr} {s t u : State} {a b : List Send}
    (hi : scriptOf i s = some (s, a))
    (hj : ∀ t : State, t.params = s.params → scriptOf j t = some (t, b))
    (hk : scriptOf k s = some (s, a ++ b)) (ht : exec i s = .next t) (hh : t.hung = false)
    (hu : exec j t = .next u) : ∃ w, exec k s = .next w ∧ w.out = u.out := by
  obtain ⟨hidle, hready, _⟩ := exec_script (needsReady_of_script hi) ht
  rw [exec_of_script hidle hready hi] at ht
  cases ht
  obtain ⟨hparams, _⟩ := run_sameDevice s ((sendsTrace s.params s.transport a).map .event)
  obtain ⟨hidle', hready', _⟩ := exec_script (needsReady_of_script (hj _ hparams)) hu
  rw [exec_of_script hidle' hready' (hj _ hparams), sendsTrace_run] at hu
  cases hu
  refine ⟨_, exec_of_script hidle hready hk, ?_⟩
  rw [sendsTrace_append]
  exact run_append_out _ _ s hh

/-- A display-flag or entry-mode command has the trace of the `WINSTR` of the byte it sends (R70). -/
theorem exec_out_eq_winstr {i : Instr} {s t : State} (hi : leavesMemories i = true)
    (he : exec i s = .next t) : ∃ b u, exec (.winstr b) s = .next u ∧ u.out = t.out := by
  obtain ⟨hidle, hready, s0, l, hs, rfl⟩ := exec_script (leavesMemories_needsReady hi) he
  obtain ⟨b, rfl, _⟩ := leavesMemories_script hi hs
  refine ⟨b, _, exec_of_script hidle hready rfl, ?_⟩
  rw [scriptOf_params hs, scriptOf_transport hs]
  exact run_out_congr _ _ _ (scriptOf_bus hs).symm (scriptOf_hung hs).symm (scriptOf_out hs).symm

theorem leavesMemories_of_flagOrEntry {i : Instr}
    (h : isFlagCommand i = true ∨ isEntryCommand i = true) : leavesMemories i = true := by
  unfold leavesMemories
  split <;> simp [h]

/-- A buffer of one byte is that byte (R97). -/
theorem exec_wdata_eq_wbuf (b : Byte) (s : State) : exec (.wdata b) s = exec (.wbuf [b]) s := by
  simp [exec, execWdata, execWbuf, wbufSeq]

end Sys2Proof.Machine

namespace Sys2Proof.Claims

open Sys2Proof.Machine

/-- Settles O20: the nine sends of its script, the last of them the last glyph byte. -/
theorem mkcharSendsAddressThenEightBytes : Obligations.MkcharSendsAddressThenEightBytes := by
  refine ⟨fun s slot g0 g1 g2 g3 g4 g5 g6 g7 hr => ?_, fun slot => ?_⟩
  · have ⟨hu, _, hp, _⟩ := hr
    have hrun := run_sends_ready
      (instrSend s.params (encCgram s.params (glyphAddr s.params slot))
        :: [g0, g1, g2, g3, g4, g5, g6].map (dataSend s.params)) (dataSend s.params g7) hr
    refine (exec_of_script hu hp rfl).trans ((congrArg _ hrun).trans ?_)
    simp [sendsTrace, itemsOf, instrSend, dataSend, encCgram, glyphAddr]
  · revert slot
    decide

/-- Settles O37: each expansion has the sends of what it expands to. -/
theorem expansionsHaveTheSameTrace : Obligations.ExpansionsHaveTheSameTrace := by
  intro s _
  refine ⟨rfl, rfl, fun hp => ?_, fun b => exec_wdata_eq_wbuf b s,
    fun b c bs t u ht hth hu => ?_, fun slot g0 g1 g2 g3 g4 g5 g6 g7 t u ht hth hu => ?_,
    fun i t hi he => exec_out_eq_winstr (leavesMemories_of_flagOrEntry hi) he⟩
  · have hbyte {b c : Byte} (h : b = c) : exec (.winstr b) s = exec (.winstr c) s := by rw [h]
    refine ⟨hbyte ?_, hbyte ?_, hbyte ?_, hbyte ?_, hbyte ?_, hbyte ?_, fun row col => hbyte ?_⟩ <;>
      rw [hp] <;> rfl
  · exact exec_out_of_scripts rfl (fun _ hparams => by rw [← hparams]; rfl) rfl ht hth hu
  · exact exec_out_of_scripts (k := .mkchar slot g0 g1 g2 g3 g4 g5 g6 g7) rfl
      (fun _ hparams => by rw [← hparams]; rfl) rfl ht hth hu

end Sys2Proof.Claims
end

section
/-! Lines at rest between commands, and the variants that cannot be stuck (R77, R78, R87, R136): a run
of events that is not stuck ends where their replay ends, and only a transmit can be stuck. -/

namespace Sys2Proof.Machine

/-- A host command that answers a next state is a script, a primitive or `INIT`, run. -/
theorem exec_host_cases {i : Instr} {s t : State} (hf : i.format = .hc) (he : exec i s = .next t) :
    (∃ s0 l, scriptOf i s = some (s0, l)
        ∧ t = s0.run ((sendsTrace s0.params s0.transport l).map .event))
      ∨ (primitiveOf i = some s.transport.variant ∧ t = s.run ((primTrace i s).map .event))
      ∨ t = s.run (initSeq s.params s.transport) := by
  rcases exec_next_cases he with ⟨s0, l, hs, _, _, ht⟩ | ⟨hv, _, ht⟩ | ⟨_, _, _, ht⟩ | ⟨hlcd, _⟩
    | ⟨hctl, _⟩
  · exact .inl ⟨s0, l, hs, ht⟩
  · exact .inr (.inl ⟨hv, ht⟩)
  · exact .inr (.inr ht)
  · rw [hf] at hlcd; cases hlcd
  · rw [hf] at hctl; cases hctl

/-! ### Lines at rest -/

/-- Unless stuck, no command runs and no pulse is half done. -/
def State.Rests (s : State) : Prop := s.hung = false → s.upc = 0 ∧ s.transport.linesIdle = true

/-- A command of events rests where their replay ends with idle lines. -/
theorem rests_run_events {s : State} {evs : List Event} (h : s.hung = false)
    (hl : (replay s.transport evs).1.linesIdle = true) : (s.run (evs.map .event)).Rests := by
  intro ht
  rw [run_ok evs s h ht]
  exact ⟨rfl, hl⟩

theorem rests_run_init {s : State} (h : s.hung = false) (hl : s.transport.linesIdle = true) :
    (s.run (initSeq s.params s.transport)).Rests := by
  intro ht
  rw [run_init s h (init_served s h ht), replay_init _ _ hl]
  exact ⟨rfl, afterByte_linesIdle _ _ _⟩

/-- Every host command from idle lines leaves them idle, unless it is stuck. -/
theorem exec_rests {i : Instr} {s t : State} (hf : i.format = .hc) (h : s.hung = false)
    (hl : s.transport.linesIdle = true) (he : exec i s = .next t) : t.Rests := by
  rcases exec_host_cases hf he with ⟨s0, l, hs, rfl⟩ | ⟨hv, rfl⟩ | rfl
  · exact rests_run_events ((scriptOf_hung hs).trans h)
      (replay_sends_idle _ _ _ ((scriptOf_linesIdle hs).trans hl))
  · exact rests_run_events h (replay_prim_idle hv hl)
  · exact rests_run_init h hl

/-! ### Runs without a transmit -/

/-- A run without a transmit is never stuck (R136). -/
theorem run_hung_of_no_transmit {ms : List Micro} {s : State} (h : s.hung = false)
    (hn : transmitsIn (eventsOf ms) = 0) : (s.run ms).hung = false := by
  rw [← Bool.not_eq_true]
  intro hstuck
  obtain ⟨_, hplay⟩ := run_stuck ms s hstuck
  obtain ⟨_, d, b0, b1, b2, _, hmem⟩ := play_stuck ms s h hplay
  exact no_transmit_of hn d b0 b1 b2 hmem

end Sys2Proof.Machine

namespace Sys2Proof.Claims

open Sys2Proof.Machine

/-- Settles O40: with no byte at a device and no command running, a step is nothing or a host
command. -/
theorem stepKeepsLinesRest : Obligations.StepKeepsLinesRest := by
  intro s t hs ht
  obtain ⟨hdev, hrest⟩ := hs
  obtain ⟨hh, ⟨hu, _⟩ | ⟨_, d, ds, hd, _⟩ | ⟨_, _, _, rfl⟩ | ⟨_, _, i, r, hdec, he⟩⟩ := step_next ht
  · obtain ⟨hidle, _⟩ := hrest hh
    exact absurd hidle hu
  · rw [hdev] at hd; cases hd
  · exact ⟨hdev, hrest⟩
  · obtain ⟨_, hl⟩ := hrest hh
    exact ⟨(exec_devIn he).trans hdev,
      exec_rests (s := { s with hostIn := r }) (decode_format hdec) hh hl he⟩

/-- Settles O44: no event of a host command is a transmit on these variants. -/
theorem gpioVariantsNeverStick : Obligations.GpioVariantsNeverStick := by
  intro i s t hf hv hh he
  rcases exec_host_cases hf he with ⟨s0, l, hs, rfl⟩ | ⟨hp, rfl⟩ | rfl
  · obtain ⟨_, hvar, _⟩ := scriptOf_core hs
    refine run_hung_of_no_transmit ((scriptOf_hung hs).trans hh) ?_
    rw [eventsOf_map, transmitsIn_sends, hvar, if_neg hv]
  · refine run_hung_of_no_transmit hh ?_
    rw [eventsOf_map, transmitsIn_prim hp, if_neg hv]
  · refine run_hung_of_no_transmit hh ?_
    rw [eventsOf_init, transmitsIn_init, if_neg hv]

end Sys2Proof.Claims
end

section
/-! The gate from outside (R83, R134): a command whose phase or variant it is not is refused. -/

namespace Sys2Proof.Machine

/-- Layers B and C but `INIT` outside phase Ready: `RF3`. -/
theorem exec_notReady {i : Instr} {s : State} (hi : needsReady i = true) (hu : s.upc = 0)
    (hp : s.phase ≠ .ready) : exec i s = .refused .notReady := by
  cases i
  case snib | sbyte | sshb | si2cn | init | lcdClear | lcdHome | lcdEntry | lcdDctrl | lcdShift
      | lcdFset | lcdSetcg | lcdSetdd | i2cCtrl => cases hi
  all_goals exact hostCommand_notReady hu hp

/-- A transport primitive on another variant: `RF2`, whatever the phase. -/
theorem exec_wrongVariant {i : Instr} {s : State} {v : Variant} (hi : primitiveOf i = some v)
    (hu : s.upc = 0) (hv : s.transport.variant ≠ v) : exec i s = .refused .wrongVariant := by
  cases i
  case snib | sbyte | sshb | si2cn =>
    cases hi
    exact hostCommand_wrongVariant hu hv
  all_goals cases hi

end Sys2Proof.Machine

namespace Sys2Proof.Claims

open Sys2Proof.Machine

/-- Settles O9: each clause is one gate. -/
theorem phaseAndVariantGate : Obligations.PhaseAndVariantGate := by
  intro i s hu
  refine ⟨fun hi hp => exec_notReady hi hu hp, ?_, fun v hi hv => exec_wrongVariant hi hu hv⟩
  rintro rfl hp
  exact hostCommand_notFresh hu hp

end Sys2Proof.Claims
end

section
/-! The transport primitives on their own variants (R83 to R87): their events, replayed. -/

namespace Sys2Proof.Machine

/-- On its own variant a primitive runs its events, whatever the phase (R83). -/
theorem exec_of_primitive {i : Instr} {s : State} (hv : primitiveOf i = some s.transport.variant)
    (hu : s.upc = 0) : exec i s = .next (s.run ((primTrace i s).map .event)) := by
  cases i
  case snib n =>
    refine (hostCommand_primitive hu (Option.some.inj hv).symm).trans ?_
    rw [snibSeq_eq]; rfl
  case sbyte b =>
    refine (hostCommand_primitive hu (Option.some.inj hv).symm).trans ?_
    rw [sbyteSeq_eq]; rfl
  case sshb b =>
    refine (hostCommand_primitive hu (Option.some.inj hv).symm).trans ?_
    rw [sshbSeq_eq]; rfl
  case si2cn d n =>
    refine (hostCommand_primitive hu (Option.some.inj hv).symm).trans ?_
    cases ht : s.transport with
    | i2c port => simp only [primTrace, ht, si2cnSeq_eq, State.perform]
    | _ => rw [ht] at hv; cases hv
  all_goals cases hv

/-- A primitive that the platform completes, whatever pins, latches and item its events make. -/
theorem exec_primitive_served {i : Instr} {s : State} {t0 t : Transport} {it : Item}
    (ht : s.transport = t0) (hv : primitiveOf i = some t0.variant) (hu : s.upc = 0)
    (hh : s.hung = false) (hb : s.busServes 1 = true)
    (hr : replay t0 (primTrace i s) = (t, [it])) :
    exec i s = .next { s with
      out := s.out ++ primTrace i s
      transport := t
      obs := s.obs.onItem s.params t0.variant it
      bus := busAfter t0 s.bus 1
      pending := [] } := by
  subst ht
  have hone := transmitsIn_prim hv
  rw [exec_of_primitive hv hu, run_events _ s hh fun n hn => serves_of s 1 hb n _ hone hn,
    bus_map_eq s.transport s.bus 1 _ hone, hr, hu]
  rfl

/-- The variants with pins of their own transmit nothing, so the platform serves them. -/
theorem busServes_gpio {s : State} {t0 : Transport} {k : Nat} (ht : s.transport = t0)
    (hv : t0.variant ≠ .i2c) : s.busServes k = true :=
  busServes_iff.2 fun h => absurd (ht ▸ h) hv

/-- The nibble is on the pins when the pulse comes (R84). -/
theorem replay_snib (p : Params) {q : PhPins} (n : Nibble)
    (h : (Transport.ph q).linesIdle = true) :
    replay (.ph q) (.d4 n :: pulseTrace p)
      = (.ph { q with dp := some n, e := some false }, [.nibble q.rs (some n)]) := by
  have hlow : q.e ≠ some true := by simpa [Transport.linesIdle] using h
  simp [replay, Transport.take, hlow]

/-- The byte is on the pins when the pulse comes (R85). -/
theorem replay_sbyte (p : Params) {q : PfPins} (b : Byte)
    (h : (Transport.pf q).linesIdle = true) :
    replay (.pf q) (.d8 b :: pulseTrace p)
      = (.pf { q with dp := some b, e := some false }, [.byte q.rs (some b)]) := by
  have hlow : q.e ≠ some true := by simpa [Transport.linesIdle] using h
  simp [replay, Transport.take, hlow]

/-- The byte is shifted in and copied to the outputs before the pulse comes (R86). -/
theorem replay_sshb (p : Params) {q : SrPins} (b : Byte)
    (h : (Transport.sr q).linesIdle = true) :
    replay (.sr q) (shiftTrace b ++ [.rck true, .rck false] ++ pulseTrace p)
      = (.sr ⟨q.rs, some false, some (b.getLsbD 0), some false, some false, b, b⟩,
          [.byte q.rs (some b)]) := by
  obtain ⟨hlow, hclock⟩ : q.e ≠ some true ∧ q.sck ≠ some true := by
    simpa [Transport.linesIdle] using h
  rw [List.append_assoc, replay_shiftTrace q b hclock]
  simp [replay, Transport.take, SrPins.latch, hlow]

/-- The enable bit of one control byte frame is one pulse (R87). -/
theorem replay_si2cn {port : I2cPort} (level : Bool) (n : Nibble)
    (h : (Transport.i2c port).linesIdle = true) :
    replay (.i2c port) [frameTrace port level n]
      = (.i2c { port with xp := port.layout.byte n level port.bl false },
          [.nibble (some level) (some n)]) := by
  have hlow : port.xp.getLsbD port.layout.enBit = false := by simpa [Transport.linesIdle] using h
  rw [replay_frame port level n hlow, replay]

end Sys2Proof.Machine

namespace Sys2Proof.Claims

open Sys2Proof.Machine

/-- Settles O10: the events of each primitive replay to one item. -/
theorem primitivesSendOneItem : Obligations.PrimitivesSendOneItem := by
  refine ⟨fun s q n hu hh ht hl => ?_, fun s q b hu hh ht hl => ?_, fun s q b hu hh ht hl => ?_,
    fun s port d n hu hh ht hl hb => ?_⟩
  · exact exec_primitive_served ht rfl hu hh (busServes_gpio ht nofun)
      (replay_snib s.params n (ht ▸ hl))
  · exact exec_primitive_served ht rfl hu hh (busServes_gpio ht nofun)
      (replay_sbyte s.params b (ht ▸ hl))
  · rw [List.append_assoc, List.append_assoc, ← List.append_assoc (shiftTrace b)]
    exact exec_primitive_served ht rfl hu hh (busServes_gpio ht nofun)
      (replay_sshb s.params b (ht ▸ hl))
  · have htrace : primTrace (.si2cn d n) s = [frameTrace port (rsLevel s.params d) n] := by
      simp only [primTrace, ht]
    have h := exec_primitive_served (i := .si2cn d n) ht rfl hu hh hb
      (htrace ▸ replay_si2cn (rsLevel s.params d) n (ht ▸ hl))
    rw [htrace] at h
    exact h

end Sys2Proof.Claims
end

section
/-! A command that sends one byte, whatever its script writes first (R82, R95, R96). -/

namespace Sys2Proof.Claims

open Sys2Proof.Machine

/-- From a ready state, a command whose script is one send leaves that byte sent. -/
theorem exec_one_send {i : Instr} {s s0 : State} {x : Send} (hr : ReadyFor 2 s)
    (hs : scriptOf i s = some (s0, [x])) :
    exec i s = .next (sent s0 x.level x.byte x.wait) := by
  obtain ⟨hu, hh, hp, hl, hb⟩ := hr
  obtain ⟨_, _, _, _, _, _, _, _, _, _, _, hupc, _⟩ := scriptOf_core hs
  have hr0 : ReadyFor 2 s0 :=
    ⟨hupc.trans hu, (scriptOf_hung hs).trans hh, (scriptOf_phase hs).trans hp,
      (scriptOf_linesIdle hs).trans hl,
      (busServes_congr (scriptOf_transport hs) (scriptOf_bus hs) 2).trans hb⟩
  refine (exec_of_script hu hp hs).trans ((congrArg _ (run_sends_ready [] x hr0)).trans ?_)
  simp [sent, sendsTrace]

/-- An observer between bytes receives the items of a byte as that byte (R41). -/
theorem arrivesWhole_of_paired (s : State) (level : Bool) (b : Byte) : arrivesWhole s level b :=
  fun hpair => onItems_byte _ _ _ _ _ hpair

/-- A command whose script is one instruction byte sends it. -/
theorem sendsFrom_of_script {i : Instr} {s s0 : State} {b : Byte} (hr : ReadyFor 2 s)
    (hs : scriptOf i s = some (s0, [instrSend s.params b])) : sendsFrom i s s0 b :=
  ⟨exec_one_send hr hs, arrivesWhole_of_paired s _ b⟩

/-- Settles O11: its script is that instruction byte. -/
theorem winstrSendsInstructionByte : Obligations.WinstrSendsInstructionByte :=
  fun _ _ hr => sendsFrom_of_script hr rfl

/-- Settles O12: its script is that data byte. -/
theorem wdataSendsDataByte : Obligations.WdataSendsDataByte :=
  fun s b hr => ⟨exec_one_send (x := dataSend s.params b) hr rfl, arrivesWhole_of_paired s _ b⟩

end Sys2Proof.Claims
end

section
/-! The display commands at the adapter (R101 to R120): each sends one instruction byte, after the field
writes of its script. -/

namespace Sys2Proof.Claims

open Sys2Proof.Machine

/-! ### One instruction byte, by kind of command -/

/-- A command whose script writes nothing and sends the byte `enc`, which the statement calls `b`. -/
theorem plainCommand_of_script {i : Instr} {op : Byte} {b : Params → Byte} (enc : Params → Byte)
    (hop : encode i = [op]) (hs : ∀ s, scriptOf i s = some (s, [instrSend s.params (enc s.params)]))
    (hb : ∀ p, enc p = b p) : PlainCommand i op b :=
  ⟨hop, fun s hr => hb s.params ▸ sendsFrom_of_script hr (hs s)⟩

/-- A command whose script writes both entry-mode bits and sends their instruction. -/
theorem entryCommand_of_script {i : Instr} {op : Byte} {t : EmTarget} {d : EmDir} {b : Params → Byte}
    (hop : encode i = [op])
    (hs : ∀ s, scriptOf i s
      = some ({ s with emTarget := some t, emDir := some d }, [instrSend s.params (encEntry s.params t d)]))
    (hb : ∀ p, encEntry p t d = b p) : EntryCommand i op t d b :=
  ⟨hop, fun s hr => hb s.params ▸ sendsFrom_of_script hr (hs s)⟩

/-- A state with its three display flags written. -/
def withFlags (s : State) (d c b : Bool) : State :=
  { s with disp := some d, cur := some c, blink := some b }

theorem withFlags_of_written {s : State} {d c b : Bool} (hd : s.disp = some d) (hc : s.cur = some c)
    (hb : s.blink = some b) : withFlags s d c b = s := by
  rw [withFlags, ← hd, ← hc, ← hb]

/-- A command whose script, where the flags are written, rewrites them by `f` and sends them all. -/
theorem flagCommand_of_script {i : Instr} {op : Byte} {f : Bool → Bool → Bool → Bool × Bool × Bool}
    (hop : encode i = [op])
    (hs : ∀ s d c b, scriptOf i (withFlags s d c b)
      = some (withFlags s (f d c b).1 (f d c b).2.1 (f d c b).2.2,
          [instrSend s.params (encDctrl s.params (f d c b).1 (f d c b).2.1 (f d c b).2.2)])) :
    FlagCommand i op f := by
  refine ⟨hop, fun s d c b hr hd hc hb => sendsFrom_of_script hr ?_⟩
  have hscript := hs s d c b
  rwa [withFlags_of_written hd hc hb] at hscript

/-- Settles O14: each script is its one byte. -/
theorem clearHomeAndShiftsSendTheirByte : Obligations.ClearHomeAndShiftsSendTheirByte := by
  refine ⟨plainCommand_of_script encClear rfl (fun _ => rfl) fun _ => rfl,
    plainCommand_of_script encHome rfl (fun _ => rfl) fun _ => rfl,
    plainCommand_of_script (encShift · .cursor .left) rfl (fun _ => rfl) ?_,
    plainCommand_of_script (encShift · .cursor .right) rfl (fun _ => rfl) ?_,
    plainCommand_of_script (encShift · .display .left) rfl (fun _ => rfl) ?_,
    plainCommand_of_script (encShift · .display .right) rfl (fun _ => rfl) ?_,
    by decide⟩
  all_goals
    intro p
    simp [encShift, bitIf]

/-- Settles O15: each script rewrites its own flag and sends all three. -/
theorem flagCommandsResendAllThreeFlags : Obligations.FlagCommandsResendAllThreeFlags := by
  refine ⟨?_, ?_, ?_, ?_, ?_, ?_, ?_, ?_, ?_, by decide⟩
  all_goals exact flagCommand_of_script rfl fun _ _ _ _ => rfl

/-- Settles O17: each script writes its two bits and sends them. -/
theorem entryModeCommandsWriteBothBits : Obligations.EntryModeCommandsWriteBothBits := by
  refine ⟨entryCommand_of_script rfl (fun _ => rfl) ?_, entryCommand_of_script rfl (fun _ => rfl) ?_,
    entryCommand_of_script rfl (fun _ => rfl) ?_, entryCommand_of_script rfl (fun _ => rfl) ?_,
    by decide⟩
  all_goals
    intro p
    simp [encEntry, bitIf]

/-- At the default bases the address keeps its low 7 bits: bit 7 is the base's own (R61). -/
theorem setdd_default_toNat (row col : Byte) :
    ((0x80 : Byte) ||| ((if row = 0 then 0x00 else 0x40) + col)).toNat
      = 0x80 + ((if row = 0 then 0 else 0x40) + col.toNat) % 128 := by
  by_cases hrow : row = 0
  · simp only [if_pos hrow]
    revert col
    decide
  · simp only [if_neg hrow]
    revert col
    decide

/-- Settles O19: its script is the set-DDRAM-address of the cursor's address. -/
theorem setcurSendsRowBasePlusColumn : Obligations.SetcurSendsRowBasePlusColumn :=
  ⟨fun _ _ => rfl, fun _ _ _ hr => sendsFrom_of_script hr rfl, setdd_default_toNat⟩

end Sys2Proof.Claims
end

section
/-! Toggles issued twice (R105, R108, R111, R128). -/

namespace Sys2Proof.Machine

/-- The field that a toggle writes before its events: a flag or the backlight bit, inverted. -/
def toggled : Instr → State → State
  | .disptgl, s => { s with disp := s.disp.map not }
  | .curtgl, s => { s with cur := s.cur.map not }
  | .blnktgl, s => { s with blink := s.blink.map not }
  | .bltgl, s => { s with transport := s.transport.setBacklight not }
  | _, s => s

/-- A micro-sequence with nothing in it moves no pin. -/
theorem run_nil_transport (s : State) : (s.run []).transport = s.transport := by
  unfold State.run
  split <;> rfl

theorem setBacklight_not_not (t : Transport) :
    (t.setBacklight not).setBacklight not = t := by
  cases t <;> simp [Transport.setBacklight]

/-- What a toggle leaves of the flags is what its write left, whether or not its transmits complete;
`BLTGL` has no event, so the same holds of its transport. -/
theorem exec_toggle {i : Instr} {s t : State}
    (hi : i = .disptgl ∨ i = .curtgl ∨ i = .blnktgl ∨ i = .bltgl) (he : exec i s = .next t) :
    SameFlags (toggled i s) t ∧ (i = .bltgl → t.transport = (toggled i s).transport) := by
  have hn : needsReady i = true := by rcases hi with rfl | rfl | rfl | rfl <;> rfl
  obtain ⟨_, _, s0, l, hs, rfl⟩ := exec_script hn he
  have hs0 : s0 = toggled i s := by
    rcases hi with rfl | rfl | rfl | rfl
    case inr.inr.inr => cases hs; rfl
    all_goals exact dctrl_script_state hs
  subst hs0
  refine ⟨run_sameFlags _ _, ?_⟩
  rintro rfl
  cases hs
  exact run_nil_transport _

end Sys2Proof.Machine

namespace Sys2Proof.Claims

open Sys2Proof.Machine

/-- Settles O18: each of the two commands leaves the inverted field, even where it ends stuck. -/
theorem togglesAreInvolutive : Obligations.TogglesAreInvolutive := by
  intro i s t u hi ht hu
  obtain ⟨⟨htd, htc, htb, _⟩, htlight⟩ := exec_toggle hi ht
  obtain ⟨⟨hud, huc, hub, _⟩, hulight⟩ := exec_toggle hi hu
  have hnot : not ∘ not = id := Bool.involutive_not.comp_self
  rcases hi with rfl | rfl | rfl | rfl
  case inr.inr.inr =>
    refine ⟨hud.trans htd, huc.trans htc, hub.trans htb, fun _ => ?_⟩
    rw [hulight rfl, toggled, htlight rfl, toggled, setBacklight_not_not]
  all_goals simp [hud, huc, hub, htd, htc, htb, toggled, hnot]

end Sys2Proof.Claims
end

section
/-! A first transmit that never completes (R81, R136): the run ends in it. -/

namespace Sys2Proof.Machine

/-- The bytes that arrived moved `XP` alone, to the last of them (R22). -/
theorem takeAll_eq (port : I2cPort) (bs : List Byte) :
    (port.takeAll bs).1 = { port with xp := bs.getLastD port.xp } := by
  induction bs generalizing port with
  | nil => rfl
  | cons b bs ih => simp only [I2cPort.takeAll, I2cPort.take, ih, List.getLastD_cons]

/-- An unfinished transmit leaves `XP` as it was or at one of its bytes (R136, U19). -/
theorem takeBytes_reached (port : I2cPort) (n : Nat) (bs : List Byte) :
    ∃ x ∈ port.xp :: bs,
      ((Transport.i2c port).takeBytes (bytesReached n bs)).1 = .i2c { port with xp := x } := by
  refine ⟨(bytesReached n bs).getLastD port.xp, ?_, congrArg Transport.i2c (takeAll_eq _ _)⟩
  rcases List.mem_cons.1 List.getLastD_mem_cons with h | h
  · exact h ▸ List.mem_cons_self
  · exact List.mem_cons_of_mem _ (List.mem_of_mem_take h)

/-- A wire frame that the platform never completes: stuck in it, with `XP` where it was or at one of the
two values of the frame (R87, R136). -/
theorem emit_frame_stuck {s : State} {port : I2cPort} (ht : s.transport = .i2c port)
    (hb : s.bus = some 0) (level : Bool) (n : Nibble) :
    (s.emit (frameTrace port level n)).hung = true
      ∧ ∃ x, (s.emit (frameTrace port level n)).transport = .i2c { port with xp := x }
        ∧ x ∈ [port.xp, port.layout.byte n level port.bl false,
            port.layout.byte n level port.bl true] := by
  obtain ⟨x, hx, hxp⟩ := takeBytes_reached port s.freeCount
    [port.layout.byte n level port.bl false, port.layout.byte n level port.bl true,
      port.layout.byte n level port.bl false]
  simp only [State.emit, frameTrace, State.transmit, hb, ht]
  refine ⟨rfl, x, hxp, ?_⟩
  simp only [List.mem_cons, List.not_mem_nil, or_false] at hx ⊢
  tauto

/-- Sends of which the first transmit never completes stop in the frame of its high nibble. -/
theorem run_sends_stuck {s : State} {port : I2cPort} (ht : s.transport = .i2c port)
    (hb : s.bus = some 0) (x : Send) (l : List Send) :
    ∃ ms, s.run ((sendsTrace s.params s.transport (x :: l)).map .event)
      = { s.emit (frameTrace port x.level (hiNibble x.byte)) with pending := ms } := by
  simp only [ht, sendsTrace, byteTrace, List.flatMap_cons, List.cons_append, List.map_cons]
  exact ⟨_, run_cons_stuck _ (emit_frame_stuck ht hb x.level (hiNibble x.byte)).1⟩

end Sys2Proof.Machine

namespace Sys2Proof.Claims

open Sys2Proof.Machine

/-- Settles O46: its events start from a state with the flag written, and the first of them is the
transmit that never completes. -/
theorem stuckDisponHasWrittenItsFlag : Obligations.StuckDisponHasWrittenItsFlag := by
  intro s port c b hu _ hp ht hbus hc hb
  have hs : scriptOf .dispon s = some ({ s with disp := some true },
      [instrSend s.params (encDctrl s.params true c b)]) := by
    simp [scriptOf, dctrlSend, State.dctrlByte, hc, hb]
  obtain ⟨ms, hrun⟩ := run_sends_stuck (s := { s with disp := some true }) ht hbus
    (instrSend s.params (encDctrl s.params true c b)) []
  obtain ⟨hhung, hxp⟩ := emit_frame_stuck (s := { s with disp := some true }) ht hbus
    (instrLevel s.params) (hiNibble (encDctrl s.params true c b))
  obtain ⟨hout, hupc, _, hphase, _, _, _, _, hdisp, hcur, hblink, _⟩ :=
    emit_frame { s with disp := some true }
      (frameTrace port (instrLevel s.params) (hiNibble (encDctrl s.params true c b)))
  exact ⟨_, (exec_of_script hu hp hs).trans (congrArg _ hrun), hhung, hupc.trans (by rw [hu]), hdisp,
    hcur.trans hc, hblink.trans hb, hphase.trans hp, hout, hxp⟩

end Sys2Proof.Claims
end

section
/-! A whole `INIT` from phase Uninitialized (R125, R154). -/

namespace Sys2Proof.Claims

open Sys2Proof.Machine

/-- Settles O21: the gate opens, and its listing is run to the end with idle lines, so each byte goes
out whole. -/
theorem initReachesReady : Obligations.InitReachesReady := by
  intro s hu hh hp hl hb
  have hsent := transmitsIn_init s.params s.transport
  have hexec : exec .init s = .next (s.run (initSeq s.params s.transport)) :=
    hostCommand_construction hu hp
  rw [hexec, run_init s hh fun n hn => serves_of s _ hb n _ hsent hn, replay_init _ _ hl,
    bus_map_eq s.transport s.bus _ _ hsent, ← hu]

end Sys2Proof.Claims
end

section
/-! The backlight commands (R126 to R129): a write of the backlight bit and no event. -/

namespace Sys2Proof.Machine

/-- The variants without a backlight bit have none to write (R129). -/
theorem setBacklight_gpio {t : Transport} (hv : t.variant ≠ .i2c) (f : Bool → Bool) :
    t.setBacklight f = t := by
  cases t with
  | i2c port => exact absurd rfl hv
  | ph q | pf q | sr q => rfl

/-- Between commands, a script without sends leaves the state it starts from. -/
theorem exec_silent_script {i : Instr} {s s0 : State} (hu : s.upc = 0) (hh : s.hung = false)
    (hp : s.phase = .ready) (hs : scriptOf i s = some (s0, [])) :
    exec i s = .next { s0 with upc := 0, pending := [] } := by
  have hh0 : s0.hung = false := (scriptOf_hung hs).trans hh
  rw [exec_of_script hu hp hs]
  simp [sendsTrace, State.run, State.play, State.finish, hh0]

/-- In phase Ready a backlight command writes the backlight bit and nothing else. -/
theorem exec_backlight {i : Instr} {s : State} (f : Bool → Bool) (hu : s.upc = 0)
    (hh : s.hung = false) (hp : s.phase = .ready)
    (hs : scriptOf i s = some ({ s with transport := s.transport.setBacklight f }, [])) :
    exec i s = .next { s with transport := s.transport.setBacklight f, pending := [] } := by
  rw [exec_silent_script hu hh hp hs, ← hu]

end Sys2Proof.Machine

namespace Sys2Proof.Claims

open Sys2Proof.Machine

/-- Settles O25: each of the three writes its value of the bit on I2C and finds none elsewhere. -/
theorem backlightCommandsAreStateOnly : Obligations.BacklightCommandsAreStateOnly := by
  intro s hu hh hp
  have hon := exec_backlight (i := .blon) (fun _ => true) hu hh hp rfl
  have hoff := exec_backlight (i := .bloff) (fun _ => false) hu hh hp rfl
  have htgl := exec_backlight (i := .bltgl) not hu hh hp rfl
  refine ⟨fun port ht => ?_, fun hv => ?_⟩
  · rw [ht] at hon hoff htgl
    exact ⟨hon, hoff, htgl⟩
  · rw [setBacklight_gpio hv] at hon hoff htgl
    exact ⟨hon, hoff, htgl⟩

end Sys2Proof.Claims
end

section
/-! The stuck state (R134, R136, R137): the transmit that never completes is the last event, and
nothing moves on from it. -/

namespace Sys2Proof.Machine

theorem scriptOf_upc {i : Instr} {s s0 : State} {l : List Send}
    (hs : scriptOf i s = some (s0, l)) : s0.upc = s.upc := by
  obtain ⟨_, _, _, _, _, _, _, _, _, _, _, hu, _⟩ := scriptOf_core hs
  exact hu

/-- A command is stuck in `t`, out of `s`: its events end with a transmit, and `s.upc` has counted
them to that transmit (R15, R136). -/
def StuckInTransmit (s t : State) : Prop :=
  ∃ evs d b0 b1 b2, t.out = s.out ++ evs ∧ t.upc = evs.length
    ∧ evs.getLast? = some (.i2c d b0 b1 b2)

/-- At least that transmit has been counted, so a command is running. -/
theorem StuckInTransmit.upc_ne_zero {s t : State} (h : StuckInTransmit s t) : t.upc ≠ 0 := by
  obtain ⟨evs, _, _, _, _, _, hcount, hlast⟩ := h
  intro hzero
  rw [List.eq_nil_of_length_eq_zero (hcount.symm.trans hzero)] at hlast
  cases hlast

theorem run_stuckInTransmit {ms : List Micro} {s : State} (hu : s.upc = 0) (hh : s.hung = false)
    (ht : (s.run ms).hung = true) : StuckInTransmit s (s.run ms) := by
  obtain ⟨hrun, hplay⟩ := run_stuck ms s ht
  obtain ⟨evs, hout, _, hstuck, _⟩ := play_out ms s hh
  obtain ⟨pre, d, b0, b1, b2, rfl⟩ := hstuck hplay
  have hcount := play_upc ms s
  rw [hout, hu, List.length_append] at hcount
  rw [hrun]
  exact ⟨_, d, b0, b1, b2, hout, by omega, List.getLast?_concat⟩

/-- Every host command that ends stuck does so in a transmit of its own. -/
theorem exec_stuckInTransmit {i : Instr} {s t : State} (hf : i.format = .hc) (hu : s.upc = 0)
    (hh : s.hung = false) (he : exec i s = .next t) (ht : t.hung = true) : StuckInTransmit s t := by
  rcases exec_host_cases hf he with ⟨s0, l, hs, rfl⟩ | ⟨_, rfl⟩ | rfl
  · have hstuck := run_stuckInTransmit ((scriptOf_upc hs).trans hu) ((scriptOf_hung hs).trans hh) ht
    rwa [StuckInTransmit, scriptOf_out hs] at hstuck
  · exact run_stuckInTransmit hu hh ht
  · exact run_stuckInTransmit hu hh ht

/-- A stuck command has kept the phase; a stuck `INIT` is still before its last line, which writes
Ready (R125, R134). -/
theorem exec_stuck_phase {i : Instr} {s t : State} (hh : s.hung = false) (he : exec i s = .next t)
    (ht : t.hung = true) : t.phase = if i = .init then .initializing else s.phase := by
  split
  case isTrue hi =>
    subst hi
    obtain ⟨_, hgo, _⟩ := hostCommand_next he
    cases hgo
    obtain ⟨hrun, hplay⟩ := run_stuck _ s ht
    rw [hrun]
    exact init_stuck_phase s hh hplay
  case isFalse hi => exact exec_phase hi he

/-- The stuck state has no step: nothing returns from it (R137). -/
theorem step_stuck_ne_next {s : State} (h : s.hung = true) (u : State) : step s ≠ .next u := by
  intro hstep
  obtain ⟨hh, _⟩ := step_next hstep
  rw [h] at hh
  cases hh

end Sys2Proof.Machine

namespace Sys2Proof.Claims

open Sys2Proof.Machine

/-- Settles O45: only I2C transmits, and with `s.upc` at that transmit the command counts as running
for good. -/
theorem stuckStateIsFinal : Obligations.StuckStateIsFinal := by
  intro i s t hf hu hh he ht
  have hstuck := exec_stuckInTransmit hf hu hh he ht
  refine ⟨?_, hstuck, exec_stuck_phase hh he ht, step_stuck_ne_next ht,
    fun hs hw => step_hung hs hw ht, fun j hj => exec_busy hj hstuck.upc_ne_zero⟩
  by_contra hv
  exact absurd ((gpioVariantsNeverStick i s t hf hv hh he).symm.trans ht) Bool.false_ne_true

end Sys2Proof.Claims
end

section
/-! `RF6` before everything else (R133, R135, R141): a command presented while another runs, bytes
of the next one, a second agent. -/

namespace Sys2Proof.Machine

/-- A host that does not wait for done presents what is left while a command with events runs. -/
theorem pressed_busy {s t : State} (hw : s.hostWaits = false) (hi : s.hostIn ≠ [])
    (hout : s.out.length < t.out.length) : pressed s (.next t) = .refused .busy :=
  if_pos ⟨hw, hi, hout⟩

end Sys2Proof.Machine

namespace Sys2Proof.Claims

open Sys2Proof.Machine

/-- Settles O8: the gate of each command, then the three ways to intrude on a step. -/
theorem busyRefusesEveryHostCommand : Obligations.BusyRefusesEveryHostCommand := by
  refine ⟨fun i s => exec_busy, fun s => step_presented, ?_, fun s => step_shared⟩
  intro s i rest t hs hh hu hd hw hdec hrest he hout
  rw [step_host hs hh hu hd hdec, he]
  exact pressed_busy hw hrest hout

end Sys2Proof.Claims
end

section
/-! Until `INIT` has completed the observer knows nothing of the controller (R151, U10): what it hears
leaves it blank, and a write of the phase before Ready makes it blank. -/

namespace Sys2Proof.Machine

open Sys2Proof.Claims

theorem unknownBeforeInit_iff {s : State} :
    UnknownBeforeInit s ↔ (s.phase ≠ .ready → s.obs.Blank)
      ∧ (s.phase = .uninitialized → s.obs.pairing = .unknown) := by
  refine and_congr_left' (forall_congr' fun _ => ⟨?_, ?_⟩)
  · rintro ⟨hiface, hpairing, hspace, hac, hdir, hdd, hcg⟩
    exact ⟨hiface, hspace, hac, hdir, hdd, hcg, hpairing⟩
  · rintro ⟨hiface, hspace, hac, hdir, hdd, hcg, hpairing⟩
    exact ⟨hiface, hpairing, hspace, hac, hdir, hdd, hcg⟩

/-- In the same phase it is enough that a blank observer learns nothing and begins no pairing. -/
theorem unknownBeforeInit_of_blank_kept {s t : State} (h : UnknownBeforeInit s)
    (hp : t.phase = s.phase)
    (hobs : s.obs.Blank →
      t.obs.Blank ∧ (s.obs.pairing = .unknown → t.obs.pairing = .unknown)) :
    UnknownBeforeInit t := by
  obtain ⟨hblank, hpairing⟩ := unknownBeforeInit_iff.1 h
  refine unknownBeforeInit_iff.2 ⟨fun hr => ?_, fun hu => ?_⟩
  · exact (hobs (hblank (hp ▸ hr))).1
  · have hs : s.phase = .uninitialized := hp.symm.trans hu
    exact (hobs (hblank (by simp [hs]))).2 (hpairing hs)

/-- A write of the phase establishes the invariant, whatever was known before: it forgets, or the phase
is Ready. -/
theorem unknownBeforeInit_setPhase (s : State) (p : Phase) :
    UnknownBeforeInit (s.micro (.setPhase p)) := by
  cases p with
  | uninitialized => exact ⟨fun _ => ⟨rfl, rfl, rfl, rfl, rfl, rfl, rfl⟩, fun _ => rfl⟩
  | initializing => exact ⟨fun _ => ⟨rfl, rfl, rfl, rfl, rfl, rfl, rfl⟩, nofun⟩
  | ready => exact ⟨fun hne => absurd rfl hne, nofun⟩

theorem unknownBeforeInit_micro {s : State} (m : Micro) (h : UnknownBeforeInit s) :
    UnknownBeforeInit (s.micro m) := by
  cases m with
  | event ev =>
    obtain ⟨its, hobs⟩ := emit_obs s ev
    obtain ⟨_, _, _, hphase, _⟩ := emit_frame s ev
    exact unknownBeforeInit_of_blank_kept (t := s.emit ev) h hphase
      (hobs ▸ blank_onItems _ _ its)
  | setPhase p => exact unknownBeforeInit_setPhase s p
  | setFlags d c b => exact h
  | setDisp d => exact h
  | setEntry t d => exact h

theorem unknownBeforeInit_run {s : State} (ms : List Micro) (h : UnknownBeforeInit s) :
    UnknownBeforeInit (s.run ms) :=
  run_induct (fun _ m h => unknownBeforeInit_micro m h) (fun _ _ h => h) (fun _ h => h) s ms h

theorem unknownBeforeInit_tick {s : State} (h : UnknownBeforeInit s) : UnknownBeforeInit s.tick :=
  tick_induct (fun _ m h => unknownBeforeInit_micro m h) (fun _ _ h => h) (fun _ h => h) s h

/-- A byte at the controller is heard as one of the wire is, so it teaches nothing either. -/
theorem unknownBeforeInit_receive {s : State} (b : Byte) (act : Observer → Observer)
    (h : UnknownBeforeInit s) : UnknownBeforeInit (s.receive b act) :=
  unknownBeforeInit_of_blank_kept h rfl (blank_hear _ act)

theorem unknownBeforeInit_exec {i : Instr} {s t : State} (h : UnknownBeforeInit s)
    (he : exec i s = .next t) : UnknownBeforeInit t := by
  rcases exec_next_cases he with ⟨s0, l, hs, _, _, rfl⟩ | ⟨_, _, rfl⟩ | ⟨_, _, _, rfl⟩ | ⟨_, b, rfl⟩
    | ⟨_, bs, rfl⟩
  · refine unknownBeforeInit_run _ (unknownBeforeInit_of_blank_kept h (scriptOf_phase hs) ?_)
    rw [scriptOf_obs hs]
    exact fun hblank => ⟨hblank, id⟩
  · exact unknownBeforeInit_run _ h
  · exact unknownBeforeInit_run _ h
  · exact unknownBeforeInit_receive b _ h
  · exact unknownBeforeInit_of_blank_kept h rfl (blank_onItems _ _ _)

end Sys2Proof.Machine

namespace Sys2Proof.Claims

open Sys2Proof.Machine

/-- Settles O54: every source of a next state keeps the observer ignorant. -/
theorem stepKeepsUnknownBeforeInit : Obligations.StepKeepsUnknownBeforeInit := by
  intro s t hs ht
  obtain ⟨_, ⟨_, rfl⟩ | rfl | ⟨_, ds, r, i, he⟩ | ⟨ds, b, rfl⟩⟩ := step_next_sources ht
  · exact unknownBeforeInit_tick hs
  · exact hs
  · exact unknownBeforeInit_exec (s := { s with devIn := ds, hostIn := r }) hs he
  · exact unknownBeforeInit_receive (s := { s with devIn := ds }) b _ hs

end Sys2Proof.Claims
end

section
/-! The state after `INIT` is done (R152). -/

namespace Sys2Proof.Claims

open Sys2Proof.Machine

/-- Settles O23: the listing is run to the end, so the pins are those after its last byte, `0x0C`, and
the observer has heard its bytes. -/
theorem stateAfterInit : Obligations.StateAfterInit := by
  intro s t hp _ hh hl he ht
  obtain ⟨_, hrun, _⟩ := hostCommand_next he
  cases hrun
  rw [run_init s hh (init_served s hh ht), replay_init _ _ hl]
  simp only [hp, init_observer]
  refine ⟨trivial, trivial, trivial, trivial, trivial, trivial, trivial, fun q hq => ?_,
    fun q hq => ?_, fun q hq => ?_, fun port hport => ?_, ?_⟩
  · rw [hq]; rfl
  · rw [hq]; rfl
  · rw [hq]; rfl
  · rw [hport]; rfl
  · cases s.transport.variant.isFour with
    | true => exact ⟨s.obs.bytes, rfl⟩
    | false =>
      exact ⟨s.obs.bytes ++ [0x30, 0x30, 0x30].map fun b => ⟨some false, some b⟩, by simp⟩

end Sys2Proof.Claims
end

section
/-! The time-units that traces request (R158, R160), at any parameters: a strobe, a byte, a lone nibble
and `INIT` on each variant, then the commands. -/

namespace Sys2Proof.Machine

/-! ### Frames -/

/-- One strobe (R77). -/
def pulseDelay (p : Params) : Nat := p.tPre + p.tHigh + p.tPost

/-- One byte (R82): two strobes on PH, one on PF and SR, none on I2C. -/
def byteDelay (p : Params) : Variant → Nat
  | .ph => pulseDelay p + pulseDelay p
  | .pf => pulseDelay p
  | .sr => pulseDelay p
  | .i2c => 0

/-- One lone nibble (R88), on PH one strobe. -/
def nibbleDelay (p : Params) : Variant → Nat
  | .ph => pulseDelay p
  | .pf => 0
  | .sr => 0
  | .i2c => 0

/-- The whole of `INIT` (R125, R160). -/
def initDelay (p : Params) (v : Variant) : Nat :=
  p.tPower + p.tFs1 + p.tFs2 + p.tFs3
    + (if v.isFour then 4 * nibbleDelay p v + p.tSettle else 3 * byteDelay p v)
    + 5 * (byteDelay p v + p.tSettle)

@[simp] theorem requestedDelay_wait (n : Nat) : requestedDelay (waitTrace n) = n := by
  unfold waitTrace
  split
  · rename_i h; simp [requestedDelay, h]
  · simp [requestedDelay]

@[simp] theorem requestedDelay_pulse (p : Params) : requestedDelay (pulseTrace p) = pulseDelay p := by
  simp [pulseTrace, requestedDelay_append, requestedDelay, pulseDelay, Nat.add_assoc]

@[simp] theorem requestedDelay_shift (b : Byte) : requestedDelay (shiftTrace b) = 0 := rfl

@[simp] theorem requestedDelay_byte (p : Params) (t : Transport) (l : Bool) (b : Byte) :
    requestedDelay (byteTrace p t l b) = byteDelay p t.variant := by
  cases t <;>
    simp [byteTrace, Transport.variant, byteDelay, requestedDelay_append, requestedDelay, frameTrace]

@[simp] theorem requestedDelay_nibble (p : Params) (t : Transport) (l : Bool) (n : Nibble) :
    requestedDelay (nibbleTrace p t l n) = nibbleDelay p t.variant := by
  cases t <;> simp [nibbleTrace, Transport.variant, nibbleDelay, requestedDelay, frameTrace]

theorem requestedDelay_bytes (p : Params) (t : Transport) (l : Bool) (w : Nat) (bs : List Byte) :
    requestedDelay (bs.flatMap fun b => byteTrace p t l b ++ waitTrace w)
      = bs.length * (byteDelay p t.variant + w) := by
  induction bs with
  | nil => simp [requestedDelay]
  | cons b bs ih =>
    rw [List.flatMap_cons, requestedDelay_append, requestedDelay_append, requestedDelay_byte,
      requestedDelay_wait, ih, List.length_cons, Nat.succ_mul, Nat.add_comm]

theorem requestedDelay_init (p : Params) (t : Transport) :
    requestedDelay (initTrace p t) = initDelay p t.variant := by
  have hbytes : (initBytes p t.variant).length = 5 := rfl
  unfold initTrace initDelay
  simp only [requestedDelay_append, requestedDelay_bytes, requestedDelay_wait, hbytes]
  cases t.variant.isFour with
  | true =>
    simp only [if_true, requestedDelay_append, requestedDelay_nibble, requestedDelay_wait]
    omega
  | false =>
    simp only [Bool.false_eq_true, if_false, requestedDelay_byte, requestedDelay]
    omega

/-! ### Commands -/

section

variable {i : Instr} {s t : State}

/-- A finished primitive requests what its events do. -/
theorem primitive_delay {v : Variant} (hi : primitiveOf i = some v) (hs : s.hung = false)
    (he : exec i s = .next t) (ht : t.hung = false) :
    requestedDelay t.out = requestedDelay s.out + requestedDelay (primTrace i s) := by
  obtain ⟨_, rfl⟩ := primitive_next hi he
  rw [run_out_served hs ht, eventsOf_map, requestedDelay_append]

/-- A finished command that sends one byte requests that byte and the wait after it. -/
theorem one_send_delay {x : Send} (hi : needsReady i = true) (hx : scriptOf i s = some (s, [x]))
    (hs : s.hung = false) (he : exec i s = .next t) (ht : t.hung = false) :
    requestedDelay t.out
      = requestedDelay s.out + (byteDelay s.params s.transport.variant + x.wait) := by
  obtain ⟨_, _, s0, l, hscript, rfl⟩ := exec_script hi he
  cases hx.symm.trans hscript
  rw [run_out_served hs ht, eventsOf_map, requestedDelay_append]
  simp [sendsTrace, requestedDelay_append]

theorem init_delay (hs : s.hung = false) (he : exec .init s = .next t) (ht : t.hung = false) :
    requestedDelay t.out = requestedDelay s.out + initDelay s.params s.transport.variant := by
  obtain ⟨_, hrun, _⟩ := hostCommand_next he
  cases hrun
  rw [run_out_served hs ht, eventsOf_init, requestedDelay_append, requestedDelay_init]

end

end Sys2Proof.Machine

namespace Sys2Proof.Claims

open Sys2Proof.Machine

/-- Settles O24: the delay of each trace, evaluated at the default parameters. -/
theorem requestedDelaysAtDefaults : Obligations.RequestedDelaysAtDefaults := by
  intro s t n b d hp hs ht adds byVariant
  have hpulse : requestedDelay (pulseTrace s.params) = 3 := by rw [requestedDelay_pulse, hp]; rfl
  have pick (f : Variant → Nat) (hf : f .sr = f .pf) (h : adds (f s.transport.variant)) :
      byVariant (f .ph) (f .pf) (f .i2c) := by
    revert h
    simp only [byVariant]
    cases s.transport.variant with
    | sr => rw [hf]; exact id
    | ph | pf | i2c => exact id
  have hinstr {i : Instr} {b : Byte} (hi : needsReady i = true)
      (hx : scriptOf i s = some (s, [instrSend s.params b])) (he : exec i s = .next t) :
      byVariant 8 5 2 :=
    pick (fun v => byteDelay Params.default v + Params.default.tSettle) rfl
      (hp ▸ one_send_delay hi hx hs he ht)
  refine ⟨fun he => ?_, fun he => ?_, fun he => ?_, fun he => ?_, hinstr rfl rfl, ?_, fun he => ?_,
    fun he => ?_⟩
  · exact (primitive_delay rfl hs he ht).trans (congrArg _ hpulse)
  · exact (primitive_delay rfl hs he ht).trans (congrArg _ hpulse)
  · refine (primitive_delay rfl hs he ht).trans (congrArg _ ?_)
    simp [primTrace, requestedDelay_append, requestedDelay, hpulse]
  · refine (primitive_delay rfl hs he ht).trans (congrArg _ ?_)
    cases hport : s.transport <;> simp [primTrace, hport, requestedDelay, frameTrace]
  · rintro (he | he)
    · exact hinstr rfl rfl he
    · exact hinstr rfl rfl he
  · exact pick (fun v => byteDelay Params.default v + Params.default.tDataSettle) rfl
      (hp ▸ one_send_delay (i := .wdata b) rfl rfl hs he ht)
  · exact pick (initDelay Params.default) rfl (hp ▸ init_delay hs he ht)

end Sys2Proof.Claims
end
